-- ==== Sys2Proof/Word.lean ====
section
/-! DEFINITION. The word types of the engine and its small closed sets of names: a wire byte, a coordinate operand, the
eight colours, the pin roles and the pin levels (spec/00_scope.md R7, R8; spec/40_displaycolor.md R100). -/

namespace Sys2Proof

/-- A wire byte: 8 bits, an atom the SPI collaborator is handed (R8, R45). -/
abbrev Byte := BitVec 8

/-- A coordinate operand: signed two's complement of COORD_BITS = 32 bits (R7, R77). -/
abbrev Coord := BitVec 32

/-- DisplayColor, the closed set of eight variants in the source's listing order (R100). -/
inductive Color where
  | black | white | green | blue | red | yellow | orange | clean
  deriving DecidableEq, Repr, Inhabited

/-- The four logical pin roles (R8, R9). -/
inductive Role where
  | cs | dc | rst | busy
  deriving DecidableEq, Repr

/-- The three roles the engine drives: `PINLEVEL[BUSY]` does not exist (R20), and `PinWrite` is on these only (R250). -/
inductive OutRole where
  | cs | dc | rst
  deriving DecidableEq, Repr

/-- The direction a pin is opened with (R8). -/
inductive Dir where
  | output | input
  deriving DecidableEq, Repr

/-- A pin level: low is 0, high is 1 (R8, R78). -/
inductive Level where
  | low | high
  deriving DecidableEq, Repr, Inhabited

end Sys2Proof
end

