-- ==== Sys2Proof/Config.lean ====
section
/-! DEFINITION. What is fixed for one engine: the grid dimensions, the construction arguments, and the free values the spec
leaves open (spec/00_scope.md R7; spec/41_busywaiter.md R112, R115; spec/10_state.md R16, R17, R25). -/

namespace Sys2Proof

/-- `W`, the logical width in cells (R7). -/
def gridW : Nat := 600

/-- `H`, the logical height in cells (R7). -/
def gridH : Nat := 448

/-- `NCELLS` = W * H = 268800 (R7, R11). -/
def nCells : Nat := 268800

/-- `NBYTES` = NCELLS / 2 = 134400, the length of the packed image (R7, R199). -/
def nBytes : Nat := 134400

/-- The construction arguments of the block and its open parameters, fixed from reset on (R7, R16, R17, R30): the two
orientation flags, the four pin numbers, the polling interval and the choice for a second INITIALIZE (R126).
They stand in the state, so that a claim about every state is a claim about every value of them.
DESIGN CHOICE (log entry 28): a pin number is any natural number, since the spec gives neither its width nor its legal
values (R17). -/
structure Cfg where
  hflip : Bool
  vflip : Bool
  pinCs : Nat
  pinDc : Nat
  pinRst : Nat
  pinBusy : Nat
  pollIntervalMs : Nat
  reinitRedrives : Bool
  deriving DecidableEq, Repr

/-- FREE VALUE (U2, log entry 3): `POLL_INTERVAL_MS` of the engine at reset is one more than this number, hence greater
than 0 and otherwise unknown. -/
opaque Config.pollLessOne : Nat

/-- FREE VALUE (R25, U13, D19, log entry 2): the level of BUSY at the n-th sample since reset, where the state lists no
level for it. -/
opaque Config.freeBusy : Nat → Level

/-- FREE VALUE (R112, U2, D5, log entry 2): how many milliseconds beyond `POLL_INTERVAL_MS` pass after the n-th sample
since reset, where the state lists no number for it. -/
opaque Config.freeLateMs : Nat → Nat

/-- FREE VALUE (R115, U5, D22, log entry 4): whether the seconds figure of a timeout of this many milliseconds, when that is
no whole number of hundredths, is rounded up. -/
opaque Config.roundsUp : Nat → Bool

end Sys2Proof
end

