-- ==== Sys2Proof/Syntax.lean ====
section
/-! DEFINITION. The instructions of the engine: one constructor per row of spec/opcode_table.json, the 17 host operations
(spec/30_encoding.md R76, R77) and the 12 wire commands (R80). -/

namespace Sys2Proof

/-- A two-dimensional array of shape `N0 x N1`: `N0` is the number of rows, `N1` is `cols`; a row is one fixed first index
(R8, R220, decision D2).  `cols` is kept apart because an array of no rows still has a shape. -/
structure Grid (α : Type) where
  cols : Nat
  rows : List (List α)
  deriving DecidableEq, Repr

/-- The eight zero-argument handlers of DISPATCH, each as the result it returns when it runs (R103, log entry 9). -/
structure Handlers where
  h0 : Nat
  h1 : Nat
  h2 : Nat
  h3 : Nat
  h4 : Nat
  h5 : Nat
  h6 : Nat
  h7 : Nat
  deriving DecidableEq, Repr

/-- The instructions: first the host operations in the order of their selectors, then the wire commands in the order of
their opcodes. -/
inductive Instr where
  /-- INITIALIZE (R125) -/
  | initializeDriver
  /-- WRITE_COMMAND (R131) -/
  | writeCommand (bytes : List Byte)
  /-- WRITE_DATA (R132) -/
  | writeData (bytes : List Byte)
  /-- RESET_DISPLAY (R150) -/
  | resetDisplay
  /-- SET_RESOLUTION (R153) -/
  | setResolution
  /-- FLUSH (R155) -/
  | flush (packedBytes : List Byte)
  /-- WAIT_FOR_READY (R110) -/
  | waitForReady (pin : Role) (timeoutMs : Nat)
  /-- SET_PIXEL (R190) -/
  | setPixel (x y : Coord) (color : Color)
  /-- GET_PIXELS (R192) -/
  | getPixels
  /-- RENDER (R200) -/
  | render
  /-- FROM_BYTE (R101) -/
  | fromByte (b : Byte)
  /-- TO_BYTE (R102) -/
  | toByte (color : Color)
  /-- DISPATCH (R103) -/
  | dispatch (color : Color) (handlers : Handlers)
  /-- FLATTEN (R220) -/
  | flatten (grid : Grid Nat)
  /-- MIRROR_COLUMNS (R221) -/
  | mirrorColumns (grid : Grid Nat)
  /-- MIRROR_ROWS (R222) -/
  | mirrorRows (grid : Grid Nat)
  /-- ROTATE (R224) -/
  | rotate (angleCode : Nat) (grid : Grid Nat)
  /-- CMD_PANEL_SETTING 0x00 (R160) -/
  | cmdPanelSetting
  /-- CMD_POWER_SETTING 0x01 (R161) -/
  | cmdPowerSetting
  /-- CMD_POWER_OFF_SEQ 0x03 (R162) -/
  | cmdPowerOffSeq
  /-- CMD_POWER_ON 0x04 (R163) -/
  | cmdPowerOn
  /-- CMD_IMAGE_TRANSFER 0x10, its payload the packed image (R164) -/
  | cmdImageTransfer (packedBytes : List Byte)
  /-- CMD_PLL 0x30 (R165) -/
  | cmdPll
  /-- CMD_TSE 0x41 (R166) -/
  | cmdTse
  /-- CMD_VCOM_DATA_INTERVAL 0x50 (R167) -/
  | cmdVcomDataInterval
  /-- CMD_NON_OVERLAP 0x60 (R168) -/
  | cmdNonOverlap
  /-- CMD_RESOLUTION 0x61 (R169) -/
  | cmdResolution
  /-- CMD_FLASH_DISABLE 0x65 (R170) -/
  | cmdFlashDisable
  /-- CMD_SEVEN_COLOUR 0xE3 (R171) -/
  | cmdSevenColour
  deriving DecidableEq, Repr

end Sys2Proof
end

