-- ==== Sys2Proof/WellFormed.lean ====
section
/-! DEFINITION. Which terms of the syntax are instructions of the engine: an array operand has rows of one length, its
second dimension (spec/30_encoding.md R77), and a packed image has 134400 bytes (spec/43_protocol_sequences.md R156). -/

namespace Sys2Proof

/-- Every row of the array has `N1` elements, so that it is an `N0 x N1` array (R77, R220). -/
def Grid.rect {α : Type} (g : Grid α) : Bool :=
  g.rows.all fun r => r.length == g.cols

/-- The byte sequence has the length the packed framebuffer has (R156). -/
def isImage (pk : List Byte) : Bool :=
  pk.length == nBytes

/-- The checks an instruction term must pass.  An empty byte sequence given to WRITE_COMMAND or WRITE_DATA is a legal
operand, which those operations answer with an error (R77, R129); a role other than BUSY is a legal operand of
WAIT_FOR_READY's encoding, refused when it runs (R81). -/
def Instr.wf : Instr → Bool
  | .initializeDriver => true
  | .writeCommand _ => true
  | .writeData _ => true
  | .resetDisplay => true
  | .setResolution => true
  | .flush pk => isImage pk
  | .waitForReady _ _ => true
  | .setPixel _ _ _ => true
  | .getPixels => true
  | .render => true
  | .fromByte _ => true
  | .toByte _ => true
  | .dispatch _ _ => true
  | .flatten g => g.rect
  | .mirrorColumns g => g.rect
  | .mirrorRows g => g.rect
  | .rotate _ g => g.rect
  | .cmdPanelSetting => true
  | .cmdPowerSetting => true
  | .cmdPowerOffSeq => true
  | .cmdPowerOn => true
  | .cmdImageTransfer pk => isImage pk
  | .cmdPll => true
  | .cmdTse => true
  | .cmdVcomDataInterval => true
  | .cmdNonOverlap => true
  | .cmdResolution => true
  | .cmdFlashDisable => true
  | .cmdSevenColour => true

end Sys2Proof
end

