-- ==== Sys2Proof/Decode.lean ====
section
/-! DEFINITION. Decoding, total on any bytes and rejecting by name, and the encoder (spec/30_encoding.md R70 to R82, R87).
A host operation (format HOP) is a selector byte and its operands (R76, R77); a wire command (format CMDF) is one opcode
byte (R80), the packed image of 0x10 being the operand of the position that sends it.  The byte layout of the operands is
the model's own, since the spec gives none (D3): log entry 6. -/

namespace Sys2Proof

/-! ### Colour codes -/

/-- The 3-bit code of a colour (R75, R100). -/
def Color.code : Color → BitVec 3
  | .black => 0
  | .white => 1
  | .green => 2
  | .blue => 3
  | .red => 4
  | .yellow => 5
  | .orange => 6
  | .clean => 7

/-- The colour of a 3-bit code: all eight are colours (R81, R100). -/
def Color.ofCode (v : BitVec 3) : Color :=
  if v = 0 then .black
  else if v = 1 then .white
  else if v = 2 then .green
  else if v = 3 then .blue
  else if v = 4 then .red
  else if v = 5 then .yellow
  else if v = 6 then .orange
  else .clean

/-- The wire byte of a colour, its code with five zero bits above (R102). -/
def Color.toByte (c : Color) : Byte := c.code.setWidth 8

/-- The colour of a wire byte; no byte above 7 is one, and nothing is masked (R101). -/
def Color.ofByte (b : Byte) : Option Color :=
  if b.toNat ≤ 7 then some (Color.ofCode (b.setWidth 3)) else none

/-! ### Rejections -/

/-- Why the bytes of a presented operation are no instruction.  All are raised by the decoder, and all are safe: the machine
stops where it has no term for the bytes (R81, U10; log entry 6). -/
inductive Reject where
  /-- no byte at all was presented -/
  | empty
  /-- selectors 0x11 to 0xFF name no operation (R81, U10) -/
  | noSuchSelector (selector : Byte)
  /-- no fixed sequence sends this opcode (R80, R81) -/
  | noSuchOpcode (opcode : Byte)
  /-- the operands end before they are complete -/
  | truncated
  /-- bytes are left over after the last operand -/
  | trailing
  /-- a colour operand is a 3-bit code, and this byte is none (R77) -/
  | notAColour (b : Byte)
  /-- no role has this number -/
  | notARole (b : Byte)
  deriving DecidableEq, Repr

/-- What reading an operand from a list of bytes gives: the operand and the bytes after it. -/
abbrev Parsed (α : Type) := Except Reject (α × List Byte)

/-- Reads one operand and goes on with the bytes after it; the first failure is the failure of the whole. -/
def parseThen {α β : Type} (p : Parsed α) (k : α → List Byte → Parsed β) : Parsed β :=
  match p with
  | .ok (v, r) => k v r
  | .error e => .error e

/-! ### Operand readers -/

/-- One byte. -/
def getByte : List Byte → Parsed Byte
  | [] => .error .truncated
  | b :: r => .ok (b, r)

/-- A natural number, seven bits a byte, least significant first; bit 7 says that another byte follows. -/
def getNat : List Byte → Parsed Nat
  | [] => .error .truncated
  | b :: r =>
    if b.toNat < 128 then .ok (b.toNat, r)
    else parseThen (getNat r) fun n r => .ok (b.toNat - 128 + 128 * n, r)

/-- `n` bytes. -/
def getRaw : Nat → List Byte → Parsed (List Byte)
  | 0, r => .ok ([], r)
  | _ + 1, [] => .error .truncated
  | n + 1, b :: r => parseThen (getRaw n r) fun bs r => .ok (b :: bs, r)

/-- A byte sequence operand: a length and that many bytes (R77). -/
def getBytes (r : List Byte) : Parsed (List Byte) :=
  parseThen (getNat r) fun n r =>
  getRaw n r

/-- A colour operand, one byte 0 to 7 (R77). -/
def getColor (r : List Byte) : Parsed Color :=
  parseThen (getByte r) fun b r =>
  match Color.ofByte b with
  | some c => .ok (c, r)
  | none => .error (.notAColour b)

/-- A pin role operand, one byte: CS 0, DC 1, RST 2, BUSY 3. -/
def getRole (r : List Byte) : Parsed Role :=
  parseThen (getByte r) fun b r =>
  if b = 0 then .ok (.cs, r)
  else if b = 1 then .ok (.dc, r)
  else if b = 2 then .ok (.rst, r)
  else if b = 3 then .ok (.busy, r)
  else .error (.notARole b)

/-- A coordinate operand, four bytes, least significant first (R77). -/
def getCoord (r : List Byte) : Parsed Coord :=
  parseThen (getByte r) fun b0 r =>
  parseThen (getByte r) fun b1 r =>
  parseThen (getByte r) fun b2 r =>
  parseThen (getByte r) fun b3 r =>
  .ok (b3 ++ b2 ++ b1 ++ b0, r)

/-- `n` natural numbers: the elements of one row. -/
def getNats : Nat → List Byte → Parsed (List Nat)
  | 0, r => .ok ([], r)
  | n + 1, r => parseThen (getNat r) fun v r => parseThen (getNats n r) fun vs r => .ok (v :: vs, r)

/-- `n0` rows of `n1` elements. -/
def getRows : Nat → Nat → List Byte → Parsed (List (List Nat))
  | 0, _, r => .ok ([], r)
  | n0 + 1, n1, r => parseThen (getNats n1 r) fun v r => parseThen (getRows n0 n1 r) fun vs r => .ok (v :: vs, r)

/-- An array operand: its shape `N0`, `N1` and its elements, row by row (R77). -/
def getGrid (r : List Byte) : Parsed (Grid Nat) :=
  parseThen (getNat r) fun n0 r =>
  parseThen (getNat r) fun n1 r =>
  parseThen (getRows n0 n1 r) fun rows r =>
  .ok ({ cols := n1, rows := rows }, r)

/-- The eight handlers, `h0` first. -/
def getHandlers (r : List Byte) : Parsed Handlers :=
  parseThen (getNat r) fun h0 r =>
  parseThen (getNat r) fun h1 r =>
  parseThen (getNat r) fun h2 r =>
  parseThen (getNat r) fun h3 r =>
  parseThen (getNat r) fun h4 r =>
  parseThen (getNat r) fun h5 r =>
  parseThen (getNat r) fun h6 r =>
  parseThen (getNat r) fun h7 r =>
  .ok ({ h0 := h0, h1 := h1, h2 := h2, h3 := h3, h4 := h4, h5 := h5, h6 := h6, h7 := h7 }, r)

/-! ### The decoder -/

/-- The operation a selector names, with its operands read (R76, R87). -/
def decodeOperands (selector : Nat) (r : List Byte) : Parsed Instr :=
  match selector with
  | 0x00 => .ok (.initializeDriver, r)
  | 0x01 =>
    parseThen (getBytes r) fun bs r =>
    .ok (.writeCommand bs, r)
  | 0x02 =>
    parseThen (getBytes r) fun bs r =>
    .ok (.writeData bs, r)
  | 0x03 => .ok (.resetDisplay, r)
  | 0x04 => .ok (.setResolution, r)
  | 0x05 =>
    parseThen (getBytes r) fun bs r =>
    .ok (.flush bs, r)
  | 0x06 =>
    parseThen (getRole r) fun p r =>
    parseThen (getNat r) fun t r =>
    .ok (.waitForReady p t, r)
  | 0x07 =>
    parseThen (getCoord r) fun x r =>
    parseThen (getCoord r) fun y r =>
    parseThen (getColor r) fun c r =>
    .ok (.setPixel x y c, r)
  | 0x08 => .ok (.getPixels, r)
  | 0x09 => .ok (.render, r)
  | 0x0A =>
    parseThen (getByte r) fun b r =>
    .ok (.fromByte b, r)
  | 0x0B =>
    parseThen (getColor r) fun c r =>
    .ok (.toByte c, r)
  | 0x0C =>
    parseThen (getColor r) fun c r =>
    parseThen (getHandlers r) fun h r =>
    .ok (.dispatch c h, r)
  | 0x0D =>
    parseThen (getGrid r) fun g r =>
    .ok (.flatten g, r)
  | 0x0E =>
    parseThen (getGrid r) fun g r =>
    .ok (.mirrorColumns g, r)
  | 0x0F =>
    parseThen (getGrid r) fun g r =>
    .ok (.mirrorRows g, r)
  | 0x10 =>
    parseThen (getNat r) fun a r =>
    parseThen (getGrid r) fun g r =>
    .ok (.rotate a g, r)
  | n => .error (.noSuchSelector (BitVec.ofNat 8 n))

/-- A host operation at the head of a list of bytes, with the bytes after it (R76). -/
def decodeHop : List Byte → Parsed Instr
  | [] => .error .empty
  | sel :: r => decodeOperands sel.toNat r

/-- One presented host operation: its bytes hold the operation and nothing after it (R29, R76). -/
def decodeOp (bs : List Byte) : Except Reject Instr :=
  match decodeHop bs with
  | .ok (i, r) => if r = [] then .ok i else .error .trailing
  | .error e => .error e

/-- The wire command of an opcode byte; all eight bits select it (R80).  `pk` is the packed image, the payload of 0x10. -/
def decodeCommand (opcode : Byte) (pk : List Byte) : Except Reject Instr :=
  match opcode.toNat with
  | 0x00 => .ok .cmdPanelSetting
  | 0x01 => .ok .cmdPowerSetting
  | 0x03 => .ok .cmdPowerOffSeq
  | 0x04 => .ok .cmdPowerOn
  | 0x10 => .ok (.cmdImageTransfer pk)
  | 0x30 => .ok .cmdPll
  | 0x41 => .ok .cmdTse
  | 0x50 => .ok .cmdVcomDataInterval
  | 0x60 => .ok .cmdNonOverlap
  | 0x61 => .ok .cmdResolution
  | 0x65 => .ok .cmdFlashDisable
  | 0xE3 => .ok .cmdSevenColour
  | _ => .error (.noSuchOpcode opcode)

/-- The two instruction formats of the opcode table (R70). -/
inductive Format where
  /-- a host operation: selector byte and operands -/
  | hop
  /-- a wire command: the opcode byte of a command frame -/
  | cmdf
  deriving DecidableEq, Repr

/-- A wire command as bytes: its opcode alone, since a command frame of the fixed sequences is one byte (R71), but for
0x10, after which its payload, the packed image, stands. -/
def decodeCmdf : List Byte → Except Reject Instr
  | [] => .error .empty
  | c :: r =>
    if c = 0x10 then decodeCommand c r
    else if r = [] then decodeCommand c []
    else .error .trailing

/-- The decoder of both formats. -/
def decode : Format → List Byte → Except Reject Instr
  | .hop, bs => decodeOp bs
  | .cmdf, bs => decodeCmdf bs

/-! ### The encoder -/

/-- The base-128 digits of `n`, least significant first, bit 7 set on all but the last; `fuel` bounds their number. -/
def putDigits : Nat → Nat → List Byte
  | 0, n => [BitVec.ofNat 8 (n % 128)]
  | fuel + 1, n =>
    if n < 128 then [BitVec.ofNat 8 n]
    else BitVec.ofNat 8 (n % 128 + 128) :: putDigits fuel (n / 128)

/-- A natural number as bytes: see `getNat`. -/
def putNat (n : Nat) : List Byte := putDigits n n

/-- A byte sequence operand (R77). -/
def putBytes (bs : List Byte) : List Byte := putNat bs.length ++ bs

/-- A pin role operand. -/
def putRole : Role → Byte
  | .cs => 0
  | .dc => 1
  | .rst => 2
  | .busy => 3

/-- A coordinate operand, four bytes, least significant first. -/
def putCoord (v : Coord) : List Byte :=
  [v.extractLsb' 0 8, v.extractLsb' 8 8, v.extractLsb' 16 8, v.extractLsb' 24 8]

/-- The elements of one row. -/
def putNats : List Nat → List Byte
  | [] => []
  | v :: vs => putNat v ++ putNats vs

/-- The rows of an array. -/
def putRows : List (List Nat) → List Byte
  | [] => []
  | r :: rs => putNats r ++ putRows rs

/-- An array operand. -/
def putGrid (g : Grid Nat) : List Byte :=
  putNat g.rows.length ++ (putNat g.cols ++ putRows g.rows)

/-- The eight handlers, `h0` first. -/
def putHandlers (h : Handlers) : List Byte :=
  putNat h.h0 ++ (putNat h.h1 ++ (putNat h.h2 ++ (putNat h.h3 ++
    (putNat h.h4 ++ (putNat h.h5 ++ (putNat h.h6 ++ putNat h.h7))))))

/-- The format of an instruction: its row's "format" in the opcode table. -/
def Instr.format : Instr → Format
  | .initializeDriver => .hop
  | .writeCommand _ => .hop
  | .writeData _ => .hop
  | .resetDisplay => .hop
  | .setResolution => .hop
  | .flush _ => .hop
  | .waitForReady _ _ => .hop
  | .setPixel _ _ _ => .hop
  | .getPixels => .hop
  | .render => .hop
  | .fromByte _ => .hop
  | .toByte _ => .hop
  | .dispatch _ _ => .hop
  | .flatten _ => .hop
  | .mirrorColumns _ => .hop
  | .mirrorRows _ => .hop
  | .rotate _ _ => .hop
  | .cmdPanelSetting => .cmdf
  | .cmdPowerSetting => .cmdf
  | .cmdPowerOffSeq => .cmdf
  | .cmdPowerOn => .cmdf
  | .cmdImageTransfer _ => .cmdf
  | .cmdPll => .cmdf
  | .cmdTse => .cmdf
  | .cmdVcomDataInterval => .cmdf
  | .cmdNonOverlap => .cmdf
  | .cmdResolution => .cmdf
  | .cmdFlashDisable => .cmdf
  | .cmdSevenColour => .cmdf

/-- The bytes of an instruction: selector or opcode, then operands (R76, R77, R80). -/
def encode : Instr → List Byte
  | .initializeDriver => [0x00]
  | .writeCommand bs => 0x01 :: putBytes bs
  | .writeData bs => 0x02 :: putBytes bs
  | .resetDisplay => [0x03]
  | .setResolution => [0x04]
  | .flush pk => 0x05 :: putBytes pk
  | .waitForReady p t => 0x06 :: putRole p :: putNat t
  | .setPixel x y c => 0x07 :: (putCoord x ++ (putCoord y ++ [c.toByte]))
  | .getPixels => [0x08]
  | .render => [0x09]
  | .fromByte b => [0x0A, b]
  | .toByte c => [0x0B, c.toByte]
  | .dispatch c h => 0x0C :: c.toByte :: putHandlers h
  | .flatten g => 0x0D :: putGrid g
  | .mirrorColumns g => 0x0E :: putGrid g
  | .mirrorRows g => 0x0F :: putGrid g
  | .rotate a g => 0x10 :: (putNat a ++ putGrid g)
  | .cmdPanelSetting => [0x00]
  | .cmdPowerSetting => [0x01]
  | .cmdPowerOffSeq => [0x03]
  | .cmdPowerOn => [0x04]
  | .cmdImageTransfer pk => 0x10 :: pk
  | .cmdPll => [0x30]
  | .cmdTse => [0x41]
  | .cmdVcomDataInterval => [0x50]
  | .cmdNonOverlap => [0x60]
  | .cmdResolution => [0x61]
  | .cmdFlashDisable => [0x65]
  | .cmdSevenColour => [0xE3]

/-! ### Words of the opcode table -/

/-- The bytes of a table word: the first byte is bits 7:0, and so on. -/
def wordBytes : Nat → Nat → List Byte
  | 0, _ => []
  | n + 1, w => BitVec.ofNat 8 w :: wordBytes n (w / 256)

/-- The bytes of an instruction given as a table word of `nbits` bits, all operand bytes above them zero.  No operation
whose operands are all zero is longer than 10 bytes. -/
def tableBytes (nbits w : Nat) : List Byte :=
  wordBytes (nbits / 8) w ++ List.replicate 16 0

/-- What the decoder reads from a table word.  The table gives the host operations and the wire commands the same 8-bit
space (R76, R80): a word that names both (0x00, 0x01, 0x03, 0x04, 0x10) is read as the host operation, and a word that
names a wire command only is read as that (log entry 7). -/
def decodeTableWord (nbits w : Nat) : Option Instr :=
  match decodeHop (tableBytes nbits w) with
  | .ok (i, _) => some i
  | .error _ =>
    match decodeCmdf (wordBytes (nbits / 8) w) with
    | .ok i => some i
    | .error _ => none

end Sys2Proof
end

