-- ==== Sys2Proof/Machine/State.lean ====
section
/-! DEFINITION. The state of the engine, all of it, as plain data, its value after reset, and the reasons a step can stop
(spec/10_state.md R10 to R32, spec/60_exceptions.md R230 to R240, spec/70_reset_and_hazards.md R270). -/

namespace Sys2Proof.Machine

/-- The frame buffer: (cell key, colour) pairs, keys strictly rising, no pair Black; a key that is not listed holds Black
(R11; log entry 1).  The key of cell (x, y) is 448 * x + y. -/
abbrev Memory := List (Nat × Color)

/-- A wire event (R27). -/
inductive Event where
  | pinOpen (r : Role) (d : Dir)
  | pinClose (r : Role)
  | pinWrite (r : OutRole) (l : Level)
  | pinRead (r : Role) (l : Level)
  | spiWrite (bytes : List Byte)
  | sleep (ms : Nat)
  deriving DecidableEq, Repr

/-- `PINSTATE[r]` (R19). -/
inductive PinMode where
  | closed | openOut | openIn
  deriving DecidableEq, Repr

/-- `PINLEVEL[r]` (R20). -/
inductive Drive where
  | undriven
  | driven (l : Level)
  deriving DecidableEq, Repr

/-- `PINSTATE` of the four roles (R19). -/
structure PinModes where
  cs : PinMode
  dc : PinMode
  rst : PinMode
  busy : PinMode
  deriving DecidableEq, Repr

/-- `PINLEVEL` of the three output roles (R20). -/
structure PinDrives where
  cs : Drive
  dc : Drive
  rst : Drive
  deriving DecidableEq, Repr

/-- A coordinate axis, as a BoundsError names it (R85, R190). -/
inductive Axis where
  | x | y
  deriving DecidableEq, Repr

/-- An error record: the kind and its info (R85, R230, R232). -/
inductive Err where
  /-- EncodingError, code 1: the offending byte -/
  | encoding (b : Byte)
  /-- ProtocolArgumentError, code 2 -/
  | protocolArgument
  /-- ProtocolStateError, code 3 -/
  | protocolState
  /-- BoundsError, code 4: the axis and the offending coordinate -/
  | bounds (axis : Axis) (value : Int)
  /-- TimeoutError, code 5: the timeout asked for, in milliseconds -/
  | timeout (ms : Nat)
  /-- NotSupportedError, code 6 -/
  | notSupported
  deriving DecidableEq, Repr

/-- The value of a result `Ok(value)` (R29). -/
inductive Value where
  /-- the empty value -/
  | none
  /-- FROM_BYTE: a colour -/
  | color (c : Color)
  /-- TO_BYTE: a byte -/
  | byte (b : Byte)
  /-- DISPATCH: the index of the handler that ran, and its result -/
  | handled (index : Nat) (value : Nat)
  /-- GET_PIXELS: the grid, as a value of its own (R192) -/
  | pixels (grid : Memory)
  /-- RENDER: the packed bytes (R200) -/
  | packed (bytes : List Byte)
  /-- FLATTEN: a sequence -/
  | elements (s : List Nat)
  /-- MIRROR_COLUMNS, MIRROR_ROWS: an array -/
  | array (g : Grid Nat)
  deriving DecidableEq, Repr

/-- The result of a host operation (R29). -/
inductive Result where
  | ok (v : Value)
  | err (e : Err)
  deriving DecidableEq, Repr

/-- The busy waiter's working values, `BW.N` and `BW.ELAPSED_MS` (R26). -/
structure BusyWait where
  n : Nat
  elapsedMs : Nat
  deriving DecidableEq, Repr

/-- What the outside gives one sample of BUSY: its level (R25), and by how much the time to the next sample exceeds
`POLL_INTERVAL_MS` (R112). -/
structure Sample where
  level : Level
  lateMs : Nat
  deriving DecidableEq, Repr

/-- The steps 0 to 7 of phase `Init` (R24, R125). -/
inductive InitStep where
  | openCs | openDc | openRst | openBusy | writeCs | writeDc | writeRst | busyWait
  deriving DecidableEq, Repr

/-- The steps 0 to 3 of phase `Frame` (R24, R130). -/
inductive FrameStep where
  | assertCs | setDc | spi | deassertCs
  deriving DecidableEq, Repr

/-- The steps 0 to 4 of phase `Paint` (R24, R155). -/
inductive PaintStep where
  | registers | image | power1 | power2 | power3
  deriving DecidableEq, Repr

/-- One position (phase, step) of the sequencer, with the operand values of the operation in progress (R24, R30).  `calls`
counts the operations the step has called so far: an outer position is kept while an inner one runs, and resumed. -/
inductive Pos where
  /-- phase `Init`, steps 0 to 7 -/
  | init (step : InitStep) (calls : Nat)
  /-- phase `Frame`, steps 0 to 3, of the frame with this DC level and these bytes -/
  | frame (step : FrameStep) (dc : Level) (bytes : List Byte)
  /-- phase `RegSeq`; index `k` is step number `k + 1` -/
  | regSeq (k : Fin 10) (calls : Nat)
  /-- phase `Res`, step 0 -/
  | res (calls : Nat)
  /-- phase `Paint`, steps 0 to 4, of the FLUSH with this packed image -/
  | paint (step : PaintStep) (calls : Nat) (pk : List Byte)
  /-- phase `Wait` with this timeout; its step, the samples taken so far, is `BW.N` -/
  | wait (timeoutMs : Nat)
  /-- phase `Render`, step 0 -/
  | renderTransform
  /-- phase `Render`, step 1, with the transformed grid -/
  | renderPack (tg : Grid Color)
  /-- phase `Render`, step 2, with the packed image -/
  | renderFlush (calls : Nat) (pk : List Byte)
  deriving DecidableEq, Repr

/-- The state of the engine. -/
structure State where
  /-- `FB`, the cell store (R11) -/
  fb : Memory
  /-- `INIT` (R14) -/
  init : Bool
  /-- `CFG` and the parameters of the step (R16, R17, R7) -/
  cfg : Cfg
  /-- `PINSTATE` (R19) -/
  pinState : PinModes
  /-- `PINLEVEL` (R20) -/
  pinLevel : PinDrives
  /-- `SEQ`: the innermost position first; the empty list is `Idle` (R24) -/
  seq : List Pos
  /-- `BW`, existing only during a wait (R26) -/
  bw : Option BusyWait
  /-- `TRACE`, oldest event first (R27) -/
  trace : List Event
  /-- the command port: the operations the host presents, each as its bytes, the next one first (R29; log entry 12) -/
  port : List (List Byte)
  /-- the result of the last host operation, none before the first (R29; log entry 12) -/
  result : Option Result
  /-- what the next samples of BUSY give, the next one first; beyond its end the samples are free values (R25; log entry 2) -/
  busy : List Sample
  /-- the samples taken since reset, the counter the free values are drawn with (log entry 2) -/
  samples : Nat
  deriving DecidableEq, Repr

/-- Why the machine stops with a fault. -/
inductive Fault where
  /-- Raised by every host operation run while SEQ is not Idle: the port accepts nothing then, and the model has no move
  for a second operation (R29, R279, U12; log entry 11).  No `step` raises it.  Safe: nothing can be proved of what such a
  host would see. -/
  | portBusy
  deriving DecidableEq, Repr

/-- Why the machine gives an input no meaning.  All are safe: the model stops where the spec says it refuses. -/
inductive Refusal where
  /-- An instruction whose meaning is not written; none is left. -/
  | notModelled (mnemonic : String)
  /-- Raised by `step` on a presented operation the decoder rejects (U10; log entry 6). -/
  | undecodable (r : Reject)
  /-- Raised by `step` when the configuration is none the engine can have: two roles share a pin number, or the polling
  interval is 0 (R7, R17, D31; log entry 15). -/
  | badConfiguration
  /-- Raised by WAIT_FOR_READY on a role other than BUSY, or on a pin not open as input (R110, R81, U11, D32; log entry 16). -/
  | waitOnPin (r : Role)
  /-- Raised by FLUSH and CMD_IMAGE_TRANSFER on a packed image of another length than 134400 (R156, U7, D11; log entry 17). -/
  | imageLength (n : Nat)
  deriving DecidableEq, Repr

/-- Reset of the block with given construction arguments (R31, R270). -/
def State.construct (c : Cfg) : State where
  fb := []
  init := false
  cfg := c
  pinState := { cs := .closed, dc := .closed, rst := .closed, busy := .closed }
  pinLevel := { cs := .undriven, dc := .undriven, rst := .undriven }
  seq := []
  bw := none
  trace := []
  port := []
  result := none
  busy := []
  samples := 0

/-- The construction arguments at reset, which the spec leaves to the host.  DESIGN CHOICE (log entry 5): no flips, pin
numbers 0 to 3; the polling interval is a free positive number (log entry 3); `REINIT_REDRIVES` = 0 is the spec's (R7). -/
def cfgAtReset : Cfg where
  hflip := false
  vflip := false
  pinCs := 0
  pinDc := 1
  pinRst := 2
  pinBusy := 3
  pollIntervalMs := Config.pollLessOne + 1
  reinitRedrives := false

/-- The machine right after reset. -/
def State.reset : State := State.construct cfgAtReset

end Sys2Proof.Machine
end

