-- ==== Sys2Proof/Machine/Ops.lean ====
section
/-! DEFINITION. The named operations over the frame buffer, the pins, the wire, the port and the busy line that the meanings
share, and taking an error (spec/00_scope.md R8; spec/10_state.md R19 to R29; spec/41_busywaiter.md; spec/42_protocol_frames.md
R130; spec/60_exceptions.md R240). -/

namespace Sys2Proof.Machine

/-! ### The cell store -/

/-- The colour a key of the store holds; Black where it is not listed (R11). -/
def Memory.get : Memory → Nat → Color
  | [], _ => .black
  | (k', c) :: m, k => if k' = k then c else Memory.get m k

/-- A pair in front of a store, or nothing where the colour is the one an unlisted key holds. -/
def Memory.cons (k : Nat) (c : Color) (m : Memory) : Memory :=
  if c = .black then m else (k, c) :: m

/-- The store with one key overwritten, its form kept. -/
def Memory.set : Memory → Nat → Color → Memory
  | [], k, c => Memory.cons k c []
  | (k', c') :: m, k, c =>
    if k < k' then Memory.cons k c ((k', c') :: m)
    else if k = k' then Memory.cons k c m
    else (k', c') :: Memory.set m k c

/-- Keys from `lo` on, strictly rising, inside the grid, and no pair Black. -/
def Memory.wfFrom : Nat → Memory → Bool
  | _, [] => true
  | lo, (k, c) :: m => decide (lo ≤ k) && decide (k < nCells) && decide (c ≠ .black) && Memory.wfFrom (k + 1) m

/-- The canonical form of the cell store (log entry 1). -/
def Memory.wf (m : Memory) : Bool := Memory.wfFrom 0 m

/-- The key of cell (x, y): the first index is x, the second y (R11). -/
def cellKey (x y : Nat) : Nat := gridH * x + y

/-- `FB[x, y]` (R8). -/
def cell (m : Memory) (x y : Nat) : Color := Memory.get m (cellKey x y)

/-! ### Pins and the wire: each primitive appends exactly one event (R8, R27) -/

/-- Appends one wire event. -/
def emit (e : Event) (s : State) : State := { s with trace := s.trace ++ [e] }

/-- `PINSTATE[r]`. -/
def PinModes.get (p : PinModes) : Role → PinMode
  | .cs => p.cs
  | .dc => p.dc
  | .rst => p.rst
  | .busy => p.busy

/-- `PINSTATE[r] <- m`. -/
def PinModes.set (p : PinModes) (r : Role) (m : PinMode) : PinModes :=
  match r with
  | .cs => { p with cs := m }
  | .dc => { p with dc := m }
  | .rst => { p with rst := m }
  | .busy => { p with busy := m }

/-- `PINLEVEL[r]`. -/
def PinDrives.get (p : PinDrives) : OutRole → Drive
  | .cs => p.cs
  | .dc => p.dc
  | .rst => p.rst

/-- `PINLEVEL[r] <- d`. -/
def PinDrives.set (p : PinDrives) (r : OutRole) (d : Drive) : PinDrives :=
  match r with
  | .cs => { p with cs := d }
  | .dc => { p with dc := d }
  | .rst => { p with rst := d }

/-- The level of a role becomes `Undriven`; BUSY has none (R20). -/
def PinDrives.release (p : PinDrives) : Role → PinDrives
  | .cs => p.set .cs .undriven
  | .dc => p.set .dc .undriven
  | .rst => p.set .rst .undriven
  | .busy => p

/-- The pin state a direction opens a pin in (R19). -/
def openMode : Dir → PinMode
  | .output => .openOut
  | .input => .openIn

/-- `PinOpen(r, dir)`.  Nothing has been written since, so the level is `Undriven` (R20; log entry 22). -/
def pinOpen (r : Role) (d : Dir) (s : State) : State :=
  { s with
    trace := s.trace ++ [.pinOpen r d]
    pinState := s.pinState.set r (openMode d)
    pinLevel := s.pinLevel.release r }

/-- `PinClose(r)`: the pin is `Closed` and its level `Undriven` (R20, R127). -/
def pinClose (r : Role) (s : State) : State :=
  { s with
    trace := s.trace ++ [.pinClose r]
    pinState := s.pinState.set r .closed
    pinLevel := s.pinLevel.release r }

/-- `PinWrite(r, level)`, which appends its event whatever the level was (R20, R51). -/
def pinWrite (r : OutRole) (l : Level) (s : State) : State :=
  { s with
    trace := s.trace ++ [.pinWrite r l]
    pinLevel := s.pinLevel.set r (.driven l) }

/-- `SpiWrite(bytes)`: the whole sequence in one call (R50). -/
def spiWrite (bytes : List Byte) (s : State) : State := emit (.spiWrite bytes) s

/-! ### Running inside an operation: going on, or raising (R8, R240) -/

/-- How a rule run inside an operation ends: it returns, or it raises an error.  Either way what it did stays done (R239). -/
inductive Flow where
  | ok (s : State)
  | raise (e : Err) (s : State)
  deriving DecidableEq, Repr

/-- `call` and go on: an error raised inside ends the caller, without its later steps (R240). -/
def Flow.andThen (f : Flow) (k : State → Flow) : Flow :=
  match f with
  | .ok s => k s
  | .raise e s => .raise e s

/-- TAKING AN ERROR, `raise Kind(info)` reaching the port (R240): SEQ becomes Idle, the busy waiter's values cease to exist,
the result is `Err(kind, info)`.  Nothing is saved: there is no handler, no saved position, and nothing to return from (R242). -/
def takeError (e : Err) (s : State) : State :=
  { s with seq := [], bw := none, result := some (.err e) }

/-- An operation's normal end: SEQ is Idle and the result is `Ok(v)` (R24, R29). -/
def finish (v : Value) (s : State) : State :=
  { s with seq := [], result := some (.ok v) }

/-- The state in which a host operation that ran as `f` and returns `v` has ended. -/
def ended (v : Value) (f : Flow) : State :=
  match f with
  | .ok s => finish v s
  | .raise e s => takeError e s

/-- The state after a wire command that ran as `f` inside an operation: the operation goes on, or its error is taken. -/
def carriedOn (f : Flow) : State :=
  match f with
  | .ok s => s
  | .raise e s => takeError e s

/-- The outcome of a host operation that ran as `f` and returns `v`: whether it succeeded or failed, the machine goes on (R29). -/
def conclude (v : Value) (f : Flow) : Host.Outcome State Fault Refusal := .next (ended v f)

/-- The outcome of a wire command that ran as `f`. -/
def proceed (f : Flow) : Host.Outcome State Fault Refusal := .next (carriedOn f)

/-- The port accepts a host operation only while SEQ is Idle (R29, U12). -/
def onPort (s : State) (k : State → Host.Outcome State Fault Refusal) : Host.Outcome State Fault Refusal :=
  match s.seq with
  | [] => k s
  | _ :: _ => .fault .portBusy

/-! ### Frames (R130) -/

/-- The four wire events of a frame, in order (R71, R72, R130). -/
def frameEvents (dc : Level) (bytes : List Byte) (s : State) : State :=
  pinWrite .cs .high (spiWrite bytes (pinWrite .dc dc (pinWrite .cs .low s)))

/-- `FRAME(dc, bytes)` (R130): the empty check, the state gate, then the four events. -/
def frame (dc : Level) (bytes : List Byte) (s : State) : Flow :=
  if bytes = [] then .raise .protocolArgument s
  else if s.init = false then .raise .protocolState s
  else .ok (frameEvents dc bytes s)

/-- `REGW(c, p)` (R73): the command frame of one opcode byte, then the data frame of the payload. -/
def regWrite (c : Byte) (p : List Byte) (s : State) : Flow :=
  (frame .low [c] s).andThen (frame .high p)

/-! ### The busy wait (R110 to R118) -/

/-- What the outside gives the next sample: the head of `busy`, or free values where it lists none (log entry 2). -/
def nextSample (s : State) : Sample :=
  match s.busy with
  | x :: _ => x
  | [] => { level := Config.freeBusy s.samples, lateMs := Config.freeLateMs s.samples }

/-- `PinRead(BUSY)`: one event, one input consumed (R27, R51). -/
def readBusy (s : State) : State :=
  { s with
    trace := s.trace ++ [.pinRead .busy (nextSample s).level]
    busy := s.busy.tail
    samples := s.samples + 1 }

/-- `BW.N <- 0 ; BW.ELAPSED_MS <- 0` (R110). -/
def beginWait (s : State) : State := { s with bw := some { n := 0, elapsedMs := 0 } }

/-- The wait ends and its values with it (R26). -/
def endWait (s : State) : State := { s with bw := none }

/-- The elapsed time of the wait in progress; 0 where none is. -/
def elapsed (s : State) : Nat :=
  match s.bw with
  | some b => b.elapsedMs
  | none => 0

/-- The samples taken in the wait in progress; 0 where none is. -/
def samplesTaken (s : State) : Nat :=
  match s.bw with
  | some b => b.n
  | none => 0

/-- How one turn of the polling loop ends. -/
inductive Turn where
  /-- the sample read 1: success -/
  | ready (s : State)
  /-- it read 0 at or after the deadline -/
  | timedOut (s : State)
  /-- it read 0 before the deadline: the engine has slept, and samples again -/
  | again (s : State)
  deriving DecidableEq, Repr

/-- The state after a sample that read 0 before the deadline: the engine sleeps, and `d = POLL_INTERVAL_MS + late` has
passed when it goes on (R110, R112). -/
def sleepTurn (s : State) : State :=
  let t := readBusy s
  { t with
    trace := t.trace ++ [.sleep s.cfg.pollIntervalMs]
    bw := some { n := samplesTaken s + 1, elapsedMs := elapsed s + (s.cfg.pollIntervalMs + (nextSample s).lateMs) } }

/-- One turn of the polling loop with timeout `T`: sample; ready test; elapsed test; sleep (R110, R113). -/
def waitTurn (T : Nat) (s : State) : Turn :=
  if (nextSample s).level = .high then .ready (endWait (readBusy s))
  else if T ≤ elapsed s then .timedOut (endWait (readBusy s))
  else .again (sleepTurn s)

/-- The polling loop, at most `fuel` further turns after this one.  With a positive interval the turn with no fuel left is
at or after the deadline, so that the bound never cuts a wait short (log entry 19). -/
def waitLoop (T : Nat) : Nat → State → Flow
  | 0, s =>
    match waitTurn T s with
    | .ready t => .ok t
    | .timedOut t => .raise (.timeout T) t
    | .again t => .raise (.timeout T) (endWait t)
  | fuel + 1, s =>
    match waitTurn T s with
    | .ready t => .ok t
    | .timedOut t => .raise (.timeout T) t
    | .again t => waitLoop T fuel t

/-- `call WAIT_FOR_READY(BUSY, T)` (R110). -/
def waitReady (T : Nat) (s : State) : Flow := waitLoop T T (beginWait s)

end Sys2Proof.Machine
end

