-- ==== Sys2Proof/Machine/Operands.lean ====
section
/-! DEFINITION. The operand forms of the host operations and the arithmetic on them (spec/30_encoding.md R74, R77, R79):
signed coordinates and their range checks, arrays, the orientation transform, flattening and packing. -/

namespace Sys2Proof

/-! ### Arrays -/

/-- The array of shape `n0 x n1` whose element at `[i, j]` is `f i j`. -/
def Grid.build {α : Type} (n0 n1 : Nat) (f : Nat → Nat → α) : Grid α :=
  { cols := n1, rows := (List.range n0).map fun i => (List.range n1).map fun j => f i j }

/-- `A[i, j]`, where the array has such an element. -/
def Grid.at? {α : Type} (g : Grid α) (i j : Nat) : Option α :=
  match g.rows[i]? with
  | some r => r[j]?
  | none => none

/-- Row-major linearisation: row 0 first, in order of the second index, then row 1, and so on (R220). -/
def Grid.flat {α : Type} (g : Grid α) : List α := g.rows.flatten

/-- The element order reversed within each row (R221). -/
def Grid.mirrorCols {α : Type} (g : Grid α) : Grid α := { g with rows := g.rows.map List.reverse }

/-- The row order reversed (R222). -/
def Grid.mirrorRows {α : Type} (g : Grid α) : Grid α := { g with rows := g.rows.reverse }

/-! ### Handlers -/

/-- The result of handler `k` (R103). -/
def Handlers.result (h : Handlers) : Color → Nat
  | .black => h.h0
  | .white => h.h1
  | .green => h.h2
  | .blue => h.h3
  | .red => h.h4
  | .yellow => h.h5
  | .orange => h.h6
  | .clean => h.h7

end Sys2Proof

namespace Sys2Proof.Machine

/-! ### Coordinates -/

/-- The signed coordinate lies in `[0, bound)` (R47, R190). -/
def inRange (v : Coord) (bound : Nat) : Bool := decide (0 ≤ v.toInt) && decide (v.toInt < bound)

/-- The range checks of SET_PIXEL, x before y: the first that fails gives the error (R190, R191). -/
def boundsError (x y : Coord) : Option Err :=
  if inRange x gridW = false then some (.bounds .x x.toInt)
  else if inRange y gridH = false then some (.bounds .y y.toInt)
  else none

/-! ### The orientation transform (R52, R196) -/

/-- The four fixed transforms of a logical grid of shape `w x h` with elements `f`, chosen by the two flags (R196). -/
def orient {α : Type} (w h : Nat) (hflip vflip : Bool) (f : Nat → Nat → α) : Grid α :=
  match hflip, vflip with
  | false, false => Grid.build w h fun i j => f i j
  | true, false => Grid.build h w fun r c => f c (h - 1 - r)
  | false, true => Grid.build h w fun r c => f (w - 1 - c) r
  | true, true => Grid.build w h fun i j => f (w - 1 - i) (h - 1 - j)

/-- `TRANSFORM(FB, CFG.HFLIP, CFG.VFLIP)` (R196). -/
def transform (c : Cfg) (m : Memory) : Grid Color := orient gridW gridH c.hflip c.vflip (cell m)

/-! ### Packing (R43, R74, R199) -/

/-- The packed pixel byte of two consecutive cells: the first in the high nibble (R74). -/
def pixByte (a b : Color) : Byte := (a.toByte <<< 4) ||| b.toByte

/-- `PACK(F)`: two cells per byte (R199).  A last cell without a partner, which the fixed grid cannot give, packs to nothing
(R48, U9; log entry 14). -/
def pack : List Color → List Byte
  | a :: b :: r => pixByte a b :: pack r
  | _ => []

/-- The packed image of the frame buffer (R200, R201). -/
def renderImage (c : Cfg) (m : Memory) : List Byte := pack (transform c m).flat

end Sys2Proof.Machine
end

