-- ==== Sys2Proof/Machine/Array2DOps.lean ====
section
/-! DEFINITION. Array2DOps: FLATTEN, MIRROR_COLUMNS, MIRROR_ROWS and ROTATE (spec/45_array2dops.md R220 to R225).  Pure
functions of their operands: none reads or writes FB, INIT, a pin or TRACE. -/

namespace Sys2Proof.Machine

/-- FLATTEN (R220). -/
def execFlatten (g : Grid Nat) (s : State) : Host.Outcome State Fault Refusal :=
  onPort s fun s => .next (finish (.elements g.flat) s)

/-- MIRROR_COLUMNS (R221). -/
def execMirrorColumns (g : Grid Nat) (s : State) : Host.Outcome State Fault Refusal :=
  onPort s fun s => .next (finish (.array g.mirrorCols) s)

/-- MIRROR_ROWS (R222). -/
def execMirrorRows (g : Grid Nat) (s : State) : Host.Outcome State Fault Refusal :=
  onPort s fun s => .next (finish (.array g.mirrorRows) s)

/-- ROTATE (R224): NotSupportedError on every call, its operands not examined. -/
def execRotate (_angleCode : Nat) (_grid : Grid Nat) (s : State) : Host.Outcome State Fault Refusal :=
  onPort s fun s => .next (takeError .notSupported s)

end Sys2Proof.Machine
end

