-- ==== Sys2Proof/Machine/BusyWaiter.lean ====
section
/-! DEFINITION. WAIT_FOR_READY, the busy-line handshake on its own (spec/41_busywaiter.md R110 to R118). -/

namespace Sys2Proof.Machine

/-- WAIT_FOR_READY (R110) on the pin of role `r` with timeout `T`.  A role other than BUSY, or a pin that is not open as
input, is outside the source and refused (U11, D32; log entry 16). -/
def execWaitForReady (r : Role) (T : Nat) (s : State) : Host.Outcome State Fault Refusal :=
  onPort s fun s =>
    if r = .busy ∧ s.pinState.get r = .openIn then conclude .none (waitReady T s)
    else .refused (.waitOnPin r)

end Sys2Proof.Machine
end

