-- ==== Sys2Proof/Machine/DisplayColor.lean ====
section
/-! DEFINITION. The DisplayColor operations FROM_BYTE, TO_BYTE and DISPATCH (spec/40_displaycolor.md R100 to R104).  None
touches a pin, the SPI device, FB, INIT or TRACE, and none depends on INIT. -/

namespace Sys2Proof.Machine

/-- FROM_BYTE (R101): the variant whose wire byte is `b`, or EncodingError reporting `b`. -/
def execFromByte (b : Byte) (s : State) : Host.Outcome State Fault Refusal :=
  onPort s fun s =>
    match Color.ofByte b with
    | some c => .next (finish (.color c) s)
    | none => .next (takeError (.encoding b) s)

/-- TO_BYTE (R102): the colour's byte; it cannot fail. -/
def execToByte (c : Color) (s : State) : Host.Outcome State Fault Refusal :=
  onPort s fun s => .next (finish (.byte c.toByte) s)

/-- DISPATCH (R103): exactly the handler of the colour's code runs, and its result is returned. -/
def execDispatch (c : Color) (h : Handlers) (s : State) : Host.Outcome State Fault Refusal :=
  onPort s fun s => .next (finish (.handled c.code.toNat (h.result c)) s)

end Sys2Proof.Machine
end

