-- ==== Sys2Proof/Machine/Flags.lean ====
section
/-! DEFINITION. Flags.  The engine has one flag, INIT, and no condition codes: no operation computes a flag from a result
(spec/10_state.md R14, R15).  Here are the write of INIT, its gate, and the check of a configuration. -/

namespace Sys2Proof

/-- The configurations the engine can have: the four pin numbers pairwise distinct (R17), the polling interval greater
than 0 (R7). -/
def Cfg.legal (c : Cfg) : Bool :=
  decide (0 < c.pollIntervalMs) &&
  decide (c.pinCs ≠ c.pinDc) && decide (c.pinCs ≠ c.pinRst) && decide (c.pinCs ≠ c.pinBusy) &&
  decide (c.pinDc ≠ c.pinRst) && decide (c.pinDc ≠ c.pinBusy) && decide (c.pinRst ≠ c.pinBusy)

end Sys2Proof

namespace Sys2Proof.Machine

/-- `INIT <- 1`, written by a successful INITIALIZE only (R14, R125). -/
def setInit (s : State) : State := { s with init := true }

/-- The state gate at the head of RESET_DISPLAY (R133, R150). -/
def requireInit (s : State) : Flow :=
  if s.init = false then .raise .protocolState s else .ok s

end Sys2Proof.Machine
end

