-- ==== Sys2Proof/Machine/ProtocolFrames.lean ====
section
/-! DEFINITION. PanelProtocolDriver, bring-up and framing: INITIALIZE, WRITE_COMMAND and WRITE_DATA
(spec/42_protocol_frames.md R125 to R137). -/

namespace Sys2Proof.Machine

/-- `T_INIT_MS`, the busy timeout of INITIALIZE (R7, R125). -/
def tInitMs : Nat := 40000

/-- Init steps 0 to 3: the four opens, in order (R125, R128). -/
def openPins (s : State) : State :=
  pinOpen .busy .input (pinOpen .rst .output (pinOpen .dc .output (pinOpen .cs .output s)))

/-- Init steps 4 to 6: CS high, DC low, RST high, in order (R125, R128). -/
def drivePins (s : State) : State :=
  pinWrite .rst .high (pinWrite .dc .low (pinWrite .cs .high s))

/-- The failure path of INITIALIZE: every pin it opened is closed, in the order they were opened (R127). -/
def closePins (s : State) : State :=
  pinClose .busy (pinClose .rst (pinClose .dc (pinClose .cs s)))

/-- INITIALIZE with INIT = 0 (R125, R127). -/
def bringUp (s : State) : Flow :=
  match waitReady tInitMs (drivePins (openPins s)) with
  | .ok t => .ok (setInit t)
  | .raise e t => .raise e (closePins t)

/-- The recorded alternative for INITIALIZE with INIT = 1, `REINIT_REDRIVES` = 1: the opens are skipped, the writes and the
wait repeated (R126).  This call opened no pin, so that its failure closes none (R14, R19, R127; log entry 13). -/
def redrive (s : State) : Flow := waitReady tInitMs (drivePins s)

/-- `call INITIALIZE()` (R125, R126): a no-operation when INIT = 1, unless `REINIT_REDRIVES` = 1. -/
def initialise (s : State) : Flow :=
  if s.init then (if s.cfg.reinitRedrives then redrive s else .ok s) else bringUp s

/-- INITIALIZE (R125 to R128). -/
def execInitializeDriver (s : State) : Host.Outcome State Fault Refusal :=
  onPort s fun s => conclude .none (initialise s)

/-- WRITE_COMMAND (R131): `FRAME(0, bytes)`. -/
def execWriteCommand (bytes : List Byte) (s : State) : Host.Outcome State Fault Refusal :=
  onPort s fun s => conclude .none (frame .low bytes s)

/-- WRITE_DATA (R132): `FRAME(1, bytes)`. -/
def execWriteData (bytes : List Byte) (s : State) : Host.Outcome State Fault Refusal :=
  onPort s fun s => conclude .none (frame .high bytes s)

end Sys2Proof.Machine
end

