-- ==== Sys2Proof/Machine/ProtocolSequences.lean ====
section
/-! DEFINITION. PanelProtocolDriver, the fixed sequences: RESET_DISPLAY, SET_RESOLUTION and FLUSH
(spec/43_protocol_sequences.md R150 to R159).  The literals are kept as they stand (R172). -/

namespace Sys2Proof.Machine

/-- `T_PON1_MS`, `T_REFRESH_MS` and `T_PON2_MS`, the busy timeouts after the three 0x04 commands (R7, R155). -/
def tPon1Ms : Nat := 210
/-- See `tPon1Ms`. -/
def tRefreshMs : Nat := 32000
/-- See `tPon1Ms`. -/
def tPon2Ms : Nat := 200

/-- `REGSEQ`, the register sequence: command byte and data payload of steps 1 to 10 (R151). -/
def regSeqRows : List (Byte × List Byte) :=
  [(0x03, [0x00]),
   (0x00, [0xEF, 0x08]),
   (0x01, [0x37, 0x00, 0x23, 0x23]),
   (0x30, [0x1C]),
   (0x41, [0x00]),
   (0x50, [0x37]),
   (0x60, [0x22]),
   (0x65, [0x00]),
   (0xE3, [0xAA]),
   (0x03, [0x00])]

/-- The resolution write, apart from the register sequence (R153, R154). -/
def resolutionRow : Byte × List Byte := (0x61, [0x01, 0xF4, 0x01, 0xC0])

/-- The opcode of the image transfer (R155, R164). -/
def imageOpcode : Byte := 0x10

/-- The opcode the source gives for all three of power-on, refresh and power-on (R158, R163). -/
def powerOpcode : Byte := 0x04

/-- The register writes of a list of rows, in order. -/
def sendRows : List (Byte × List Byte) → State → Flow
  | [], s => .ok s
  | (c, p) :: rows, s => (regWrite c p s).andThen (sendRows rows)

/-- `call RESET_DISPLAY()` (R150): the state gate, then the ten register writes. -/
def registerSequence (s : State) : Flow := (requireInit s).andThen (sendRows regSeqRows)

/-- RESET_DISPLAY (R150). -/
def execResetDisplay (s : State) : Host.Outcome State Fault Refusal :=
  onPort s fun s => conclude .none (registerSequence s)

/-- SET_RESOLUTION (R153). -/
def execSetResolution (s : State) : Host.Outcome State Fault Refusal :=
  onPort s fun s => conclude .none (regWrite resolutionRow.1 resolutionRow.2 s)

/-- Paint step 1: the image transfer, the whole image in one data frame (R155, R164). -/
def imageTransfer (pk : List Byte) (s : State) : Flow := regWrite imageOpcode pk s

/-- Paint steps 2 to 4: the command 0x04, no data frame, then a busy wait (R155, R163). -/
def powerStep (T : Nat) (s : State) : Flow := (frame .low [powerOpcode] s).andThen (waitReady T)

/-- `call FLUSH(pk)`, the paint cycle (R155). -/
def paintCycle (pk : List Byte) (s : State) : Flow :=
  (((((initialise s).andThen registerSequence).andThen (imageTransfer pk)).andThen
    (powerStep tPon1Ms)).andThen (powerStep tRefreshMs)).andThen (powerStep tPon2Ms)

/-- FLUSH (R155).  An operand of another length than 134400 is outside the contract and refused (R156, D11; log entry 17);
the bytes themselves are not inspected (R81, U8). -/
def execFlush (pk : List Byte) (s : State) : Host.Outcome State Fault Refusal :=
  onPort s fun s =>
    if isImage pk then conclude .none (paintCycle pk s) else .refused (.imageLength pk.length)

end Sys2Proof.Machine
end

