-- ==== Sys2Proof/Machine/FrameBuffer.lean ====
section
/-! DEFINITION. FrameBuffer: SET_PIXEL, GET_PIXELS and RENDER (spec/44_framebuffer.md R190 to R203). -/

namespace Sys2Proof.Machine

/-- `FB[x, y] <- c` for a cell of the grid (R8, R190). -/
def writeCell (x y : Coord) (c : Color) (s : State) : State :=
  { s with fb := Memory.set s.fb (cellKey x.toNat y.toNat) c }

/-- SET_PIXEL (R190, R191): the range checks, x first, then the one cell. -/
def execSetPixel (x y : Coord) (c : Color) (s : State) : Host.Outcome State Fault Refusal :=
  onPort s fun s =>
    match boundsError x y with
    | some e => .next (takeError e s)
    | none => .next (finish .none (writeCell x y c s))

/-- GET_PIXELS (R192): the grid, as a value of its own. -/
def execGetPixels (s : State) : Host.Outcome State Fault Refusal :=
  onPort s fun s => .next (finish (.pixels s.fb) s)

/-- RENDER (R200): transform, flatten, pack, FLUSH; the packed bytes are returned on success. -/
def execRender (s : State) : Host.Outcome State Fault Refusal :=
  onPort s fun s =>
    conclude (.packed (renderImage s.cfg s.fb)) (paintCycle (renderImage s.cfg s.fb) s)

end Sys2Proof.Machine
end

