-- ==== Sys2Proof/Machine/WireCommands.lean ====
section
/-! DEFINITION. The twelve wire commands as the fixed sequences send them (spec/43_protocol_sequences.md R160 to R172): for
each, the frames it is sent in.  They run inside an operation, at a position of the sequencer, and give no result of their
own.  Their effect in the controller is outside the block (spec/00_scope.md R6).  With INIT = 0 the first frame raises
ProtocolStateError, as every frame does (R130, R133; log entry 21). -/

namespace Sys2Proof.Machine

/-- CMD_PANEL_SETTING (R160). -/
def execCmdPanelSetting (s : State) : Host.Outcome State Fault Refusal :=
  proceed (regWrite 0x00 [0xEF, 0x08] s)

/-- CMD_POWER_SETTING (R161). -/
def execCmdPowerSetting (s : State) : Host.Outcome State Fault Refusal :=
  proceed (regWrite 0x01 [0x37, 0x00, 0x23, 0x23] s)

/-- CMD_POWER_OFF_SEQ (R162). -/
def execCmdPowerOffSeq (s : State) : Host.Outcome State Fault Refusal :=
  proceed (regWrite 0x03 [0x00] s)

/-- CMD_POWER_ON (R163): one command frame and no data frame.  The busy wait that follows it belongs to the paint cycle
(R155; log entry 20). -/
def execCmdPowerOn (s : State) : Host.Outcome State Fault Refusal :=
  proceed (frame .low [0x04] s)

/-- CMD_IMAGE_TRANSFER (R164): its payload is the 134400 packed bytes; another length is refused as FLUSH refuses it
(R156; log entry 17). -/
def execCmdImageTransfer (pk : List Byte) (s : State) : Host.Outcome State Fault Refusal :=
  if isImage pk then proceed (regWrite 0x10 pk s) else .refused (.imageLength pk.length)

/-- CMD_PLL (R165). -/
def execCmdPll (s : State) : Host.Outcome State Fault Refusal :=
  proceed (regWrite 0x30 [0x1C] s)

/-- CMD_TSE (R166). -/
def execCmdTse (s : State) : Host.Outcome State Fault Refusal :=
  proceed (regWrite 0x41 [0x00] s)

/-- CMD_VCOM_DATA_INTERVAL (R167). -/
def execCmdVcomDataInterval (s : State) : Host.Outcome State Fault Refusal :=
  proceed (regWrite 0x50 [0x37] s)

/-- CMD_NON_OVERLAP (R168). -/
def execCmdNonOverlap (s : State) : Host.Outcome State Fault Refusal :=
  proceed (regWrite 0x60 [0x22] s)

/-- CMD_RESOLUTION (R169). -/
def execCmdResolution (s : State) : Host.Outcome State Fault Refusal :=
  proceed (regWrite 0x61 [0x01, 0xF4, 0x01, 0xC0] s)

/-- CMD_FLASH_DISABLE (R170). -/
def execCmdFlashDisable (s : State) : Host.Outcome State Fault Refusal :=
  proceed (regWrite 0x65 [0x00] s)

/-- CMD_SEVEN_COLOUR (R171). -/
def execCmdSevenColour (s : State) : Host.Outcome State Fault Refusal :=
  proceed (regWrite 0xE3 [0xAA] s)

end Sys2Proof.Machine
end

