-- ==== Sys2Proof/Machine/Dispatch.lean ====
section
/-! DEFINITION. One arm per instruction: the meaning of each constructor of Instr (spec/30_encoding.md R76, R80). -/

namespace Sys2Proof.Machine

def exec (i : Instr) (s : State) : Host.Outcome State Fault Refusal :=
  match i with
  | .initializeDriver => Sys2Proof.Machine.execInitializeDriver s
  | .writeCommand bytes => Sys2Proof.Machine.execWriteCommand bytes s
  | .writeData bytes => Sys2Proof.Machine.execWriteData bytes s
  | .resetDisplay => Sys2Proof.Machine.execResetDisplay s
  | .setResolution => Sys2Proof.Machine.execSetResolution s
  | .flush pk => Sys2Proof.Machine.execFlush pk s
  | .waitForReady r t => Sys2Proof.Machine.execWaitForReady r t s
  | .setPixel x y c => Sys2Proof.Machine.execSetPixel x y c s
  | .getPixels => Sys2Proof.Machine.execGetPixels s
  | .render => Sys2Proof.Machine.execRender s
  | .fromByte b => Sys2Proof.Machine.execFromByte b s
  | .toByte c => Sys2Proof.Machine.execToByte c s
  | .dispatch c h => Sys2Proof.Machine.execDispatch c h s
  | .flatten g => Sys2Proof.Machine.execFlatten g s
  | .mirrorColumns g => Sys2Proof.Machine.execMirrorColumns g s
  | .mirrorRows g => Sys2Proof.Machine.execMirrorRows g s
  | .rotate a g => Sys2Proof.Machine.execRotate a g s
  | .cmdPanelSetting => Sys2Proof.Machine.execCmdPanelSetting s
  | .cmdPowerSetting => Sys2Proof.Machine.execCmdPowerSetting s
  | .cmdPowerOffSeq => Sys2Proof.Machine.execCmdPowerOffSeq s
  | .cmdPowerOn => Sys2Proof.Machine.execCmdPowerOn s
  | .cmdImageTransfer pk => Sys2Proof.Machine.execCmdImageTransfer pk s
  | .cmdPll => Sys2Proof.Machine.execCmdPll s
  | .cmdTse => Sys2Proof.Machine.execCmdTse s
  | .cmdVcomDataInterval => Sys2Proof.Machine.execCmdVcomDataInterval s
  | .cmdNonOverlap => Sys2Proof.Machine.execCmdNonOverlap s
  | .cmdResolution => Sys2Proof.Machine.execCmdResolution s
  | .cmdFlashDisable => Sys2Proof.Machine.execCmdFlashDisable s
  | .cmdSevenColour => Sys2Proof.Machine.execCmdSevenColour s

end Sys2Proof.Machine
end

