-- ==== Sys2Proof/Machine/Sequencer.lean ====
section
/-! DEFINITION. SEQ, the sequencer, event by event (spec/10_state.md R24): the position as a stack of (phase, step) pairs,
one `tick` for one move of it, and the wire command that stands at a position.  The meanings of the host operations run
their rule to its end as function calls; the spec allows both readings (R24, D23; log entry 8). -/

namespace Sys2Proof.Machine

/-- The sequence INITIALIZE runs when it is called: nothing when INIT = 1, the bring-up otherwise (R125, R126). -/
def initPositions (s : State) : List Pos :=
  if s.init then (if s.cfg.reinitRedrives then [.init .writeCs 0] else []) else [.init .openCs 0]

/-- A position is left: the outer position is resumed; when none is left the operation ends with `Ok(v)` (R24, R29). -/
def leave (v : Value) (rest : List Pos) (s : State) : State :=
  match rest with
  | [] => finish v s
  | _ :: _ => { s with seq := rest }

/-- SEQ goes on to these positions. -/
def goto (q : List Pos) (s : State) : State := { s with seq := q }

/-- Whether a position belongs to INITIALIZE. -/
def Pos.isInit : Pos → Bool
  | .init _ _ => true
  | _ => false

/-- An error raised at a position whose outer positions are `rest`: an INITIALIZE among them that brings the pins up closes
them first (R127), then the error is taken (R240). -/
def raiseAt (e : Err) (rest : List Pos) (s : State) : State :=
  takeError e (if rest.any Pos.isInit && !s.init then closePins s else s)

/-- The row of the register sequence at index `k` (R151). -/
def regSeqRow (k : Fin 10) : Byte × List Byte := regSeqRows.getD k.val (0x03, [0x00])

/-- After the register write at index `k`: the next one, or the sequence is over (R24: steps 1 to 10). -/
def nextReg (k : Fin 10) : List Pos :=
  if h : k.val + 1 < 10 then [.regSeq ⟨k.val + 1, h⟩ 0] else []

/-- The timeout of the busy wait at a paint step (R155). -/
def paintTimeout : PaintStep → Nat
  | .power2 => tRefreshMs
  | .power3 => tPon2Ms
  | _ => tPon1Ms

/-- The paint step after a step (R155). -/
def nextPaint : PaintStep → Option PaintStep
  | .registers => some .image
  | .image => some .power1
  | .power1 => some .power2
  | .power2 => some .power3
  | .power3 => none

/-- A move inside phase `Init` (R125): one pin event a step, then the busy wait, then `INIT <- 1`. -/
def tickInit (step : InitStep) (calls : Nat) (rest : List Pos) (s : State) : State :=
  match step with
  | .openCs => goto (.init .openDc 0 :: rest) (pinOpen .cs .output s)
  | .openDc => goto (.init .openRst 0 :: rest) (pinOpen .dc .output s)
  | .openRst => goto (.init .openBusy 0 :: rest) (pinOpen .rst .output s)
  | .openBusy => goto (.init .writeCs 0 :: rest) (pinOpen .busy .input s)
  | .writeCs => goto (.init .writeDc 0 :: rest) (pinWrite .cs .high s)
  | .writeDc => goto (.init .writeRst 0 :: rest) (pinWrite .dc .low s)
  | .writeRst => goto (.init .busyWait 0 :: rest) (pinWrite .rst .high s)
  | .busyWait =>
    match calls with
    | 0 => goto (.wait tInitMs :: .init .busyWait 1 :: rest) s
    | _ + 1 => leave .none rest (setInit s)

/-- A move inside phase `Frame` (R130): the checks and CS low, DC, the SPI write, CS high. -/
def tickFrame (step : FrameStep) (dc : Level) (bytes : List Byte) (rest : List Pos) (s : State) : State :=
  match step with
  | .assertCs =>
    if bytes = [] then raiseAt .protocolArgument rest s
    else if s.init = false then raiseAt .protocolState rest s
    else goto (.frame .setDc dc bytes :: rest) (pinWrite .cs .low s)
  | .setDc => goto (.frame .spi dc bytes :: rest) (pinWrite .dc dc s)
  | .spi => goto (.frame .deassertCs dc bytes :: rest) (spiWrite bytes s)
  | .deassertCs => leave .none rest (pinWrite .cs .high s)

/-- A move of the busy wait (R110): its values begin at 0, then one turn of the loop a move. -/
def tickWait (T : Nat) (rest : List Pos) (s : State) : State :=
  match s.bw with
  | none => beginWait s
  | some _ =>
    match waitTurn T s with
    | .ready t => leave .none rest t
    | .timedOut t => raiseAt (.timeout T) rest t
    | .again t => t

/-- A move inside phase `Paint` (R155). -/
def tickPaint (step : PaintStep) (calls : Nat) (pk : List Byte) (rest : List Pos) (s : State) : State :=
  match step, calls with
  | .registers, 0 => goto (.regSeq 0 0 :: .paint .registers 1 pk :: rest) s
  | .image, 0 => goto (.frame .assertCs .low [imageOpcode] :: .paint .image 1 pk :: rest) s
  | .image, 1 => goto (.frame .assertCs .high pk :: .paint .image 2 pk :: rest) s
  | .power1, 0 => goto (.frame .assertCs .low [powerOpcode] :: .paint .power1 1 pk :: rest) s
  | .power1, 1 => goto (.wait (paintTimeout .power1) :: .paint .power1 2 pk :: rest) s
  | .power2, 0 => goto (.frame .assertCs .low [powerOpcode] :: .paint .power2 1 pk :: rest) s
  | .power2, 1 => goto (.wait (paintTimeout .power2) :: .paint .power2 2 pk :: rest) s
  | .power3, 0 => goto (.frame .assertCs .low [powerOpcode] :: .paint .power3 1 pk :: rest) s
  | .power3, 1 => goto (.wait (paintTimeout .power3) :: .paint .power3 2 pk :: rest) s
  | p, _ =>
    match nextPaint p with
    | some q => goto (.paint q 0 pk :: rest) s
    | none => leave .none rest s

/-- One move of the sequencer at position `p` with outer positions `rest` (R24). -/
def tickAt (p : Pos) (rest : List Pos) (s : State) : State :=
  match p with
  | .init step calls => tickInit step calls rest s
  | .frame step dc bytes => tickFrame step dc bytes rest s
  | .regSeq k 0 => goto (.frame .assertCs .low [(regSeqRow k).1] :: .regSeq k 1 :: rest) s
  | .regSeq k 1 => goto (.frame .assertCs .high (regSeqRow k).2 :: .regSeq k 2 :: rest) s
  | .regSeq k _ => leave .none (nextReg k ++ rest) s
  | .res 0 => goto (.frame .assertCs .low [resolutionRow.1] :: .res 1 :: rest) s
  | .res 1 => goto (.frame .assertCs .high resolutionRow.2 :: .res 2 :: rest) s
  | .res _ => leave .none rest s
  | .paint step calls pk => tickPaint step calls pk rest s
  | .wait T => tickWait T rest s
  | .renderTransform => goto (.renderPack (transform s.cfg s.fb) :: rest) s
  | .renderPack tg => goto (.renderFlush 0 (pack tg.flat) :: rest) s
  | .renderFlush 0 pk => goto (initPositions s ++ (.paint .registers 0 pk :: .renderFlush 1 pk :: rest)) s
  | .renderFlush _ pk => leave (.packed pk) rest s

/-- One move of the sequencer; an Idle engine does not move by itself (R24, R271). -/
def tick (s : State) : State :=
  match s.seq with
  | [] => s
  | p :: rest => tickAt p rest s

/-- `n` moves of the sequencer. -/
def ticks : Nat → State → State
  | 0, s => s
  | n + 1, s => ticks n (tick s)

/-- A host operation on the wire accepted by an Idle engine, its sequence set up and none of it run (R24, R84).  The
operations that use no sequence are none of these. -/
def startPositions (i : Instr) (s : State) : Option (List Pos) :=
  match i with
  | .initializeDriver => some (initPositions s)
  | .writeCommand bytes => some [.frame .assertCs .low bytes]
  | .writeData bytes => some [.frame .assertCs .high bytes]
  | .resetDisplay => some [.regSeq 0 0]
  | .setResolution => some [.res 0]
  | .flush pk => some (initPositions s ++ [.paint .registers 0 pk])
  | .waitForReady _ T => some [.wait T]
  | .render => some [.renderTransform]
  | _ => none

/-- The engine with the sequence set up: an operation with nothing to run has ended (R126). -/
def start (q : List Pos) (s : State) : State :=
  match q with
  | [] => finish .none s
  | _ :: _ => goto q s

/-! ### The wire command at a position -/

/-- The opcode byte, and the image it carries, at a position where a wire command is about to be sent (R80, R151, R153,
R155): SEQ is the program counter over the fixed sequences. -/
def opcodeAt : Pos → Option (Byte × List Byte)
  | .regSeq k 0 => some ((regSeqRow k).1, [])
  | .res 0 => some (resolutionRow.1, [])
  | .paint .image 0 pk => some (imageOpcode, pk)
  | .paint .power1 0 _ => some (powerOpcode, [])
  | .paint .power2 0 _ => some (powerOpcode, [])
  | .paint .power3 0 _ => some (powerOpcode, [])
  | _ => none

/-- The wire command at a position, read by the decoder. -/
def wireAt (p : Pos) : Option Instr :=
  match opcodeAt p with
  | none => none
  | some (c, pk) =>
    match decodeCommand c pk with
    | .ok i => some i
    | .error _ => none

/-- The position once the frames of its wire command have been sent. -/
def afterWire : Pos → Pos
  | .regSeq k _ => .regSeq k 2
  | .res _ => .res 2
  | .paint .image _ pk => .paint .image 2 pk
  | .paint .power1 _ pk => .paint .power1 1 pk
  | .paint .power2 _ pk => .paint .power2 1 pk
  | .paint .power3 _ pk => .paint .power3 1 pk
  | p => p

/-- The position that sends the wire command of an opcode byte with no image, where a fixed sequence has one (R151, R153). -/
def positionOf (opcode : Nat) : Option Pos :=
  match opcode with
  | 0x03 => some (.regSeq 0 0)
  | 0x00 => some (.regSeq 1 0)
  | 0x01 => some (.regSeq 2 0)
  | 0x30 => some (.regSeq 3 0)
  | 0x41 => some (.regSeq 4 0)
  | 0x50 => some (.regSeq 5 0)
  | 0x60 => some (.regSeq 6 0)
  | 0x65 => some (.regSeq 7 0)
  | 0xE3 => some (.regSeq 8 0)
  | 0x61 => some (.res 0)
  | 0x04 => some (.paint .power1 0 [])
  | _ => none

/-- What a step does around a wire command at position `p`: SEQ moves past its frames, unless an error was taken, which has
put it to Idle (R24, R240). -/
def afterCommand (p : Pos) (rest : List Pos) (o : Host.Outcome State Fault Refusal) :
    Host.Outcome State Fault Refusal :=
  match o with
  | .next t =>
    match t.seq with
    | [] => .next t
    | _ :: _ => .next { t with seq := afterWire p :: rest }
  | .fault f => .fault f
  | .refused r => .refused r

end Sys2Proof.Machine
end

