-- ==== Sys2Proof/Machine/Step.lean ====
section
/-! DEFINITION. One step of the machine, and the placing of an instruction where the step takes its next one from
(spec/10_state.md R24, R29; spec/30_encoding.md R87; log entries 7, 8 and 18). -/

namespace Sys2Proof.Machine

/-- A step of an Idle engine: the host operation presented on the port is decoded and run to its end (R29, R87).  With
nothing presented the engine waits (R271; log entry 18). -/
def stepPort (s : State) : Host.Outcome State Fault Refusal :=
  match s.port with
  | [] => .next s
  | bs :: rest =>
    match decodeOp bs with
    | .ok i => exec i { s with port := rest }
    | .error r => .refused (.undecodable r)

/-- A step of the engine.  An engine with an illegal configuration is none (R7, R17).  Idle, it takes an operation from the
port; at a position that sends a wire command it runs that command; at any other position SEQ makes one move (R24). -/
def step (s : State) : Host.Outcome State Fault Refusal :=
  if s.cfg.legal then
    match s.seq with
    | [] => stepPort s
    | p :: rest =>
      match wireAt p with
      | some i => afterCommand p rest (exec i s)
      | none => .next (tick s)
  else .refused .badConfiguration

/-- The operation a table word stands for, placed where `step` takes its next instruction from: a host operation as the one
presented on the port of an Idle engine, a wire command as the position of the fixed sequence that sends it (log entry 7).
A word that is neither is presented on the port as it stands. -/
def State.withFetchWord (s : State) (nbits w : Nat) : State :=
  match decodeHop (tableBytes nbits w) with
  | .ok (_, r) =>
    { s with seq := [], port := [(tableBytes nbits w).take ((tableBytes nbits w).length - r.length)] }
  | .error _ =>
    match positionOf w with
    | some p => { s with seq := [p] }
    | none => { s with seq := [], port := [wordBytes (nbits / 8) w] }

end Sys2Proof.Machine
end

