-- ==== Sys2Proof/Machine/Messages.lean ====
section
/-! DEFINITION. The rendering of an error record as the message of its caller, and the error codes
(spec/60_exceptions.md R230, R232; spec/41_busywaiter.md R115; spec/44_framebuffer.md R191).  The messages are not state of
the engine (R6, R232). -/

namespace Sys2Proof.Machine

/-- The code of an error kind (R85, R230). -/
def errorCode : Err → Nat
  | .encoding _ => 1
  | .protocolArgument => 2
  | .protocolState => 3
  | .bounds _ _ => 4
  | .timeout _ => 5
  | .notSupported => 6

/-- A decimal digit. -/
def digitChar (n : Nat) : Char :=
  if n = 0 then '0' else if n = 1 then '1' else if n = 2 then '2' else if n = 3 then '3' else if n = 4 then '4'
  else if n = 5 then '5' else if n = 6 then '6' else if n = 7 then '7' else if n = 8 then '8' else '9'

/-- The decimal digits of `n` in front of `acc`; `fuel` bounds their number. -/
def decimalChars : Nat → Nat → List Char → List Char
  | 0, n, acc => digitChar (n % 10) :: acc
  | fuel + 1, n, acc =>
    if n < 10 then digitChar n :: acc else decimalChars fuel (n / 10) (digitChar (n % 10) :: acc)

/-- A natural number in decimal. -/
def natText (n : Nat) : List Char := decimalChars n n []

/-- An integer in decimal. -/
def intText : Int → List Char
  | .ofNat n => natText n
  | .negSucc n => '-' :: natText (n + 1)

/-- The timeout in hundredths of a second.  Exact for a multiple of 10 ms; for another the source does not say how the
third decimal is rounded, and a free value decides (R115, U5; log entry 4). -/
def hundredths (ms : Nat) : Nat :=
  if ms % 10 = 0 then ms / 10 else if Config.roundsUp ms then ms / 10 + 1 else ms / 10

/-- A timeout in seconds with exactly two digits after the point (R115). -/
def secondsText (ms : Nat) : List Char :=
  natText (hundredths ms / 100) ++
    ['.', digitChar (hundredths ms / 10 % 10), digitChar (hundredths ms % 10)]

/-- The message of an error, where the source fixes one; `resetDisplay` says that the operation is RESET_DISPLAY, the only
one whose ProtocolStateError has a text (R232; log entry 26). -/
def errorMessage (resetDisplay : Bool) : Err → Option (List Char)
  | .encoding _ => none
  | .protocolArgument => some "Cannot write empty data to SPI bus".toList
  | .protocolState =>
    if resetDisplay then some "You must initialize the driver before resetting the display".toList else none
  | .bounds .x v => some ("x must be >= 0 and < 600, but was ".toList ++ intText v)
  | .bounds .y v => some ("y must be >= 0 and < 448, but was ".toList ++ intText v)
  | .timeout ms =>
    some ("Timeout waiting for busy signal to clear after ".toList ++ secondsText ms ++ " seconds".toList)
  | .notSupported => none

end Sys2Proof.Machine
end

