-- ==== Sys2Proof/Safety.lean ====
section
/-! DEFINITION. The terms claims use: the event lists of frames and sequences as the spec prints them, and what holds at the
boundary between two host operations (spec/10_state.md R19 to R22, R32; spec/20_memory.md R50; spec/30_encoding.md R71 to
R73; spec/43_protocol_sequences.md R152). -/

namespace Sys2Proof.Machine

/-! ### Event lists -/

/-- The four events of a frame at DC level `dc` (R71, R72). -/
def frameF (dc : Level) (bytes : List Byte) : List Event :=
  [.pinWrite .cs .low, .pinWrite .dc dc, .spiWrite bytes, .pinWrite .cs .high]

/-- `CMDF(bytes)`, a command frame (R71). -/
def cmdF (bytes : List Byte) : List Event := frameF .low bytes

/-- `DATF(bytes)`, a data frame (R72). -/
def datF (bytes : List Byte) : List Event := frameF .high bytes

/-- `REGW(c, p)`, a register write (R73). -/
def regW (c : Byte) (p : List Byte) : List Event := cmdF [c] ++ datF p

/-- The events of INITIALIZE before its busy wait (R125). -/
def bringUpEvents : List Event :=
  [.pinOpen .cs .output, .pinOpen .dc .output, .pinOpen .rst .output, .pinOpen .busy .input,
   .pinWrite .cs .high, .pinWrite .dc .low, .pinWrite .rst .high]

/-- The events of INITIALIZE's failure path after its busy wait (R127). -/
def closeEvents : List Event := [.pinClose .cs, .pinClose .dc, .pinClose .rst, .pinClose .busy]

/-- The 80 events of the register sequence (R152). -/
def registerEvents : List Event :=
  regW 0x03 [0x00] ++ regW 0x00 [0xEF, 0x08] ++ regW 0x01 [0x37, 0x00, 0x23, 0x23] ++ regW 0x30 [0x1C] ++
  regW 0x41 [0x00] ++ regW 0x50 [0x37] ++ regW 0x60 [0x22] ++ regW 0x65 [0x00] ++ regW 0xE3 [0xAA] ++
  regW 0x03 [0x00]

/-- The events of a busy wait of `n + 1` samples, the first `n` reading 0 and the last reading `l` (R110). -/
def waitEvents (pollMs n : Nat) (l : Level) : List Event :=
  (List.replicate n [.pinRead .busy .low, .sleep pollMs]).flatten ++ [.pinRead .busy l]

/-- The events of a complete FLUSH of an initialized engine whose three waits take `n1 + 1`, `n2 + 1` and `n3 + 1` samples
(R155, R159). -/
def paintEvents (pk : List Byte) (pollMs n1 n2 n3 : Nat) : List Event :=
  registerEvents ++ regW 0x10 pk ++
  (cmdF [0x04] ++ waitEvents pollMs n1 .high) ++
  (cmdF [0x04] ++ waitEvents pollMs n2 .high) ++
  (cmdF [0x04] ++ waitEvents pollMs n3 .high)

/-! ### What a wait is given -/

/-- What the outside gives the sample that is `k` samples ahead: an entry of `busy`, or free values beyond its end
(R25, R112; log entry 2). -/
def sampleAt (s : State) (k : Nat) : Sample :=
  match s.busy[k]? with
  | some x => x
  | none => { level := Config.freeBusy (s.samples + k), lateMs := Config.freeLateMs (s.samples + k) }

/-- The time from the first sample of a wait that begins now to the sample `k` samples ahead, where all before it read 0:
each gap is the polling interval or more (R112). -/
def elapsedAt (s : State) : Nat → Nat
  | 0 => 0
  | k + 1 => elapsedAt s k + (s.cfg.pollIntervalMs + (sampleAt s k).lateMs)

/-- A wait with timeout `T` that begins now takes exactly `n + 1` samples, and the last reads `l`: those before it read 0
before the deadline, and it reads 1, or 0 at or after the deadline (R110, R113). -/
structure WaitTakes (s : State) (T n : Nat) (l : Level) : Prop where
  lowBefore : ∀ k, k < n → (sampleAt s k).level = .low
  beforeDeadline : ∀ k, k < n → elapsedAt s k < T
  last : (sampleAt s n).level = l
  atDeadline : l = .low → T ≤ elapsedAt s n

/-- The state with the inputs of BUSY as they stand once `k` more samples have been taken; nothing else moves (R25). -/
def afterSamples (k : Nat) (s : State) : State :=
  { s with busy := s.busy.drop k, samples := s.samples + k }

/-- Whether a call of INITIALIZE runs a busy wait: always where INIT = 0, and where INIT = 1 with the recorded alternative
only (R125, R126). -/
def initialiseWaits (s : State) : Bool := !s.init || s.cfg.reinitRedrives

/-- The samples a call of INITIALIZE takes whose wait, where it runs one, takes `n + 1`. -/
def initialiseSamples (s : State) (n : Nat) : Nat := if initialiseWaits s then n + 1 else 0

/-- The events of a call of INITIALIZE whose wait, where it runs one, takes `n + 1` samples and ends in one that reads `l`:
ready, or timed out, a failed bring-up with its four closes (R125 to R127). -/
def initialiseEvents (s : State) (n : Nat) (l : Level) : List Event :=
  match s.init, s.cfg.reinitRedrives with
  | false, _ =>
    bringUpEvents ++ waitEvents s.cfg.pollIntervalMs n l ++
      match l with
      | .high => []
      | .low => closeEvents
  | true, true =>
    [.pinWrite .cs .high, .pinWrite .dc .low, .pinWrite .rst .high] ++ waitEvents s.cfg.pollIntervalMs n l
  | true, false => []

/-! ### Pins as the trace shows them -/

/-- The pin state before any event (R31). -/
def closedModes : PinModes := { cs := .closed, dc := .closed, rst := .closed, busy := .closed }

/-- The pin levels before any event (R31). -/
def undrivenLevels : PinDrives := { cs := .undriven, dc := .undriven, rst := .undriven }

/-- The pin state of an initialized engine (R19, R125). -/
def openModes : PinModes := { cs := .openOut, dc := .openOut, rst := .openOut, busy := .openIn }

/-- What one event makes of the pins: an open leaves the pin undriven, a close closes it, a write drives it (R19, R20). -/
def pinsAfterEvent (p : PinModes × PinDrives) : Event → PinModes × PinDrives
  | .pinOpen r d => (p.1.set r (openMode d), p.2.release r)
  | .pinClose r => (p.1.set r .closed, p.2.release r)
  | .pinWrite r l => (p.1, p.2.set r (.driven l))
  | .pinRead _ _ => p
  | .spiWrite _ => p
  | .sleep _ => p

/-- What a list of events, oldest first, makes of the pins. -/
def pinsAfter (p : PinModes × PinDrives) : List Event → PinModes × PinDrives
  | [] => p
  | e :: es => pinsAfter (pinsAfterEvent p e) es

/-- `PINSTATE` and `PINLEVEL` are what the events since reset have made of them (R19, R20). -/
def PinsMatchTrace (s : State) : Prop :=
  pinsAfter (closedModes, undrivenLevels) s.trace = (s.pinState, s.pinLevel)

/-! ### Framing -/

/-- Where a reader of the trace stands with respect to a frame. -/
inductive FramePhase where
  | between | csLow | dcSet | sent
  deriving DecidableEq, Repr

/-- Reading one event: inside a frame only the next event of the frame may come, between frames no SPI write (R50). -/
def frameRead : FramePhase → Event → Option FramePhase
  | .between, .pinWrite .cs .low => some .csLow
  | .between, .spiWrite _ => none
  | .between, _ => some .between
  | .csLow, .pinWrite .dc _ => some .dcSet
  | .csLow, _ => none
  | .dcSet, .spiWrite (_ :: _) => some .sent
  | .dcSet, _ => none
  | .sent, .pinWrite .cs .high => some .between
  | .sent, _ => none

/-- Reading a list of events, oldest first. -/
def frameScan : FramePhase → List Event → Option FramePhase
  | ph, [] => some ph
  | ph, e :: es =>
    match frameRead ph e with
    | some ph' => frameScan ph' es
    | none => none

/-- Every SPI write of the trace stands inside a whole frame, the four events of a frame are consecutive, and no frame is
left open (R50). -/
def WellFramed (es : List Event) : Prop := frameScan .between es = some .between

/-! ### Boundaries -/

/-- The engine is Idle and no wait is in progress: where the port accepts an operation (R24, R26, R29). -/
structure Idle (s : State) : Prop where
  seq : s.seq = []
  bw : s.bw = none

/-- What holds at every boundary between two host operations (R32), with the form of the cell store and the pins of an
uninitialized engine (R19, R20). -/
structure Boundary (s : State) : Prop where
  idle : Idle s
  cells : Memory.wf s.fb = true
  openPins : s.init = true → s.pinState = openModes
  closedPins : s.init = false → s.pinState = closedModes
  csHigh : s.init = true → s.pinLevel.cs = .driven .high
  rstHigh : s.init = true → s.pinLevel.rst = .driven .high
  undriven : s.init = false → s.pinLevel = undrivenLevels

/-- A host operation, format HOP (R70, R76). -/
def isHostOp (i : Instr) : Bool := decide (i.format = .hop)

end Sys2Proof.Machine
end

