-- ==== Sys2Proof/Certificates/Slice0/Obligations.lean ====
section
/-! DEFINITION. The statements about the model, for the provers.  Each is about exec, step, the decoder or the packed image;
the words are those of Sys2Proof/Safety.lean. -/

open Sys2Proof Sys2Proof.Machine

/-! ### Reset and the step -/

/-- Reset of the block with any construction arguments (10_state.md section 8, 70_reset_and_hazards.md section 1): every
cell Black, uninitialized, the arguments in CFG, every pin Closed and Undriven, SEQ Idle, no wait, TRACE empty (the values
of pins, SEQ and TRACE are the spec's decision D24). -/
def Obligations.ResetLeavesAnIdleUninitializedEngine : Prop :=
  ∀ c : Cfg,
    (∀ x y, cell (State.construct c).fb x y = .black) ∧
    (State.construct c).init = false ∧
    (State.construct c).cfg = c ∧
    (∀ r, (State.construct c).pinState.get r = .closed) ∧
    (∀ r, (State.construct c).pinLevel.get r = .undriven) ∧
    (State.construct c).seq = [] ∧
    (State.construct c).bw = none ∧
    (State.construct c).trace = []

/-- A step of an Idle engine runs the operation its decoder reads from the bytes presented on the port, takes the bytes off
the port and adds nothing else (10_state.md section 6, 30_encoding.md section 7).  The port's queue and the byte layout of
the operands are the model's choice (log entries 12 and 6). -/
def Obligations.StepRunsThePresentedOperation : Prop :=
  ∀ (s : State) (bs : List Byte) (rest : List (List Byte)) (i : Instr),
    s.cfg.legal = true → s.seq = [] → s.port = bs :: rest → decode .hop bs = .ok i → i.wf = true →
    step s = exec i { s with port := rest }

/-- A step at a position of the register sequence of an initialized engine sends that register write and nothing else, and
leaves SEQ at that position with its two frames sent; the step after goes on to the next register write, or out of the
sequence (10_state.md section 5, 43_protocol_sequences.md section 1).  That one step runs both frames is the model's choice
(log entry 8). -/
def Obligations.StepAtARegisterPositionSendsThatWrite : Prop :=
  ∀ (s : State) (k : Fin 10) (c : Byte) (p : List Byte) (rest : List Pos),
    s.cfg.legal = true → s.init = true → s.seq = .regSeq k 0 :: rest →
    [(0x03, [0x00]), (0x00, [0xEF, 0x08]), (0x01, [0x37, 0x00, 0x23, 0x23]), (0x30, [0x1C]), (0x41, [0x00]),
      (0x50, [0x37]), (0x60, [0x22]), (0x65, [0x00]), (0xE3, [0xAA]), (0x03, [0x00])][k.val]? = some (c, p) →
    ∃ t, step s =
        .next { s with
          trace := s.trace ++ regW c p
          pinLevel := { s.pinLevel with cs := .driven .high, dc := .driven .high }
          seq := .regSeq k 2 :: rest } ∧
      step { s with
          trace := s.trace ++ regW c p
          pinLevel := { s.pinLevel with cs := .driven .high, dc := .driven .high }
          seq := .regSeq k 2 :: rest } = .next t ∧
      (∀ h : k.val + 1 < 10, t.seq = .regSeq ⟨k.val + 1, h⟩ 0 :: rest) ∧
      (k.val = 9 → t.seq = rest)

/-- A step at any other position that sends a wire command, the resolution write, the image transfer or one of the three
0x04 commands of the paint cycle, sends that command and nothing else (10_state.md section 5, 43_protocol_sequences.md
sections 2 and 3).  That one step runs all its frames is the model's choice (log entry 8). -/
def Obligations.StepAtACommandPositionSendsThatCommand : Prop :=
  ∀ (s : State) (pk : List Byte) (p p' : Pos) (es : List Event) (dc : Level) (rest : List Pos),
    s.cfg.legal = true → s.init = true → pk.length = 134400 → s.seq = p :: rest →
    (p, es, dc, p') ∈
      [(Pos.res 0, cmdF [0x61] ++ datF [0x01, 0xF4, 0x01, 0xC0], Level.high, Pos.res 2),
       (.paint .image 0 pk, cmdF [0x10] ++ datF pk, .high, .paint .image 2 pk),
       (.paint .power1 0 pk, cmdF [0x04], .low, .paint .power1 1 pk),
       (.paint .power2 0 pk, cmdF [0x04], .low, .paint .power2 1 pk),
       (.paint .power3 0 pk, cmdF [0x04], .low, .paint .power3 1 pk)] →
    step s =
      .next { s with
        trace := s.trace ++ es
        pinLevel := { s.pinLevel with cs := .driven .high, dc := .driven dc }
        seq := p' :: rest }

/-- Bytes presented on the port whose selector is 0x11 to 0xFF are refused, by name (30_encoding.md section 4, U10;
log entry 6). -/
def Obligations.UnknownSelectorsAreRefused : Prop :=
  ∀ (s : State) (sel : Byte) (ops : List Byte) (rest : List (List Byte)),
    s.cfg.legal = true → s.seq = [] → s.port = (sel :: ops) :: rest → 0x10 < sel.toNat →
    step s = .refused (.undecodable (.noSuchSelector sel))

/-- An engine two of whose roles share a pin number, or whose polling interval is 0, is none: it takes no step
(10_state.md section 3, 92_eei_decisions.md D31; that the step refuses is log entry 15). -/
def Obligations.IllegalConfigurationsTakeNoStep : Prop :=
  ∀ s : State,
    (s.cfg.pollIntervalMs = 0 ∨ s.cfg.pinCs = s.cfg.pinDc ∨ s.cfg.pinCs = s.cfg.pinRst ∨ s.cfg.pinCs = s.cfg.pinBusy ∨
      s.cfg.pinDc = s.cfg.pinRst ∨ s.cfg.pinDc = s.cfg.pinBusy ∨ s.cfg.pinRst = s.cfg.pinBusy) ↔
    step s = .refused .badConfiguration

/-- While SEQ is not Idle the port accepts no host operation (10_state.md section 6, 93_implementation_defined.md U12;
that the model answers a fault is log entry 11). -/
def Obligations.ThePortIsClosedWhileAnOperationRuns : Prop :=
  ∀ (i : Instr) (s : State), isHostOp i = true → s.seq ≠ [] → exec i s = .fault .portBusy

/-- A step of an engine in the middle of an operation takes nothing from the port (10_state.md section 6). -/
def Obligations.StepsInsideAnOperationLeaveThePort : Prop :=
  ∀ s t : State, s.seq ≠ [] → step s = .next t → t.port = s.port

/-! ### Encoding -/

/-- Words of the opcode table, written out from the table, decode to the instructions they stand for: one of each family of
host operations, and the wire commands whose opcodes no host operation has.  Operands of zeros are read in the model's own
byte layout (log entry 6), and that a word which names a host operation and a wire command both, as 0x00 and 0x03 do, is
read as the host operation is the model's choice (log entry 7). -/
def Obligations.TableWordsDecode : Prop :=
  decodeTableWord 8 0b00000000 = some .initializeDriver ∧
  decodeTableWord 8 0b00000011 = some .resetDisplay ∧
  decodeTableWord 8 0b00001001 = some .render ∧
  decodeTableWord 8 0b00001010 = some (.fromByte 0) ∧
  decodeTableWord 8 0b00000110 = some (.waitForReady .cs 0) ∧
  decodeTableWord 8 0b00001110 = some (.mirrorColumns { cols := 0, rows := [] }) ∧
  decodeTableWord 8 0b00110000 = some .cmdPll ∧
  decodeTableWord 8 0b01000001 = some .cmdTse ∧
  decodeTableWord 8 0b01010000 = some .cmdVcomDataInterval ∧
  decodeTableWord 8 0b01100000 = some .cmdNonOverlap ∧
  decodeTableWord 8 0b01100001 = some .cmdResolution ∧
  decodeTableWord 8 0b01100101 = some .cmdFlashDisable ∧
  decodeTableWord 8 0b11100011 = some .cmdSevenColour ∧
  decodeTableWord 8 0b00010001 = none

/-- Decoding the encoding of a well-formed instruction gives it back, every operand at every value (the byte layout of the
operands is the model's own choice, log entry 6). -/
def Obligations.DecodeInvertsEncode : Prop :=
  ∀ i : Instr, i.wf = true → decode i.format (encode i) = .ok i

/-! ### DisplayColor -/

/-- The eight colours have the wire bytes 0 to 7 in the source's listing order (40_displaycolor.md R100, decision D1), and
TO_BYTE, selector 0x0B, returns that byte in every state that accepts it and changes nothing else. -/
def Obligations.ToByteReturnsTheListedByte : Prop :=
  ∀ (s : State) (c : Color) (b : Byte),
    s.seq = [] →
    (c, b) ∈ [(Color.black, (0 : Byte)), (.white, 1), (.green, 2), (.blue, 3), (.red, 4), (.yellow, 5), (.orange, 6),
      (.clean, 7)] →
    exec (.toByte c) s = .next { s with result := some (.ok (.byte b)) } ∧
    (encode (.toByte c)).head? = some 0x0B

/-- FROM_BYTE, selector 0x0A, returns the variant whose wire byte is `b` for `b` in 0 to 7, and fails with EncodingError
reporting `b` for every other byte; it changes nothing but the result. -/
def Obligations.FromByteReturnsTheVariantOrReportsTheByte : Prop :=
  ∀ (s : State) (b : Byte), Idle s →
    (b.toNat ≤ 7 →
      ∃ c : Color, exec (.fromByte b) s = .next { s with result := some (.ok (.color c)) } ∧
        exec (.toByte c) s = .next { s with result := some (.ok (.byte b)) }) ∧
    (7 < b.toNat → exec (.fromByte b) s = .next { s with result := some (.err (.encoding b)) }) ∧
    (encode (.fromByte b)).head? = some 0x0A

/-- DISPATCH runs exactly the handler of the colour's variant and returns its index and its result: `h0` for Black to `h7`
for Clean.  A handler stands for the result it returns (log entry 9). -/
def Obligations.DispatchRunsTheMatchingHandler : Prop :=
  ∀ (s : State) (c : Color) (h : Handlers) (k v : Nat), s.seq = [] →
    (c, k, v) ∈ [(Color.black, 0, h.h0), (.white, 1, h.h1), (.green, 2, h.h2), (.blue, 3, h.h3), (.red, 4, h.h4),
      (.yellow, 5, h.h5), (.orange, 6, h.h6), (.clean, 7, h.h7)] →
    exec (.dispatch c h) s = .next { s with result := some (.ok (.handled k v)) }

/-! ### BusyWaiter -/

/-- A wait whose first sample reads ready returns at once having sampled exactly once, with no sleep. -/
def Obligations.WaitReturnsOnAReadyFirstSample : Prop :=
  ∀ (s : State) (T late : Nat) (rest : List Sample),
    Idle s → s.pinState.busy = .openIn → s.busy = { level := .high, lateMs := late } :: rest →
    exec (.waitForReady .busy T) s =
      .next { s with
        trace := s.trace ++ [.pinRead .busy .high]
        busy := rest
        samples := s.samples + 1
        result := some (.ok .none) }

/-- Under the reference timing: a pin that reads low `n` times and then high returns after exactly `n + 1` samples and `n`
sleeps where sample `n + 1` is reached, and a pin that stays low fails with TimeoutError after the rounded-up quotient of
timeout and interval, plus one, samples (41_busywaiter.md).  The open interval is the spec's decision D5, the order of the
tests, and with it that last count, its decision D6 (log entries 3 and 24). -/
def Obligations.WaitTakesTheSamplesOfTheReferenceTiming : Prop :=
  ∀ (s : State) (T n : Nat) (rest : List Sample),
    Idle s → s.pinState.busy = .openIn → 0 < s.cfg.pollIntervalMs →
    (∀ late, s.busy = List.replicate n { level := .low, lateMs := 0 } ++ { level := .high, lateMs := late } :: rest →
      (n = 0 ∨ (n - 1) * s.cfg.pollIntervalMs < T) →
      exec (.waitForReady .busy T) s =
        .next { s with
          trace := s.trace ++ waitEvents s.cfg.pollIntervalMs n .high
          busy := rest
          samples := s.samples + (n + 1)
          result := some (.ok .none) }) ∧
    (n = (T + s.cfg.pollIntervalMs - 1) / s.cfg.pollIntervalMs →
      s.busy = List.replicate (n + 1) { level := .low, lateMs := 0 } ++ rest →
      exec (.waitForReady .busy T) s =
        .next { s with
          trace := s.trace ++ waitEvents s.cfg.pollIntervalMs n .low
          busy := rest
          samples := s.samples + (n + 1)
          result := some (.err (.timeout T)) })

/-- Every wait, whatever the pin does and however late the samples come, is an alternation of low samples and sleeps that
ends in one sample, ready on success and low on failure; it takes at most the rounded-up quotient of timeout and interval,
plus one, samples, fails only where a positive timeout has let it sample twice, and changes nothing but TRACE, its inputs
and the result (41_busywaiter.md; the order of the tests and the free gap are the spec's decisions D6 and D5). -/
def Obligations.EveryWaitIsBoundedAndAlternating : Prop :=
  ∀ (s : State) (T : Nat),
    Idle s → s.pinState.busy = .openIn → 0 < s.cfg.pollIntervalMs →
    ∃ (n : Nat) (l : Level),
      n ≤ (T + s.cfg.pollIntervalMs - 1) / s.cfg.pollIntervalMs ∧
      (l = .low → 0 < T → 0 < n) ∧
      exec (.waitForReady .busy T) s =
        .next { s with
          trace := s.trace ++ waitEvents s.cfg.pollIntervalMs n l
          busy := s.busy.drop (n + 1)
          samples := s.samples + (n + 1)
          result := some (if l = .high then .ok .none else .err (.timeout T)) }

/-- A stand-alone wait on another role than BUSY, or on a BUSY pin that is not open as input, is refused
(41_busywaiter.md, 93_implementation_defined.md U11, decision D32; log entry 16). -/
def Obligations.WaitOnAnotherPinIsRefused : Prop :=
  ∀ (s : State) (r : Role) (T : Nat),
    s.seq = [] → (r ≠ .busy ∨ s.pinState.busy ≠ .openIn) → exec (.waitForReady r T) s = .refused (.waitOnPin r)

/-! ### Bring-up and frames -/

/-- INITIALIZE of an uninitialized engine whose busy wait ends ready, at whichever sample: the four opens, the three writes
and the samples and sleeps of the wait, the pins open and driven, INIT = 1 (42_protocol_frames.md section 1; the order of
the opens and of the writes is decision D9).  A wait ready at its first sample needs no positive interval. -/
def Obligations.InitializeBringsThePinsUp : Prop :=
  ∀ (s : State) (n : Nat),
    Idle s → s.init = false → (0 < s.cfg.pollIntervalMs ∨ n = 0) → WaitTakes s 40000 n .high →
    exec .initializeDriver s =
      .next { s with
        init := true
        pinState := { cs := .openOut, dc := .openOut, rst := .openOut, busy := .openIn }
        pinLevel := { cs := .driven .high, dc := .driven .low, rst := .driven .high }
        trace := s.trace ++
          ([.pinOpen .cs .output, .pinOpen .dc .output, .pinOpen .rst .output, .pinOpen .busy .input,
            .pinWrite .cs .high, .pinWrite .dc .low, .pinWrite .rst .high] ++
           waitEvents s.cfg.pollIntervalMs n .high)
        busy := s.busy.drop (n + 1)
        samples := s.samples + (n + 1)
        result := some (.ok .none) }

/-- INITIALIZE of an initialized engine is a no-operation (decision D7).  With the recorded alternative REINIT_REDRIVES = 1 it skips the
opens and repeats the three writes and the 40-second wait; that a redrive that times out leaves INIT and the pins as they
are is the model's reading (log entry 13). -/
def Obligations.InitializeAgainIsANoOperation : Prop :=
  ∀ s : State, Idle s → s.init = true → 0 < s.cfg.pollIntervalMs →
    (s.cfg.reinitRedrives = false → exec .initializeDriver s = .next { s with result := some (.ok .none) }) ∧
    (s.cfg.reinitRedrives = true →
      ∃ (n : Nat) (l : Level),
        WaitTakes s 40000 n l ∧
        exec .initializeDriver s =
          .next { s with
            pinLevel := { cs := .driven .high, dc := .driven .low, rst := .driven .high }
            trace := s.trace ++ [.pinWrite .cs .high, .pinWrite .dc .low, .pinWrite .rst .high] ++
              waitEvents s.cfg.pollIntervalMs n l
            busy := s.busy.drop (n + 1)
            samples := s.samples + (n + 1)
            result := some (if l = .high then .ok .none else .err (.timeout 40000)) })

/-- INITIALIZE of an uninitialized engine whose busy wait fails: TimeoutError(40000), INIT stays 0, and every pin that was
opened is closed, in the order they were opened; but for TRACE, the inputs and the result, a boundary state with INIT = 0
is as it was (42_protocol_frames.md section 1, decision D8). -/
def Obligations.AFailedInitializeClosesThePins : Prop :=
  ∀ (s : State) (n : Nat),
    Boundary s → s.init = false → 0 < s.cfg.pollIntervalMs → WaitTakes s 40000 n .low →
    exec .initializeDriver s =
      .next { s with
        trace := s.trace ++
          [.pinOpen .cs .output, .pinOpen .dc .output, .pinOpen .rst .output, .pinOpen .busy .input,
           .pinWrite .cs .high, .pinWrite .dc .low, .pinWrite .rst .high] ++
          waitEvents s.cfg.pollIntervalMs n .low ++
          [.pinClose .cs, .pinClose .dc, .pinClose .rst, .pinClose .busy]
        busy := s.busy.drop (n + 1)
        samples := s.samples + (n + 1)
        result := some (.err (.timeout 40000)) }

/-- WRITE_COMMAND, selector 0x01, and WRITE_DATA, selector 0x02: an empty sequence is ProtocolArgumentError in either mode;
a non-empty one is ProtocolStateError in uninitialized mode and one frame in initialized mode, with DC low for a command
and high for data (42_protocol_frames.md section 2; the empty check first and the state gate are decision D10). -/
def Obligations.WriteCommandAndDataSendOneFrame : Prop :=
  ∀ (s : State) (bytes : List Byte), Idle s →
    (bytes = [] →
      exec (.writeCommand bytes) s = .next { s with result := some (.err .protocolArgument) } ∧
      exec (.writeData bytes) s = .next { s with result := some (.err .protocolArgument) }) ∧
    (bytes ≠ [] → s.init = false →
      exec (.writeCommand bytes) s = .next { s with result := some (.err .protocolState) } ∧
      exec (.writeData bytes) s = .next { s with result := some (.err .protocolState) }) ∧
    (bytes ≠ [] → s.init = true →
      exec (.writeCommand bytes) s =
        .next { s with
          trace := s.trace ++ [.pinWrite .cs .low, .pinWrite .dc .low, .spiWrite bytes, .pinWrite .cs .high]
          pinLevel := { s.pinLevel with cs := .driven .high, dc := .driven .low }
          result := some (.ok .none) } ∧
      exec (.writeData bytes) s =
        .next { s with
          trace := s.trace ++ [.pinWrite .cs .low, .pinWrite .dc .high, .spiWrite bytes, .pinWrite .cs .high]
          pinLevel := { s.pinLevel with cs := .driven .high, dc := .driven .high }
          result := some (.ok .none) }) ∧
    (encode (.writeCommand bytes)).head? = some 0x01 ∧ (encode (.writeData bytes)).head? = some 0x02

/-! ### Register sequence, resolution, wire commands -/

/-- RESET_DISPLAY of an initialized engine: for steps 1 to 10 the eight events of the register write; of an uninitialized
engine: ProtocolStateError before any event. -/
def Obligations.ResetDisplaySendsTheRegisterSequence : Prop :=
  ∀ s : State, Idle s →
    (s.init = true →
      exec .resetDisplay s =
        .next { s with
          trace := s.trace ++
            (cmdF [0x03] ++ datF [0x00] ++ cmdF [0x00] ++ datF [0xEF, 0x08] ++
             cmdF [0x01] ++ datF [0x37, 0x00, 0x23, 0x23] ++ cmdF [0x30] ++ datF [0x1C] ++
             cmdF [0x41] ++ datF [0x00] ++ cmdF [0x50] ++ datF [0x37] ++ cmdF [0x60] ++ datF [0x22] ++
             cmdF [0x65] ++ datF [0x00] ++ cmdF [0xE3] ++ datF [0xAA] ++ cmdF [0x03] ++ datF [0x00])
          pinLevel := { s.pinLevel with cs := .driven .high, dc := .driven .high }
          result := some (.ok .none) }) ∧
    (s.init = false → exec .resetDisplay s = .next { s with result := some (.err .protocolState) })

/-- SET_RESOLUTION, selector 0x04, sends command 0x61 and the four payload bytes as they stand; an uninitialized engine
answers ProtocolStateError before any event (43_protocol_sequences.md section 2; that answer is the spec's decision D10, log
entry 24). -/
def Obligations.SetResolutionSendsTheResolutionWrite : Prop :=
  ∀ s : State, Idle s →
    (s.init = true →
      exec .setResolution s =
        .next { s with
          trace := s.trace ++ (cmdF [0x61] ++ datF [0x01, 0xF4, 0x01, 0xC0])
          pinLevel := { s.pinLevel with cs := .driven .high, dc := .driven .high }
          result := some (.ok .none) }) ∧
    (s.init = false → exec .setResolution s = .next { s with result := some (.err .protocolState) }) ∧
    (encode .setResolution).head? = some 0x04

/-- The ten wire commands with a constant payload: of an initialized engine each is its command frame and its data frame,
and changes nothing but TRACE and the levels of CS and DC (43_protocol_sequences.md section 4). -/
def Obligations.RegisterCommandsAreTwoFrames : Prop :=
  ∀ (s : State) (i : Instr) (c : Byte) (p : List Byte), s.init = true →
    (i, c, p) ∈
      [(Instr.cmdPanelSetting, (0x00 : Byte), [(0xEF : Byte), 0x08]), (.cmdPowerSetting, 0x01, [0x37, 0x00, 0x23, 0x23]),
       (.cmdPowerOffSeq, 0x03, [0x00]), (.cmdPll, 0x30, [0x1C]), (.cmdTse, 0x41, [0x00]),
       (.cmdVcomDataInterval, 0x50, [0x37]), (.cmdNonOverlap, 0x60, [0x22]),
       (.cmdResolution, 0x61, [0x01, 0xF4, 0x01, 0xC0]), (.cmdFlashDisable, 0x65, [0x00]),
       (.cmdSevenColour, 0xE3, [0xAA])] →
    exec i s =
      .next { s with
        trace := s.trace ++ (cmdF [c] ++ datF p)
        pinLevel := { s.pinLevel with cs := .driven .high, dc := .driven .high } }

/-- CMD_POWER_ON of an initialized engine is one command frame 0x04 and no data frame; that the busy wait which follows it is
the paint cycle's and not the command's is the model's deduction (log entry 20). -/
def Obligations.PowerOnIsOneCommandFrame : Prop :=
  ∀ s : State, s.init = true →
    exec .cmdPowerOn s =
      .next { s with
        trace := s.trace ++ [.pinWrite .cs .low, .pinWrite .dc .low, .spiWrite [0x04], .pinWrite .cs .high]
        pinLevel := { s.pinLevel with cs := .driven .high, dc := .driven .low } }

/-- CMD_IMAGE_TRANSFER of an initialized engine: opcode 0x10, then the whole packed image in one data frame.  That an image of
another length than 134400 is refused, as decision D11 has it of FLUSH, is the model's choice (log entry 17). -/
def Obligations.ImageTransferSendsTheWholeImage : Prop :=
  ∀ (s : State) (pk : List Byte), s.init = true →
    (pk.length = 134400 →
      exec (.cmdImageTransfer pk) s =
        .next { s with
          trace := s.trace ++ (cmdF [0x10] ++ datF pk)
          pinLevel := { s.pinLevel with cs := .driven .high, dc := .driven .high } }) ∧
    (pk.length ≠ 134400 → exec (.cmdImageTransfer pk) s = .refused (.imageLength pk.length))

/-- Every wire command of an uninitialized engine raises ProtocolStateError, as its first frame does: SEQ goes to Idle and
nothing is sent (42_protocol_frames.md section 2; log entry 21). -/
def Obligations.WireCommandsNeedAnInitializedEngine : Prop :=
  ∀ (s : State) (i : Instr), s.init = false → i.wf = true → isHostOp i = false →
    exec i s = .next { s with seq := [], bw := none, result := some (.err .protocolState) }

/-! ### The paint cycle -/

/-- FLUSH of an initialized engine, however many samples its waits take, as long as each ends ready: the register sequence,
the image transfer, and three times 0x04 and a wait, with timeouts 210, 32000 and 200 ms.  With the recorded alternative
REINIT_REDRIVES = 1 (decision D7) the three pin writes and the wait of 40000 ms come first. -/
def Obligations.FlushPaintsInOrder : Prop :=
  ∀ (s : State) (pk : List Byte) (n1 n2 n3 : Nat),
    Idle s → s.init = true → 0 < s.cfg.pollIntervalMs → pk.length = 134400 →
    (s.cfg.reinitRedrives = false →
      WaitTakes s 210 n1 .high →
      WaitTakes (afterSamples (n1 + 1) s) 32000 n2 .high →
      WaitTakes (afterSamples (n1 + 1 + (n2 + 1)) s) 200 n3 .high →
      exec (.flush pk) s =
        .next { s with
          trace := s.trace ++
            (registerEvents ++ (cmdF [0x10] ++ datF pk) ++
             (cmdF [0x04] ++ waitEvents s.cfg.pollIntervalMs n1 .high) ++
             (cmdF [0x04] ++ waitEvents s.cfg.pollIntervalMs n2 .high) ++
             (cmdF [0x04] ++ waitEvents s.cfg.pollIntervalMs n3 .high))
          pinLevel := { s.pinLevel with cs := .driven .high, dc := .driven .low }
          busy := s.busy.drop (n1 + 1 + (n2 + 1) + (n3 + 1))
          samples := s.samples + (n1 + 1 + (n2 + 1) + (n3 + 1))
          result := some (.ok .none) }) ∧
    (∀ n0, s.cfg.reinitRedrives = true →
      WaitTakes s 40000 n0 .high →
      WaitTakes (afterSamples (n0 + 1) s) 210 n1 .high →
      WaitTakes (afterSamples (n0 + 1 + (n1 + 1)) s) 32000 n2 .high →
      WaitTakes (afterSamples (n0 + 1 + (n1 + 1) + (n2 + 1)) s) 200 n3 .high →
      exec (.flush pk) s =
        .next { s with
          trace := s.trace ++
            ([.pinWrite .cs .high, .pinWrite .dc .low, .pinWrite .rst .high] ++
             waitEvents s.cfg.pollIntervalMs n0 .high ++
             registerEvents ++ (cmdF [0x10] ++ datF pk) ++
             (cmdF [0x04] ++ waitEvents s.cfg.pollIntervalMs n1 .high) ++
             (cmdF [0x04] ++ waitEvents s.cfg.pollIntervalMs n2 .high) ++
             (cmdF [0x04] ++ waitEvents s.cfg.pollIntervalMs n3 .high))
          pinLevel := { cs := .driven .high, dc := .driven .low, rst := .driven .high }
          busy := s.busy.drop (n0 + 1 + (n1 + 1) + (n2 + 1) + (n3 + 1))
          samples := s.samples + (n0 + 1 + (n1 + 1) + (n2 + 1) + (n3 + 1))
          result := some (.ok .none) })

/-- FLUSH of an uninitialized engine, however many samples its four waits take, as long as each ends ready: the bring-up
first, then the whole cycle, 111 events and two more for each sample that reads 0.  Waits ready at their first samples need
no positive interval. -/
def Obligations.FlushFromResetInitializesFirst : Prop :=
  ∀ (s : State) (pk : List Byte) (n0 n1 n2 n3 : Nat),
    Idle s → s.init = false → (0 < s.cfg.pollIntervalMs ∨ n0 + n1 + n2 + n3 = 0) → pk.length = 134400 →
    WaitTakes s 40000 n0 .high →
    WaitTakes (afterSamples (n0 + 1) s) 210 n1 .high →
    WaitTakes (afterSamples (n0 + 1 + (n1 + 1)) s) 32000 n2 .high →
    WaitTakes (afterSamples (n0 + 1 + (n1 + 1) + (n2 + 1)) s) 200 n3 .high →
    ∃ es : List Event,
      es = bringUpEvents ++ waitEvents s.cfg.pollIntervalMs n0 .high ++ registerEvents ++ cmdF [0x10] ++ datF pk ++
        cmdF [0x04] ++ waitEvents s.cfg.pollIntervalMs n1 .high ++
        cmdF [0x04] ++ waitEvents s.cfg.pollIntervalMs n2 .high ++
        cmdF [0x04] ++ waitEvents s.cfg.pollIntervalMs n3 .high ∧
      es.length = 111 + 2 * (n0 + n1 + n2 + n3) ∧
      exec (.flush pk) s =
        .next { s with
          init := true
          pinState := { cs := .openOut, dc := .openOut, rst := .openOut, busy := .openIn }
          pinLevel := { cs := .driven .high, dc := .driven .low, rst := .driven .high }
          trace := s.trace ++ es
          busy := s.busy.drop (n0 + 1 + (n1 + 1) + (n2 + 1) + (n3 + 1))
          samples := s.samples + (n0 + 1 + (n1 + 1) + (n2 + 1) + (n3 + 1))
          result := some (.ok .none) }

/-- However a FLUSH ends, it succeeds with all three 0x04 commands sent, or it fails with one of the four timeouts, having
sent nothing at all over SPI (40000), or one 0x04 (210), two (32000) or three (200).  With a positive polling interval its
events are exactly those up to the wait that failed, and a later step of the cycle has none: the events of INITIALIZE, the
register sequence, the image transfer, then each 0x04 and its wait, as many as there were, each wait as long as the samples
and their times make it.  INIT stays 1 after a failed paint wait by decision D15, and that a failed INITIALIZE of an
initialized engine (REINIT_REDRIVES = 1) leaves it and closes no pin is the model's deduction (log entry 13). -/
def Obligations.AFailedFlushStopsAtItsWait : Prop :=
  ∀ (s t : State) (pk : List Byte),
    Idle s → pk.length = 134400 → exec (.flush pk) s = .next t →
    ∃ es : List Event, t.trace = s.trace ++ es ∧
      ((t.result = some (.ok .none) ∧ es.count (.spiWrite [0x04]) = 3 ∧ t.init = true) ∨
       (t.result = some (.err (.timeout 40000)) ∧ (∀ b, Event.spiWrite b ∉ es) ∧ t.init = s.init) ∨
       (t.result = some (.err (.timeout 210)) ∧ es.count (.spiWrite [0x04]) = 1 ∧ t.init = true) ∨
       (t.result = some (.err (.timeout 32000)) ∧ es.count (.spiWrite [0x04]) = 2 ∧ t.init = true) ∨
       (t.result = some (.err (.timeout 200)) ∧ es.count (.spiWrite [0x04]) = 3 ∧ t.init = true)) ∧
      (0 < s.cfg.pollIntervalMs →
        ∃ n0 n1 n2 n3 : Nat,
          (t.result = some (.err (.timeout 40000)) ∧
            initialiseWaits s = true ∧ WaitTakes s 40000 n0 .low ∧
            es = initialiseEvents s n0 .low) ∨
          ((initialiseWaits s = true → WaitTakes s 40000 n0 .high) ∧
            ((t.result = some (.err (.timeout 210)) ∧
                WaitTakes (afterSamples (initialiseSamples s n0) s) 210 n1 .low ∧
                es = initialiseEvents s n0 .high ++ (registerEvents ++ (cmdF [0x10] ++ datF pk)) ++
                  (cmdF [0x04] ++ waitEvents s.cfg.pollIntervalMs n1 .low)) ∨
             (WaitTakes (afterSamples (initialiseSamples s n0) s) 210 n1 .high ∧
               ((t.result = some (.err (.timeout 32000)) ∧
                   WaitTakes (afterSamples (initialiseSamples s n0 + (n1 + 1)) s) 32000 n2 .low ∧
                   es = initialiseEvents s n0 .high ++ (registerEvents ++ (cmdF [0x10] ++ datF pk)) ++
                     (cmdF [0x04] ++ waitEvents s.cfg.pollIntervalMs n1 .high) ++
                     (cmdF [0x04] ++ waitEvents s.cfg.pollIntervalMs n2 .low)) ∨
                (WaitTakes (afterSamples (initialiseSamples s n0 + (n1 + 1)) s) 32000 n2 .high ∧
                  ∃ l, WaitTakes (afterSamples (initialiseSamples s n0 + (n1 + 1) + (n2 + 1)) s) 200 n3 l ∧
                    t.result = some (if l = .high then .ok .none else .err (.timeout 200)) ∧
                    es = initialiseEvents s n0 .high ++ (registerEvents ++ (cmdF [0x10] ++ datF pk)) ++
                      (cmdF [0x04] ++ waitEvents s.cfg.pollIntervalMs n1 .high) ++
                      (cmdF [0x04] ++ waitEvents s.cfg.pollIntervalMs n2 .high) ++
                      (cmdF [0x04] ++ waitEvents s.cfg.pollIntervalMs n3 l)))))))

/-- FLUSH with an operand of another length than 134400 is refused (43_protocol_sequences.md section 3, D11). -/
def Obligations.FlushRefusesAnotherLength : Prop :=
  ∀ (s : State) (pk : List Byte), s.seq = [] → pk.length ≠ 134400 → exec (.flush pk) s = .refused (.imageLength pk.length)

/-- No host operation but SET_RESOLUTION, and the two by which the host sends bytes of its own, sends opcode 0x61. -/
def Obligations.OnlySetResolutionSendsTheResolution : Prop :=
  ∀ (i : Instr) (s t : State),
    isHostOp i = true → i ≠ .setResolution → (∀ b, i ≠ .writeCommand b) → (∀ b, i ≠ .writeData b) →
    exec i s = .next t →
    ∃ es : List Event, t.trace = s.trace ++ es ∧ Event.spiWrite [0x61] ∉ es

/-- No instruction drives RST low: the engine issues no reset pulse. -/
def Obligations.NothingDrivesTheResetPinLow : Prop :=
  ∀ (i : Instr) (s t : State), exec i s = .next t →
    ∃ es : List Event, t.trace = s.trace ++ es ∧ Event.pinWrite .rst .low ∉ es

/-- FLUSH takes at most as many samples as its four waits can: for each the rounded-up quotient of its timeout and the
polling interval, plus one; every FLUSH ends. -/
def Obligations.FlushTakesBoundedlyManySamples : Prop :=
  ∀ (s : State) (pk : List Byte), Idle s → 0 < s.cfg.pollIntervalMs → pk.length = 134400 →
    ∃ t, exec (.flush pk) s = .next t ∧
      t.samples ≤ s.samples +
        ((40000 + s.cfg.pollIntervalMs - 1) / s.cfg.pollIntervalMs + 1) +
        ((210 + s.cfg.pollIntervalMs - 1) / s.cfg.pollIntervalMs + 1) +
        ((32000 + s.cfg.pollIntervalMs - 1) / s.cfg.pollIntervalMs + 1) +
        ((200 + s.cfg.pollIntervalMs - 1) / s.cfg.pollIntervalMs + 1)

/-! ### FrameBuffer -/

/-- SET_PIXEL, selector 0x07, of a cell of the grid overwrites that cell in place and changes no other cell and nothing else;
outside the grid it fails with BoundsError, on x if x is out of range and on y otherwise, and changes nothing
(44_framebuffer.md section 1; that x is tested first, and reported where both are out of range, is the spec's decision D12,
log entry 24). -/
def Obligations.SetPixelWritesOneCell : Prop :=
  ∀ (s : State) (x y : Coord) (c : Color), Idle s → Memory.wf s.fb = true →
    (0 ≤ x.toInt → x.toInt < 600 → 0 ≤ y.toInt → y.toInt < 448 →
      ∃ fb' : Memory,
        exec (.setPixel x y c) s = .next { s with fb := fb', result := some (.ok .none) } ∧
        cell fb' x.toInt.toNat y.toInt.toNat = c ∧
        ∀ x' y', x' < 600 → y' < 448 → (x' ≠ x.toInt.toNat ∨ y' ≠ y.toInt.toNat) → cell fb' x' y' = cell s.fb x' y') ∧
    ((x.toInt < 0 ∨ 600 ≤ x.toInt) →
      exec (.setPixel x y c) s = .next { s with result := some (.err (.bounds .x x.toInt)) }) ∧
    (0 ≤ x.toInt → x.toInt < 600 → (y.toInt < 0 ∨ 448 ≤ y.toInt) →
      exec (.setPixel x y c) s = .next { s with result := some (.err (.bounds .y y.toInt)) }) ∧
    (encode (.setPixel x y c)).head? = some 0x07

/-- Writing the same colour to the same cell twice leaves the same state as writing it once. -/
def Obligations.SetPixelIsIdempotent : Prop :=
  ∀ (s t u : State) (x y : Coord) (c : Color), Idle s → Memory.wf s.fb = true →
    exec (.setPixel x y c) s = .next t → exec (.setPixel x y c) t = .next u → u = t

/-- GET_PIXELS, selector 0x08, returns the grid as it stands, as a value (decision D17; log entry 27), and changes nothing. -/
def Obligations.GetPixelsReturnsTheGrid : Prop :=
  ∀ s : State, s.seq = [] →
    ∃ g : Memory, exec .getPixels s = .next { s with result := some (.ok (.pixels g)) } ∧
      (∀ x y, x < 600 → y < 448 → cell g x y = cell s.fb x y) ∧
      (encode .getPixels).head? = some 0x08

/-- The transformed grid has the shape and the elements of the four rows of the orientation table, and 268800 elements. -/
def Obligations.TheTransformFollowsTheTable : Prop :=
  ∀ (c : Cfg) (m : Memory),
    (transform c m).rect = true ∧ (transform c m).flat.length = 268800 ∧
    (c.hflip = false → c.vflip = false → ∀ i j, i < 600 → j < 448 →
      (transform c m).at? i j = some (cell m i j)) ∧
    (c.hflip = true → c.vflip = false → ∀ r k, r < 448 → k < 600 →
      (transform c m).at? r k = some (cell m k (447 - r))) ∧
    (c.hflip = false → c.vflip = true → ∀ r k, r < 448 → k < 600 →
      (transform c m).at? r k = some (cell m (599 - k) r)) ∧
    (c.hflip = true → c.vflip = true → ∀ i j, i < 600 → j < 448 →
      (transform c m).at? i j = some (cell m (599 - i) (447 - j)))

/-- The packed image is a fixed function of the grid and the two flags: 134400 bytes, byte `k` holding 16 times the code of
flattened cell `2k` plus the code of flattened cell `2k + 1`, with the closed forms of the flattened sequence
(row-major and the colour codes are the spec's decisions D2 and D1). -/
def Obligations.ThePackedImageIsTheFlattenedGrid : Prop :=
  ∀ (c : Cfg) (m : Memory) (f : Nat → Color),
    (∀ k, f k =
      match c.hflip, c.vflip with
      | false, false => cell m (k / 448) (k % 448)
      | true, false => cell m (k % 600) (447 - k / 600)
      | false, true => cell m (599 - k % 600) (k / 600)
      | true, true => cell m (599 - k / 448) (447 - k % 448)) →
    (renderImage c m).length = 134400 ∧
    ∀ k, k < 134400 →
      (renderImage c m)[k]? = some (BitVec.ofNat 8 (16 * (f (2 * k)).toByte.toNat + (f (2 * k + 1)).toByte.toNat))

/-- Where one cell lands in the packed image: with `k` its index in the flattened sequence, in byte `k / 2`, in the high
nibble if `k` is even and in the low nibble if `k` is odd (row-major and the colour codes are decisions D2 and D1). -/
def Obligations.EveryCellLandsWhereTheTableSays : Prop :=
  ∀ (c : Cfg) (m : Memory) (x y k : Nat), x < 600 → y < 448 →
    k = (match c.hflip, c.vflip with
      | false, false => 448 * x + y
      | true, false => 600 * (447 - y) + x
      | false, true => 600 * y + (599 - x)
      | true, true => 448 * (599 - x) + (447 - y)) →
    ∃ b : Byte, (renderImage c m)[k / 2]? = some b ∧
      (k % 2 = 0 → b.toNat / 16 = (cell m x y).toByte.toNat) ∧
      (k % 2 = 1 → b.toNat % 16 = (cell m x y).toByte.toNat)

/-- RENDER sends the packed image of the grid as it stands in a whole paint cycle, returns its bytes (decision D28), and leaves
the grid alone; shown for an uninitialized and for an initialized engine whose waits are ready at the first sample. -/
def Obligations.RenderSendsAndReturnsTheImage : Prop :=
  ∀ (s : State) (d0 d1 d2 d3 : Nat) (rest : List Sample),
    Idle s →
    (s.init = false →
      s.busy = { level := .high, lateMs := d0 } :: { level := .high, lateMs := d1 } ::
        { level := .high, lateMs := d2 } :: { level := .high, lateMs := d3 } :: rest →
      exec .render s =
        .next { s with
          init := true
          pinState := { cs := .openOut, dc := .openOut, rst := .openOut, busy := .openIn }
          pinLevel := { cs := .driven .high, dc := .driven .low, rst := .driven .high }
          trace := s.trace ++ (bringUpEvents ++ [.pinRead .busy .high] ++
            paintEvents (renderImage s.cfg s.fb) s.cfg.pollIntervalMs 0 0 0)
          busy := rest
          samples := s.samples + 4
          result := some (.ok (.packed (renderImage s.cfg s.fb))) }) ∧
    (s.init = true → s.cfg.reinitRedrives = false →
      s.busy = { level := .high, lateMs := d1 } :: { level := .high, lateMs := d2 } ::
        { level := .high, lateMs := d3 } :: rest →
      exec .render s =
        .next { s with
          pinLevel := { s.pinLevel with cs := .driven .high, dc := .driven .low }
          trace := s.trace ++ paintEvents (renderImage s.cfg s.fb) s.cfg.pollIntervalMs 0 0 0
          busy := rest
          samples := s.samples + 3
          result := some (.ok (.packed (renderImage s.cfg s.fb))) })

/-- Whatever BUSY does, RENDER is FLUSH of the packed image, but for the value it returns on success; on an error it returns
the error and no bytes. -/
def Obligations.RenderIsFlushOfTheImage : Prop :=
  ∀ s : State, s.seq = [] →
    ∃ t u, exec (.flush (renderImage s.cfg s.fb)) s = .next t ∧ exec .render s = .next u ∧
      (t.result = some (.ok .none) → u = { t with result := some (.ok (.packed (renderImage s.cfg s.fb))) }) ∧
      (∀ e, t.result = some (.err e) → u = t)

/-! ### Array2DOps -/

/-- FLATTEN, selector 0x0D, of an N0 x N1 array: a sequence of N0 * N1 elements, element `i * N1 + j` being the array's element
at [i, j] (45_array2dops.md; that a row is one fixed first index is the spec's decision D2, log entry 24). -/
def Obligations.FlattenIsRowMajor : Prop :=
  ∀ (s : State) (g : Grid Nat), s.seq = [] → g.rect = true →
    ∃ S : List Nat, exec (.flatten g) s = .next { s with result := some (.ok (.elements S)) } ∧
      S.length = g.rows.length * g.cols ∧
      (∀ i j, i < g.rows.length → j < g.cols → S[i * g.cols + j]? = g.at? i j ∧ (g.at? i j).isSome = true) ∧
      (encode (.flatten g)).head? = some 0x0D

/-- MIRROR_COLUMNS reverses the element order within each row, MIRROR_ROWS reverses the row order; the result is a new array
of the same shape (decision D29; a row is one first index, decision D2), and nothing but the result changes. -/
def Obligations.TheMirrorsReverseTheirIndex : Prop :=
  ∀ (s : State) (g : Grid Nat), s.seq = [] → g.rect = true →
    ∃ gc gr : Grid Nat,
      exec (.mirrorColumns g) s = .next { s with result := some (.ok (.array gc)) } ∧
      exec (.mirrorRows g) s = .next { s with result := some (.ok (.array gr)) } ∧
      gc.rect = true ∧ gc.cols = g.cols ∧ gc.rows.length = g.rows.length ∧
      gr.rect = true ∧ gr.cols = g.cols ∧ gr.rows.length = g.rows.length ∧
      ∀ i j, i < g.rows.length → j < g.cols →
        gc.at? i j = g.at? i (g.cols - 1 - j) ∧ gr.at? i j = g.at? (g.rows.length - 1 - i) j

/-- The orientation transforms in terms of the mirrors: with both flags the transform is the two mirrors of the grid, in
either order, and with one flag it is a mirror of its transpose. -/
def Obligations.TheTransformsAreMirrors : Prop :=
  ∀ (c : Cfg) (m : Memory),
    (transform { c with hflip := true, vflip := true } m =
      (transform { c with hflip := false, vflip := false } m).mirrorCols.mirrorRows) ∧
    (transform { c with hflip := true, vflip := true } m =
      (transform { c with hflip := false, vflip := false } m).mirrorRows.mirrorCols) ∧
    (transform { c with hflip := true, vflip := false } m =
      (Grid.build 448 600 fun r k => cell m k r).mirrorRows) ∧
    (transform { c with hflip := false, vflip := true } m =
      (Grid.build 448 600 fun r k => cell m k r).mirrorCols)

/-- ROTATE, selector 0x10, fails with NotSupportedError on every call, whatever its operands, and changes nothing else. -/
def Obligations.RotateAlwaysFails : Prop :=
  ∀ (s : State) (a : Nat) (g : Grid Nat), Idle s →
    exec (.rotate a g) s = .next { s with result := some (.err .notSupported) } ∧
    (encode (.rotate a g)).head? = some 0x10

/-! ### Errors and modes -/

/-- The error codes (the spec's own, decision D4) and the messages the source fixes. -/
def Obligations.ErrorCodesAndMessages : Prop :=
  (∀ b, errorCode (.encoding b) = 1) ∧ errorCode .protocolArgument = 2 ∧ errorCode .protocolState = 3 ∧
  (∀ a v, errorCode (.bounds a v) = 4) ∧ (∀ T, errorCode (.timeout T) = 5) ∧ errorCode .notSupported = 6 ∧
  errorMessage false .protocolArgument = some "Cannot write empty data to SPI bus".toList ∧
  errorMessage true .protocolState = some "You must initialize the driver before resetting the display".toList ∧
  errorMessage false (.bounds .x (-1)) = some "x must be >= 0 and < 600, but was -1".toList ∧
  errorMessage false (.bounds .x 928) = some "x must be >= 0 and < 600, but was 928".toList ∧
  errorMessage false (.bounds .y 448) = some "y must be >= 0 and < 448, but was 448".toList ∧
  errorMessage false (.timeout 200) = some "Timeout waiting for busy signal to clear after 0.20 seconds".toList ∧
  errorMessage false (.timeout 210) = some "Timeout waiting for busy signal to clear after 0.21 seconds".toList ∧
  errorMessage false (.timeout 32000) = some "Timeout waiting for busy signal to clear after 32.00 seconds".toList ∧
  errorMessage false (.timeout 40000) = some "Timeout waiting for busy signal to clear after 40.00 seconds".toList

/-- Which errors each host operation can return, complete. -/
def Obligations.EachOperationReturnsItsOwnErrors : Prop :=
  ∀ (i : Instr) (s t : State) (e : Err),
    isHostOp i = true → exec i s = .next t → t.result = some (.err e) →
    match i with
    | .initializeDriver => e = .timeout 40000
    | .writeCommand _ => e = .protocolArgument ∨ e = .protocolState
    | .writeData _ => e = .protocolArgument ∨ e = .protocolState
    | .resetDisplay => e = .protocolState
    | .setResolution => e = .protocolState
    | .flush _ => e = .timeout 40000 ∨ e = .timeout 210 ∨ e = .timeout 32000 ∨ e = .timeout 200
    | .waitForReady _ T => e = .timeout T
    | .setPixel x y _ => e = .bounds .x x.toInt ∨ e = .bounds .y y.toInt
    | .render => e = .timeout 40000 ∨ e = .timeout 210 ∨ e = .timeout 32000 ∨ e = .timeout 200
    | .fromByte b => e = .encoding b
    | .rotate _ _ => e = .notSupported
    | _ => False

/-- Every error but TimeoutError is raised before any write of state and any event: the operation leaves the state as it
was, but for the result. -/
def Obligations.ErrorsOtherThanTimeoutChangeNothing : Prop :=
  ∀ (i : Instr) (s t : State) (e : Err),
    isHostOp i = true → Idle s → exec i s = .next t → t.result = some (.err e) → (∀ T, e ≠ .timeout T) →
    t = { s with result := some (.err e) }

/-- The state after a TimeoutError at a boundary: FB and CFG are unchanged and SEQ is Idle.  A failed INITIALIZE, direct or
at the head of FLUSH or RENDER (TimeoutError(40000)), leaves INIT as it was, with the pins closed and undriven where it was
0 (decision D8; where it was 1, log entry 13).  A failed wait of the paint cycle leaves INIT = 1, the pins open, CS = 1,
DC = 0, RST = 1 (decision D15).  A stand-alone wait leaves INIT and the pins as they were.  No other operation times out. -/
def Obligations.ATimeoutKeepsTheGridAndTheBoundary : Prop :=
  ∀ (i : Instr) (s t : State) (T : Nat),
    isHostOp i = true → Boundary s → exec i s = .next t → t.result = some (.err (.timeout T)) →
    t.fb = s.fb ∧ t.cfg = s.cfg ∧ t.seq = [] ∧ t.bw = none ∧
    (t.init = false → t.pinState = closedModes ∧ t.pinLevel = undrivenLevels) ∧
    (t.init = true → t.pinState = openModes ∧ t.pinLevel.cs = .driven .high ∧ t.pinLevel.rst = .driven .high) ∧
    ((i = .initializeDriver ∧ T = 40000 ∧ t.init = s.init ∧ (t.init = true → t.pinLevel.dc = .driven .low)) ∨
     (i = .waitForReady .busy T ∧ t.init = s.init ∧ t.pinState = s.pinState ∧ t.pinLevel = s.pinLevel) ∨
     (((∃ pk, i = .flush pk) ∨ i = .render) ∧
       ((T = 40000 ∧ t.init = s.init ∧ (t.init = true → t.pinLevel.dc = .driven .low)) ∨
        ((T = 210 ∨ T = 32000 ∨ T = 200) ∧ t.init = true ∧ t.pinLevel.dc = .driven .low))))

/-- Every host operation the port accepts ends with SEQ Idle and one result, and consumes nothing more of the port. -/
def Obligations.EveryOperationEndsIdleWithAResult : Prop :=
  ∀ (i : Instr) (s t : State), isHostOp i = true → exec i s = .next t →
    t.seq = [] ∧ t.result.isSome = true ∧ t.port = s.port ∧ t.cfg = s.cfg

/-- INIT is set by INITIALIZE only, direct or inside FLUSH or RENDER, and is never cleared. -/
def Obligations.OnlyInitializeSetsInit : Prop :=
  ∀ (i : Instr) (s t : State), exec i s = .next t →
    (s.init = true → t.init = true) ∧
    (s.init = false → t.init = true → i = .initializeDriver ∨ (∃ pk, i = .flush pk) ∨ i = .render)

/-- FB is written by SET_PIXEL only: no other instruction changes it, no move of SEQ does, and no step does, in the middle of
an operation or between two, but one that takes a SET_PIXEL from the port. -/
def Obligations.OnlySetPixelWritesTheGrid : Prop :=
  (∀ (i : Instr) (s t : State), exec i s = .next t → (∀ x y c, i ≠ .setPixel x y c) → t.fb = s.fb) ∧
  (∀ s : State, (tick s).fb = s.fb) ∧
  (∀ s t : State, step s = .next t →
    t.fb = s.fb ∨
    (s.seq = [] ∧ ∃ bs rest x y c, s.port = bs :: rest ∧ decode .hop bs = .ok (.setPixel x y c)))

/-- The operations that touch no wire give the same result in both modes, and change neither the pins nor TRACE. -/
def Obligations.PureOperationsIgnoreTheMode : Prop :=
  ∀ (i : Instr) (s t : State), startPositions i s = none → isHostOp i = true → exec i s = .next t →
    t.trace = s.trace ∧ t.pinState = s.pinState ∧ t.pinLevel = s.pinLevel ∧ t.init = s.init ∧
    ∀ b : Bool, ∃ u, exec i { s with init := b } = .next u ∧ u.result = t.result ∧ u.fb = t.fb

/-! ### Invariants of every step -/

/-- The invariants of a boundary hold at reset; that the configuration there is legal is the model's choice of construction
arguments (log entries 3 and 5). -/
def Obligations.ResetIsABoundary : Prop :=
  Boundary State.reset ∧ PinsMatchTrace State.reset ∧ WellFramed State.reset.trace ∧ State.reset.cfg.legal = true

/-- The invariants that hold at every boundary between two host operations are kept by every step from one, and TRACE is an
extension of what it was.  A step from a boundary runs a whole operation (log entry 8). -/
def Obligations.EveryStepKeepsTheBoundary : Prop :=
  ∀ s t : State, Boundary s → step s = .next t → Boundary t ∧ s.trace <+: t.trace

/-- At every boundary, the SPI writes of TRACE stand in whole frames of four consecutive events, one SPI write each, and no
step interleaves two frames or leaves one open. -/
def Obligations.EveryStepKeepsTheFramesWhole : Prop :=
  ∀ s t : State, Boundary s → WellFramed s.trace → step s = .next t → WellFramed t.trace

/-- In every state, mid-operation or not: PINSTATE and PINLEVEL are what the events since reset have made of them, and every
step keeps that. -/
def Obligations.EveryStepKeepsThePinsInStepWithTheTrace : Prop :=
  ∀ s t : State, PinsMatchTrace s → step s = .next t → PinsMatchTrace t

/-- In every state, mid-operation or not: a step keeps the form of the cell store and the configuration, never clears INIT,
and only appends to TRACE. -/
def Obligations.EveryStepKeepsTheStoreAndExtendsTheTrace : Prop :=
  ∀ s t : State, Memory.wf s.fb = true → step s = .next t →
    Memory.wf t.fb = true ∧ t.cfg = s.cfg ∧ (s.init = true → t.init = true) ∧ s.trace <+: t.trace

/-- The sequencer, started at the first position of an operation on the wire and moved event by event, comes to the state
the operation run to its end as a function call comes to, and so does the machine stepped from there
(10_state.md section 5: a model may do either; log entry 8). -/
def Obligations.TheSequencerRunsEveryOperation : Prop :=
  ∀ (i : Instr) (s t : State) (q : List Pos),
    Idle s → s.cfg.legal = true → startPositions i s = some q → exec i s = .next t →
    (∃ n, ticks n (start q s) = t) ∧ ∃ m, Sys2Proof.core.run m (start q s) = .next t
end

