-- ==== Sys2Proof/Laws/State.lean ====
section
/-! SUPPORT. One lemma per field per update of the state, each true by rfl, so that no later proof unfolds a record update;
and what the reset state holds. -/

namespace Sys2Proof.Machine

theorem gridW_eq : gridW = 600 := rfl
theorem gridH_eq : gridH = 448 := rfl
theorem nCells_eq : nCells = 268800 := rfl
theorem nBytes_eq : nBytes = 134400 := rfl

@[simp] theorem emit_fb (e : Event) (s : State) : (emit e s).fb = s.fb := rfl
@[simp] theorem emit_init (e : Event) (s : State) : (emit e s).init = s.init := rfl
@[simp] theorem emit_cfg (e : Event) (s : State) : (emit e s).cfg = s.cfg := rfl
@[simp] theorem emit_pinState (e : Event) (s : State) : (emit e s).pinState = s.pinState := rfl
@[simp] theorem emit_pinLevel (e : Event) (s : State) : (emit e s).pinLevel = s.pinLevel := rfl
@[simp] theorem emit_seq (e : Event) (s : State) : (emit e s).seq = s.seq := rfl
@[simp] theorem emit_bw (e : Event) (s : State) : (emit e s).bw = s.bw := rfl
@[simp] theorem emit_trace (e : Event) (s : State) : (emit e s).trace = s.trace ++ [e] := rfl
@[simp] theorem emit_port (e : Event) (s : State) : (emit e s).port = s.port := rfl
@[simp] theorem emit_result (e : Event) (s : State) : (emit e s).result = s.result := rfl
@[simp] theorem emit_busy (e : Event) (s : State) : (emit e s).busy = s.busy := rfl
@[simp] theorem emit_samples (e : Event) (s : State) : (emit e s).samples = s.samples := rfl

@[simp] theorem spiWrite_fb (b : List Byte) (s : State) : (spiWrite b s).fb = s.fb := rfl
@[simp] theorem spiWrite_init (b : List Byte) (s : State) : (spiWrite b s).init = s.init := rfl
@[simp] theorem spiWrite_cfg (b : List Byte) (s : State) : (spiWrite b s).cfg = s.cfg := rfl
@[simp] theorem spiWrite_pinState (b : List Byte) (s : State) : (spiWrite b s).pinState = s.pinState := rfl
@[simp] theorem spiWrite_pinLevel (b : List Byte) (s : State) : (spiWrite b s).pinLevel = s.pinLevel := rfl
@[simp] theorem spiWrite_seq (b : List Byte) (s : State) : (spiWrite b s).seq = s.seq := rfl
@[simp] theorem spiWrite_bw (b : List Byte) (s : State) : (spiWrite b s).bw = s.bw := rfl
@[simp] theorem spiWrite_trace (b : List Byte) (s : State) : (spiWrite b s).trace = s.trace ++ [.spiWrite b] := rfl
@[simp] theorem spiWrite_port (b : List Byte) (s : State) : (spiWrite b s).port = s.port := rfl
@[simp] theorem spiWrite_result (b : List Byte) (s : State) : (spiWrite b s).result = s.result := rfl
@[simp] theorem spiWrite_busy (b : List Byte) (s : State) : (spiWrite b s).busy = s.busy := rfl
@[simp] theorem spiWrite_samples (b : List Byte) (s : State) : (spiWrite b s).samples = s.samples := rfl

@[simp] theorem pinOpen_fb (r : Role) (d : Dir) (s : State) : (pinOpen r d s).fb = s.fb := rfl
@[simp] theorem pinOpen_init (r : Role) (d : Dir) (s : State) : (pinOpen r d s).init = s.init := rfl
@[simp] theorem pinOpen_cfg (r : Role) (d : Dir) (s : State) : (pinOpen r d s).cfg = s.cfg := rfl
@[simp] theorem pinOpen_pinState (r : Role) (d : Dir) (s : State) : (pinOpen r d s).pinState = s.pinState.set r (openMode d) := rfl
@[simp] theorem pinOpen_pinLevel (r : Role) (d : Dir) (s : State) : (pinOpen r d s).pinLevel = s.pinLevel.release r := rfl
@[simp] theorem pinOpen_seq (r : Role) (d : Dir) (s : State) : (pinOpen r d s).seq = s.seq := rfl
@[simp] theorem pinOpen_bw (r : Role) (d : Dir) (s : State) : (pinOpen r d s).bw = s.bw := rfl
@[simp] theorem pinOpen_trace (r : Role) (d : Dir) (s : State) : (pinOpen r d s).trace = s.trace ++ [.pinOpen r d] := rfl
@[simp] theorem pinOpen_port (r : Role) (d : Dir) (s : State) : (pinOpen r d s).port = s.port := rfl
@[simp] theorem pinOpen_result (r : Role) (d : Dir) (s : State) : (pinOpen r d s).result = s.result := rfl
@[simp] theorem pinOpen_busy (r : Role) (d : Dir) (s : State) : (pinOpen r d s).busy = s.busy := rfl
@[simp] theorem pinOpen_samples (r : Role) (d : Dir) (s : State) : (pinOpen r d s).samples = s.samples := rfl

@[simp] theorem pinClose_fb (r : Role) (s : State) : (pinClose r s).fb = s.fb := rfl
@[simp] theorem pinClose_init (r : Role) (s : State) : (pinClose r s).init = s.init := rfl
@[simp] theorem pinClose_cfg (r : Role) (s : State) : (pinClose r s).cfg = s.cfg := rfl
@[simp] theorem pinClose_pinState (r : Role) (s : State) : (pinClose r s).pinState = s.pinState.set r .closed := rfl
@[simp] theorem pinClose_pinLevel (r : Role) (s : State) : (pinClose r s).pinLevel = s.pinLevel.release r := rfl
@[simp] theorem pinClose_seq (r : Role) (s : State) : (pinClose r s).seq = s.seq := rfl
@[simp] theorem pinClose_bw (r : Role) (s : State) : (pinClose r s).bw = s.bw := rfl
@[simp] theorem pinClose_trace (r : Role) (s : State) : (pinClose r s).trace = s.trace ++ [.pinClose r] := rfl
@[simp] theorem pinClose_port (r : Role) (s : State) : (pinClose r s).port = s.port := rfl
@[simp] theorem pinClose_result (r : Role) (s : State) : (pinClose r s).result = s.result := rfl
@[simp] theorem pinClose_busy (r : Role) (s : State) : (pinClose r s).busy = s.busy := rfl
@[simp] theorem pinClose_samples (r : Role) (s : State) : (pinClose r s).samples = s.samples := rfl

@[simp] theorem pinWrite_fb (r : OutRole) (l : Level) (s : State) : (pinWrite r l s).fb = s.fb := rfl
@[simp] theorem pinWrite_init (r : OutRole) (l : Level) (s : State) : (pinWrite r l s).init = s.init := rfl
@[simp] theorem pinWrite_cfg (r : OutRole) (l : Level) (s : State) : (pinWrite r l s).cfg = s.cfg := rfl
@[simp] theorem pinWrite_pinState (r : OutRole) (l : Level) (s : State) : (pinWrite r l s).pinState = s.pinState := rfl
@[simp] theorem pinWrite_pinLevel (r : OutRole) (l : Level) (s : State) : (pinWrite r l s).pinLevel = s.pinLevel.set r (.driven l) := rfl
@[simp] theorem pinWrite_seq (r : OutRole) (l : Level) (s : State) : (pinWrite r l s).seq = s.seq := rfl
@[simp] theorem pinWrite_bw (r : OutRole) (l : Level) (s : State) : (pinWrite r l s).bw = s.bw := rfl
@[simp] theorem pinWrite_trace (r : OutRole) (l : Level) (s : State) : (pinWrite r l s).trace = s.trace ++ [.pinWrite r l] := rfl
@[simp] theorem pinWrite_port (r : OutRole) (l : Level) (s : State) : (pinWrite r l s).port = s.port := rfl
@[simp] theorem pinWrite_result (r : OutRole) (l : Level) (s : State) : (pinWrite r l s).result = s.result := rfl
@[simp] theorem pinWrite_busy (r : OutRole) (l : Level) (s : State) : (pinWrite r l s).busy = s.busy := rfl
@[simp] theorem pinWrite_samples (r : OutRole) (l : Level) (s : State) : (pinWrite r l s).samples = s.samples := rfl

@[simp] theorem takeError_fb (e : Err) (s : State) : (takeError e s).fb = s.fb := rfl
@[simp] theorem takeError_init (e : Err) (s : State) : (takeError e s).init = s.init := rfl
@[simp] theorem takeError_cfg (e : Err) (s : State) : (takeError e s).cfg = s.cfg := rfl
@[simp] theorem takeError_pinState (e : Err) (s : State) : (takeError e s).pinState = s.pinState := rfl
@[simp] theorem takeError_pinLevel (e : Err) (s : State) : (takeError e s).pinLevel = s.pinLevel := rfl
@[simp] theorem takeError_seq (e : Err) (s : State) : (takeError e s).seq = [] := rfl
@[simp] theorem takeError_bw (e : Err) (s : State) : (takeError e s).bw = none := rfl
@[simp] theorem takeError_trace (e : Err) (s : State) : (takeError e s).trace = s.trace := rfl
@[simp] theorem takeError_port (e : Err) (s : State) : (takeError e s).port = s.port := rfl
@[simp] theorem takeError_result (e : Err) (s : State) : (takeError e s).result = some (.err e) := rfl
@[simp] theorem takeError_busy (e : Err) (s : State) : (takeError e s).busy = s.busy := rfl
@[simp] theorem takeError_samples (e : Err) (s : State) : (takeError e s).samples = s.samples := rfl

@[simp] theorem finish_fb (v : Value) (s : State) : (finish v s).fb = s.fb := rfl
@[simp] theorem finish_init (v : Value) (s : State) : (finish v s).init = s.init := rfl
@[simp] theorem finish_cfg (v : Value) (s : State) : (finish v s).cfg = s.cfg := rfl
@[simp] theorem finish_pinState (v : Value) (s : State) : (finish v s).pinState = s.pinState := rfl
@[simp] theorem finish_pinLevel (v : Value) (s : State) : (finish v s).pinLevel = s.pinLevel := rfl
@[simp] theorem finish_seq (v : Value) (s : State) : (finish v s).seq = [] := rfl
@[simp] theorem finish_bw (v : Value) (s : State) : (finish v s).bw = s.bw := rfl
@[simp] theorem finish_trace (v : Value) (s : State) : (finish v s).trace = s.trace := rfl
@[simp] theorem finish_port (v : Value) (s : State) : (finish v s).port = s.port := rfl
@[simp] theorem finish_result (v : Value) (s : State) : (finish v s).result = some (.ok v) := rfl
@[simp] theorem finish_busy (v : Value) (s : State) : (finish v s).busy = s.busy := rfl
@[simp] theorem finish_samples (v : Value) (s : State) : (finish v s).samples = s.samples := rfl

@[simp] theorem beginWait_fb (s : State) : (beginWait s).fb = s.fb := rfl
@[simp] theorem beginWait_init (s : State) : (beginWait s).init = s.init := rfl
@[simp] theorem beginWait_cfg (s : State) : (beginWait s).cfg = s.cfg := rfl
@[simp] theorem beginWait_pinState (s : State) : (beginWait s).pinState = s.pinState := rfl
@[simp] theorem beginWait_pinLevel (s : State) : (beginWait s).pinLevel = s.pinLevel := rfl
@[simp] theorem beginWait_seq (s : State) : (beginWait s).seq = s.seq := rfl
@[simp] theorem beginWait_bw (s : State) : (beginWait s).bw = some { n := 0, elapsedMs := 0 } := rfl
@[simp] theorem beginWait_trace (s : State) : (beginWait s).trace = s.trace := rfl
@[simp] theorem beginWait_port (s : State) : (beginWait s).port = s.port := rfl
@[simp] theorem beginWait_result (s : State) : (beginWait s).result = s.result := rfl
@[simp] theorem beginWait_busy (s : State) : (beginWait s).busy = s.busy := rfl
@[simp] theorem beginWait_samples (s : State) : (beginWait s).samples = s.samples := rfl

@[simp] theorem endWait_fb (s : State) : (endWait s).fb = s.fb := rfl
@[simp] theorem endWait_init (s : State) : (endWait s).init = s.init := rfl
@[simp] theorem endWait_cfg (s : State) : (endWait s).cfg = s.cfg := rfl
@[simp] theorem endWait_pinState (s : State) : (endWait s).pinState = s.pinState := rfl
@[simp] theorem endWait_pinLevel (s : State) : (endWait s).pinLevel = s.pinLevel := rfl
@[simp] theorem endWait_seq (s : State) : (endWait s).seq = s.seq := rfl
@[simp] theorem endWait_bw (s : State) : (endWait s).bw = none := rfl
@[simp] theorem endWait_trace (s : State) : (endWait s).trace = s.trace := rfl
@[simp] theorem endWait_port (s : State) : (endWait s).port = s.port := rfl
@[simp] theorem endWait_result (s : State) : (endWait s).result = s.result := rfl
@[simp] theorem endWait_busy (s : State) : (endWait s).busy = s.busy := rfl
@[simp] theorem endWait_samples (s : State) : (endWait s).samples = s.samples := rfl

@[simp] theorem readBusy_fb (s : State) : (readBusy s).fb = s.fb := rfl
@[simp] theorem readBusy_init (s : State) : (readBusy s).init = s.init := rfl
@[simp] theorem readBusy_cfg (s : State) : (readBusy s).cfg = s.cfg := rfl
@[simp] theorem readBusy_pinState (s : State) : (readBusy s).pinState = s.pinState := rfl
@[simp] theorem readBusy_pinLevel (s : State) : (readBusy s).pinLevel = s.pinLevel := rfl
@[simp] theorem readBusy_seq (s : State) : (readBusy s).seq = s.seq := rfl
@[simp] theorem readBusy_bw (s : State) : (readBusy s).bw = s.bw := rfl
@[simp] theorem readBusy_trace (s : State) : (readBusy s).trace = s.trace ++ [.pinRead .busy (nextSample s).level] := rfl
@[simp] theorem readBusy_port (s : State) : (readBusy s).port = s.port := rfl
@[simp] theorem readBusy_result (s : State) : (readBusy s).result = s.result := rfl
@[simp] theorem readBusy_busy (s : State) : (readBusy s).busy = s.busy.tail := rfl
@[simp] theorem readBusy_samples (s : State) : (readBusy s).samples = s.samples + 1 := rfl

@[simp] theorem setInit_fb (s : State) : (setInit s).fb = s.fb := rfl
@[simp] theorem setInit_init (s : State) : (setInit s).init = true := rfl
@[simp] theorem setInit_cfg (s : State) : (setInit s).cfg = s.cfg := rfl
@[simp] theorem setInit_pinState (s : State) : (setInit s).pinState = s.pinState := rfl
@[simp] theorem setInit_pinLevel (s : State) : (setInit s).pinLevel = s.pinLevel := rfl
@[simp] theorem setInit_seq (s : State) : (setInit s).seq = s.seq := rfl
@[simp] theorem setInit_bw (s : State) : (setInit s).bw = s.bw := rfl
@[simp] theorem setInit_trace (s : State) : (setInit s).trace = s.trace := rfl
@[simp] theorem setInit_port (s : State) : (setInit s).port = s.port := rfl
@[simp] theorem setInit_result (s : State) : (setInit s).result = s.result := rfl
@[simp] theorem setInit_busy (s : State) : (setInit s).busy = s.busy := rfl
@[simp] theorem setInit_samples (s : State) : (setInit s).samples = s.samples := rfl

@[simp] theorem goto_fb (q : List Pos) (s : State) : (goto q s).fb = s.fb := rfl
@[simp] theorem goto_init (q : List Pos) (s : State) : (goto q s).init = s.init := rfl
@[simp] theorem goto_cfg (q : List Pos) (s : State) : (goto q s).cfg = s.cfg := rfl
@[simp] theorem goto_pinState (q : List Pos) (s : State) : (goto q s).pinState = s.pinState := rfl
@[simp] theorem goto_pinLevel (q : List Pos) (s : State) : (goto q s).pinLevel = s.pinLevel := rfl
@[simp] theorem goto_seq (q : List Pos) (s : State) : (goto q s).seq = q := rfl
@[simp] theorem goto_bw (q : List Pos) (s : State) : (goto q s).bw = s.bw := rfl
@[simp] theorem goto_trace (q : List Pos) (s : State) : (goto q s).trace = s.trace := rfl
@[simp] theorem goto_port (q : List Pos) (s : State) : (goto q s).port = s.port := rfl
@[simp] theorem goto_result (q : List Pos) (s : State) : (goto q s).result = s.result := rfl
@[simp] theorem goto_busy (q : List Pos) (s : State) : (goto q s).busy = s.busy := rfl
@[simp] theorem goto_samples (q : List Pos) (s : State) : (goto q s).samples = s.samples := rfl

@[simp] theorem writeCell_fb (x y : Coord) (c : Color) (s : State) : (writeCell x y c s).fb = Memory.set s.fb (cellKey x.toNat y.toNat) c := rfl
@[simp] theorem writeCell_init (x y : Coord) (c : Color) (s : State) : (writeCell x y c s).init = s.init := rfl
@[simp] theorem writeCell_cfg (x y : Coord) (c : Color) (s : State) : (writeCell x y c s).cfg = s.cfg := rfl
@[simp] theorem writeCell_pinState (x y : Coord) (c : Color) (s : State) : (writeCell x y c s).pinState = s.pinState := rfl
@[simp] theorem writeCell_pinLevel (x y : Coord) (c : Color) (s : State) : (writeCell x y c s).pinLevel = s.pinLevel := rfl
@[simp] theorem writeCell_seq (x y : Coord) (c : Color) (s : State) : (writeCell x y c s).seq = s.seq := rfl
@[simp] theorem writeCell_bw (x y : Coord) (c : Color) (s : State) : (writeCell x y c s).bw = s.bw := rfl
@[simp] theorem writeCell_trace (x y : Coord) (c : Color) (s : State) : (writeCell x y c s).trace = s.trace := rfl
@[simp] theorem writeCell_port (x y : Coord) (c : Color) (s : State) : (writeCell x y c s).port = s.port := rfl
@[simp] theorem writeCell_result (x y : Coord) (c : Color) (s : State) : (writeCell x y c s).result = s.result := rfl
@[simp] theorem writeCell_busy (x y : Coord) (c : Color) (s : State) : (writeCell x y c s).busy = s.busy := rfl
@[simp] theorem writeCell_samples (x y : Coord) (c : Color) (s : State) : (writeCell x y c s).samples = s.samples := rfl

@[simp] theorem construct_fb (c : Cfg) : (State.construct c).fb = [] := rfl
@[simp] theorem construct_init (c : Cfg) : (State.construct c).init = false := rfl
@[simp] theorem construct_cfg (c : Cfg) : (State.construct c).cfg = c := rfl
@[simp] theorem construct_pinState (c : Cfg) : (State.construct c).pinState = closedModes := rfl
@[simp] theorem construct_pinLevel (c : Cfg) : (State.construct c).pinLevel = undrivenLevels := rfl
@[simp] theorem construct_seq (c : Cfg) : (State.construct c).seq = [] := rfl
@[simp] theorem construct_bw (c : Cfg) : (State.construct c).bw = none := rfl
@[simp] theorem construct_trace (c : Cfg) : (State.construct c).trace = [] := rfl
@[simp] theorem construct_port (c : Cfg) : (State.construct c).port = [] := rfl
@[simp] theorem construct_result (c : Cfg) : (State.construct c).result = none := rfl
@[simp] theorem construct_busy (c : Cfg) : (State.construct c).busy = [] := rfl
@[simp] theorem construct_samples (c : Cfg) : (State.construct c).samples = 0 := rfl

/-- The memory of the reset state has its canonical form. -/
theorem reset_cells_wf : Memory.wf State.reset.fb = true := rfl

/-- The configuration at reset is legal whatever the free polling interval is. -/
theorem reset_cfg_legal : State.reset.cfg.legal = true := rfl

end Sys2Proof.Machine
end

