-- ==== Sys2Proof/Laws/Arrays.lean ====
section
/-! SUPPORT. Arrays: their shape and elements, flattening, the mirrors, and packing two cells to a byte. -/

namespace Sys2Proof

variable {α : Type}

/-! ### Shape and elements -/

theorem Grid.rect_iff (g : Grid α) : g.rect = true ↔ ∀ r ∈ g.rows, r.length = g.cols := by
  simp [Grid.rect]

@[simp] theorem Grid.build_cols (n0 n1 : Nat) (f : Nat → Nat → α) : (Grid.build n0 n1 f).cols = n1 := rfl

@[simp] theorem Grid.build_rows_length (n0 n1 : Nat) (f : Nat → Nat → α) : (Grid.build n0 n1 f).rows.length = n0 := by
  simp [Grid.build]

theorem Grid.build_rect (n0 n1 : Nat) (f : Nat → Nat → α) : (Grid.build n0 n1 f).rect = true := by
  rw [Grid.rect_iff]
  intro r hr
  simp only [Grid.build, List.mem_map] at hr
  obtain ⟨i, -, rfl⟩ := hr
  simp

theorem Grid.build_at {n0 n1 : Nat} (f : Nat → Nat → α) {i j : Nat} (hi : i < n0) (hj : j < n1) :
    (Grid.build n0 n1 f).at? i j = some (f i j) := by
  simp [Grid.at?, Grid.build, hi, hj]

/-- An element inside the shape exists. -/
theorem Grid.at_isSome {g : Grid α} (h : g.rect = true) {i j : Nat} (hi : i < g.rows.length) (hj : j < g.cols) :
    (g.at? i j).isSome = true := by
  have hr := (Grid.rect_iff g).1 h _ (List.getElem_mem hi)
  simp [Grid.at?, List.getElem?_eq_getElem hi, hr, hj]

/-- An array of a shape is determined by its elements. -/
theorem Grid.ext_at {g g' : Grid α} (h : g.rect = true) (h' : g'.rect = true) (hc : g.cols = g'.cols)
    (hn : g.rows.length = g'.rows.length)
    (he : ∀ i j, i < g.rows.length → j < g.cols → g.at? i j = g'.at? i j) : g = g' := by
  rw [Grid.rect_iff] at h h'
  obtain ⟨c, rows⟩ := g
  obtain ⟨c', rows'⟩ := g'
  obtain rfl : c = c' := hc
  congr 1
  refine List.ext_getElem hn fun i hi hi' => ?_
  refine List.ext_getElem ?_ fun j hj hj' => ?_
  · rw [h _ (List.getElem_mem hi), h' _ (List.getElem_mem hi')]
  · have := he i j hi (by rw [h _ (List.getElem_mem hi)] at hj; exact hj)
    simpa [Grid.at?, hi, hi', hj, hj'] using this

/-! ### Flattening -/

theorem flatten_length (rows : List (List α)) (n1 : Nat) (h : ∀ r ∈ rows, r.length = n1) :
    rows.flatten.length = rows.length * n1 := by
  induction rows with
  | nil => simp
  | cons r rows ih =>
    simp only [List.flatten_cons, List.length_append, List.length_cons]
    rw [ih fun r hr => h r (by simp [hr]), h r (by simp), Nat.succ_mul, Nat.add_comm]

theorem flatten_get (rows : List (List α)) (n1 : Nat) (h : ∀ r ∈ rows, r.length = n1) (i j : Nat) (hj : j < n1) :
    rows.flatten[i * n1 + j]? = (rows[i]?).bind fun r => r[j]? := by
  induction rows generalizing i with
  | nil => simp
  | cons r rows ih =>
    have hr := h r (by simp)
    have ih := ih fun r hr => h r (by simp [hr])
    rw [List.flatten_cons]
    cases i with
    | zero => simp [List.getElem?_append, hr, hj]
    | succ i =>
      rw [List.getElem?_append_right (by rw [hr, Nat.succ_mul]; omega), hr]
      have : (i + 1) * n1 + j - n1 = i * n1 + j := by rw [Nat.succ_mul]; omega
      rw [this, ih i]
      rfl

theorem Grid.flat_length {g : Grid α} (h : g.rect = true) : g.flat.length = g.rows.length * g.cols :=
  flatten_length g.rows g.cols ((Grid.rect_iff g).1 h)

/-- Element `i * N1 + j` of the row-major sequence is the element at `[i, j]` (R220). -/
theorem Grid.flat_get {g : Grid α} (h : g.rect = true) (i : Nat) {j : Nat} (hj : j < g.cols) :
    g.flat[i * g.cols + j]? = g.at? i j := by
  rw [Grid.flat, flatten_get g.rows g.cols ((Grid.rect_iff g).1 h) i j hj, Grid.at?]
  cases g.rows[i]? <;> rfl

/-- The row-major sequence of a built array at one index. -/
theorem Grid.flat_build {n0 n1 : Nat} (f : Nat → Nat → α) {k : Nat} (hk : k < n0 * n1) :
    (Grid.build n0 n1 f).flat[k]? = some (f (k / n1) (k % n1)) := by
  have h1 : 0 < n1 := by
    rcases Nat.eq_zero_or_pos n1 with rfl | h
    · simp at hk
    · exact h
  have hi : k / n1 < n0 := by rw [Nat.div_lt_iff_lt_mul h1]; exact hk
  have hj : k % n1 < n1 := Nat.mod_lt _ h1
  have := Grid.flat_get (Grid.build_rect n0 n1 f) (k / n1) (j := k % n1) hj
  rw [Grid.build_cols, Grid.build_at f hi hj] at this
  rw [← this, Nat.mul_comm, Nat.div_add_mod]

/-! ### Mirrors -/

theorem Grid.mirrorCols_rect {g : Grid α} (h : g.rect = true) : g.mirrorCols.rect = true := by
  rw [Grid.rect_iff] at *
  intro r hr
  simp only [Grid.mirrorCols, List.mem_map] at hr
  obtain ⟨r', hr', rfl⟩ := hr
  simpa [Grid.mirrorCols] using h r' hr'

theorem Grid.mirrorRows_rect {g : Grid α} (h : g.rect = true) : g.mirrorRows.rect = true := by
  rw [Grid.rect_iff] at *
  intro r hr
  exact h r (by simpa [Grid.mirrorRows] using hr)

/-- MIRROR_COLUMNS, element by element (R221). -/
theorem Grid.mirrorCols_at {g : Grid α} (h : g.rect = true) {i j : Nat} (hi : i < g.rows.length) (hj : j < g.cols) :
    g.mirrorCols.at? i j = g.at? i (g.cols - 1 - j) := by
  have hr := (Grid.rect_iff g).1 h _ (List.getElem_mem hi)
  simp only [Grid.at?, Grid.mirrorCols, List.getElem?_map, List.getElem?_eq_getElem hi, Option.map_some]
  rw [List.getElem?_reverse (by omega), hr]

/-- MIRROR_ROWS, element by element (R222). -/
theorem Grid.mirrorRows_at {g : Grid α} {i : Nat} (j : Nat) (hi : i < g.rows.length) :
    g.mirrorRows.at? i j = g.at? (g.rows.length - 1 - i) j := by
  simp only [Grid.at?, Grid.mirrorRows]
  rw [List.getElem?_reverse hi]

theorem Grid.build_mirrorCols (n0 n1 : Nat) (f : Nat → Nat → α) :
    (Grid.build n0 n1 f).mirrorCols = Grid.build n0 n1 fun i j => f i (n1 - 1 - j) := by
  refine Grid.ext_at (Grid.mirrorCols_rect (Grid.build_rect ..)) (Grid.build_rect ..) rfl ?_ fun i j hi hj => ?_
  · simp [Grid.mirrorCols]
  · have hi : i < n0 := by simpa [Grid.mirrorCols] using hi
    have hj : j < n1 := hj
    rw [Grid.mirrorCols_at (Grid.build_rect ..) (by simpa using hi) hj, Grid.build_cols, Grid.build_at f hi (by omega),
      Grid.build_at _ hi hj]

theorem Grid.build_mirrorRows (n0 n1 : Nat) (f : Nat → Nat → α) :
    (Grid.build n0 n1 f).mirrorRows = Grid.build n0 n1 fun i j => f (n0 - 1 - i) j := by
  refine Grid.ext_at (Grid.mirrorRows_rect (Grid.build_rect ..)) (Grid.build_rect ..) rfl ?_ fun i j hi hj => ?_
  · simp [Grid.mirrorRows]
  · have hi : i < n0 := by simpa [Grid.mirrorRows] using hi
    have hj : j < n1 := hj
    rw [Grid.mirrorRows_at j (by simpa using hi), Grid.build_rows_length, Grid.build_at f (by omega) hj,
      Grid.build_at _ hi hj]

end Sys2Proof

namespace Sys2Proof.Machine

/-! ### Packing -/

theorem pack_length (l : List Color) : (pack l).length = l.length / 2 := by
  induction l using pack.induct with
  | case1 a b r ih => simp only [pack, List.length_cons, ih]; omega
  | case2 l h =>
    match l, h with
    | [], _ => rfl
    | [a], _ => simp [pack]
    | a :: b :: r, h => exact absurd rfl (h a b r)

/-- Byte `k` of the packed sequence holds elements `2 k` and `2 k + 1` (R199). -/
theorem pack_get (l : List Color) (k : Nat) {a b : Color} (ha : l[2 * k]? = some a) (hb : l[2 * k + 1]? = some b) :
    (pack l)[k]? = some (pixByte a b) := by
  induction k generalizing l with
  | zero =>
    match l, ha, hb with
    | x :: y :: r, ha, hb =>
      simp only [Nat.mul_zero, List.getElem?_cons_zero, Option.some.injEq] at ha
      simp only [Nat.mul_zero, List.getElem?_cons_succ, List.getElem?_cons_zero, Option.some.injEq] at hb
      simp [pack, ha, hb]
  | succ k ih =>
    match l, ha, hb with
    | x :: y :: r, ha, hb =>
      have e : 2 * (k + 1) = 2 * k + 1 + 1 := by omega
      rw [e] at ha hb
      simp only [List.getElem?_cons_succ] at ha hb
      simpa [pack] using ih r ha hb

/-- The first cell of a packed byte is its high nibble, the second its low nibble (R74). -/
theorem pixByte_eq (a b : Color) : pixByte a b = BitVec.ofNat 8 (16 * a.toByte.toNat + b.toByte.toNat) := by
  cases a <;> cases b <;> decide

theorem pixByte_high (a b : Color) : (pixByte a b).toNat / 16 = a.toByte.toNat := by
  cases a <;> cases b <;> decide

theorem pixByte_low (a b : Color) : (pixByte a b).toNat % 16 = b.toByte.toNat := by
  cases a <;> cases b <;> decide

/-! ### The orientation transform -/

theorem orient_rect {α : Type} (w h : Nat) (hf vf : Bool) (f : Nat → Nat → α) : (orient w h hf vf f).rect = true := by
  cases hf <;> cases vf <;> exact Grid.build_rect ..

/-- The flattened transform at one index: the closed forms of the flattened sequence (R196, R201). -/
theorem orient_flat {α : Type} {w h : Nat} (hf vf : Bool) (f : Nat → Nat → α) {k : Nat} (hk : k < w * h) :
    (orient w h hf vf f).flat[k]? = some (match hf, vf with
      | false, false => f (k / h) (k % h)
      | true, false => f (k % w) (h - 1 - k / w)
      | false, true => f (w - 1 - k % w) (k / w)
      | true, true => f (w - 1 - k / h) (h - 1 - k % h)) := by
  cases hf <;> cases vf <;> first
    | exact Grid.flat_build _ hk
    | exact Grid.flat_build _ (by rw [Nat.mul_comm]; exact hk)

theorem transform_rect (c : Cfg) (m : Memory) : (transform c m).rect = true := orient_rect ..

theorem transform_flat_length (c : Cfg) (m : Memory) : (transform c m).flat.length = 268800 := by
  rw [Grid.flat_length (transform_rect c m), transform]
  cases c.hflip <;> cases c.vflip <;> simp [orient, gridW_eq, gridH_eq]

theorem renderImage_length (c : Cfg) (m : Memory) : (renderImage c m).length = 134400 := by
  rw [renderImage, pack_length, transform_flat_length]

end Sys2Proof.Machine
end

