-- ==== Sys2Proof/Laws/Codec.lean ====
section
/-! SUPPORT. Every operand reader reads back what its writer wrote, and leaves the bytes after it. -/

namespace Sys2Proof

@[simp] theorem parseThen_ok {α β : Type} (v : α) (r : List Byte) (k : α → List Byte → Parsed β) :
    parseThen (.ok (v, r)) k = k v r := rfl

@[simp] theorem getByte_cons (b : Byte) (t : List Byte) : getByte (b :: t) = .ok (b, t) := rfl

theorem getNat_putDigits (fuel n : Nat) (t : List Byte) (h : n < 128 ^ (fuel + 1)) :
    getNat (putDigits fuel n ++ t) = .ok (n, t) := by
  induction fuel generalizing n with
  | zero =>
    have hn : n < 128 := by simpa using h
    simp only [putDigits, List.singleton_append, getNat, BitVec.toNat_ofNat]
    rw [Nat.mod_eq_of_lt hn, Nat.mod_eq_of_lt (by omega), if_pos hn]
  | succ fuel ih =>
    simp only [putDigits]
    split
    · next hn =>
      simp only [List.singleton_append, getNat, BitVec.toNat_ofNat]
      rw [Nat.mod_eq_of_lt (by omega), if_pos hn]
    · next hn =>
      have hd : n / 128 < 128 ^ (fuel + 1) := by
        rw [Nat.div_lt_iff_lt_mul (by omega)]
        simpa [Nat.pow_succ] using h
      have hm : n % 128 + 128 < 2 ^ 8 := by omega
      simp only [List.cons_append, getNat, BitVec.toNat_ofNat, Nat.mod_eq_of_lt hm, ih _ hd, parseThen_ok]
      rw [if_neg (by omega)]
      congr 2
      omega

@[simp] theorem getNat_putNat (n : Nat) (t : List Byte) : getNat (putNat n ++ t) = .ok (n, t) :=
  getNat_putDigits n n t (Nat.lt_of_lt_of_le (Nat.lt_pow_self (by decide)) (Nat.pow_le_pow_right (by decide) (by omega)))

@[simp] theorem getRaw_append (bs t : List Byte) : getRaw bs.length (bs ++ t) = .ok (bs, t) := by
  induction bs with
  | nil => rfl
  | cons b bs ih => simp [getRaw, ih]

@[simp] theorem getBytes_putBytes (bs t : List Byte) : getBytes (putBytes bs ++ t) = .ok (bs, t) := by
  simp [getBytes, putBytes, List.append_assoc]

theorem ofByte_toByte (c : Color) : Color.ofByte c.toByte = some c := by
  cases c <;> decide

@[simp] theorem getColor_toByte (c : Color) (t : List Byte) : getColor (c.toByte :: t) = .ok (c, t) := by
  simp [getColor, ofByte_toByte]

@[simp] theorem getRole_putRole (r : Role) (t : List Byte) : getRole (putRole r :: t) = .ok (r, t) := by
  cases r <;> rfl

@[simp] theorem getCoord_putCoord (v : Coord) (t : List Byte) : getCoord (putCoord v ++ t) = .ok (v, t) := by
  simp only [getCoord, putCoord, List.cons_append, List.nil_append, getByte_cons, parseThen_ok, Except.ok.injEq,
    Prod.mk.injEq, and_true]
  apply BitVec.eq_of_getElem_eq
  intro i hi
  simp only [BitVec.getElem_append, BitVec.getElem_extractLsb']
  split
  · simp [← BitVec.getLsbD_eq_getElem]
  · split
    · rw [← BitVec.getLsbD_eq_getElem]; congr 1; omega
    · split
      · rw [← BitVec.getLsbD_eq_getElem]; congr 1; omega
      · rw [← BitVec.getLsbD_eq_getElem]; congr 1; omega

@[simp] theorem getNats_putNats (vs : List Nat) (t : List Byte) :
    getNats vs.length (putNats vs ++ t) = .ok (vs, t) := by
  induction vs with
  | nil => rfl
  | cons v vs ih => simp [getNats, putNats, List.append_assoc, ih]

theorem getRows_putRows (cols : Nat) (rows : List (List Nat)) (h : ∀ r ∈ rows, r.length = cols) (t : List Byte) :
    getRows rows.length cols (putRows rows ++ t) = .ok (rows, t) := by
  induction rows with
  | nil => rfl
  | cons r rows ih =>
    have hr : cols = r.length := (h r (by simp)).symm
    have ih := ih fun r hm => h r (by simp [hm])
    subst hr
    simp [getRows, putRows, List.append_assoc, ih]

theorem getGrid_putGrid {g : Grid Nat} (h : g.rect = true) (t : List Byte) : getGrid (putGrid g ++ t) = .ok (g, t) := by
  have hr : ∀ r ∈ g.rows, r.length = g.cols := by simpa [Grid.rect] using h
  simp [getGrid, putGrid, List.append_assoc, getRows_putRows g.cols g.rows hr]

@[simp] theorem getHandlers_putHandlers (h : Handlers) (t : List Byte) :
    getHandlers (putHandlers h ++ t) = .ok (h, t) := by
  simp [getHandlers, putHandlers, List.append_assoc]

/-- A selector byte and its operand bytes are the operation the selector's reader gives, when nothing is left. -/
theorem decodeOp_cons {sel : Byte} {r : List Byte} {i : Instr} (h : decodeOperands sel.toNat r = .ok (i, [])) :
    decodeOp (sel :: r) = .ok i := by
  simp [decodeOp, decodeHop, h]

end Sys2Proof
end

