-- ==== Sys2Proof/Laws/Memory.lean ====
section
/-! SUPPORT. The cell store: reading after writing, and that a write keeps the canonical form. -/

namespace Sys2Proof.Machine

theorem Memory.wfFrom_mono {lo lo' : Nat} {m : Memory} (h : Memory.wfFrom lo m = true) (hle : lo' ≤ lo) :
    Memory.wfFrom lo' m = true := by
  cases m with
  | nil => rfl
  | cons p m =>
    obtain ⟨k, c⟩ := p
    simp only [Memory.wfFrom, Bool.and_eq_true, decide_eq_true_eq] at h ⊢
    exact ⟨⟨⟨by omega, h.1.1.2⟩, h.1.2⟩, h.2⟩

/-- A key below the first listed one holds Black. -/
theorem Memory.get_below {lo k : Nat} {m : Memory} (h : Memory.wfFrom lo m = true) (hk : k < lo) :
    Memory.get m k = .black := by
  induction m generalizing lo with
  | nil => rfl
  | cons p m ih =>
    obtain ⟨k', c⟩ := p
    simp only [Memory.wfFrom, Bool.and_eq_true, decide_eq_true_eq] at h
    rw [Memory.get, if_neg (by omega)]
    exact ih h.2 (by omega)

theorem Memory.get_cons (k : Nat) (c : Color) {m : Memory} (h : Memory.wfFrom (k + 1) m = true) (k' : Nat) :
    Memory.get (Memory.cons k c m) k' = if k' = k then c else Memory.get m k' := by
  unfold Memory.cons
  split
  · next hc =>
    split
    · next hk => subst hk; rw [hc]; exact Memory.get_below h (by omega)
    · rfl
  · simp [Memory.get, eq_comm]

/-- Reading after writing: the written key holds the colour, every other key what it held. -/
theorem Memory.get_set {lo : Nat} {m : Memory} (h : Memory.wfFrom lo m = true) (k : Nat) (c : Color) (k' : Nat) :
    Memory.get (Memory.set m k c) k' = if k' = k then c else Memory.get m k' := by
  induction m generalizing lo with
  | nil => exact Memory.get_cons k c rfl k'
  | cons p m ih =>
    obtain ⟨k₀, c₀⟩ := p
    simp only [Memory.wfFrom, Bool.and_eq_true, decide_eq_true_eq] at h
    unfold Memory.set
    split
    · next hlt =>
      refine Memory.get_cons k c ?_ k'
      simp [Memory.wfFrom, h, hlt]
    · split
      · next heq =>
        subst heq
        rw [Memory.get_cons k c h.2 k', Memory.get]
        split
        · rfl
        · next hne => rw [if_neg (Ne.symm hne)]
      · next hgt hne =>
        rw [Memory.get, Memory.get, ih h.2]
        split
        · next h1 => subst h1; rw [if_neg (Ne.symm hne)]
        · rfl

theorem Memory.wfFrom_cons {lo k : Nat} {c : Color} {m : Memory} (hlo : lo ≤ k) (hk : k < nCells)
    (h : Memory.wfFrom (k + 1) m = true) : Memory.wfFrom lo (Memory.cons k c m) = true := by
  unfold Memory.cons
  split
  · exact Memory.wfFrom_mono h (by omega)
  · next hc => simp [Memory.wfFrom, hlo, hk, hc, h]

theorem Memory.wfFrom_set {lo k : Nat} {c : Color} {m : Memory} (h : Memory.wfFrom lo m = true) (hlo : lo ≤ k)
    (hk : k < nCells) : Memory.wfFrom lo (Memory.set m k c) = true := by
  induction m generalizing lo with
  | nil => exact Memory.wfFrom_cons hlo hk rfl
  | cons p m ih =>
    obtain ⟨k₀, c₀⟩ := p
    simp only [Memory.wfFrom, Bool.and_eq_true, decide_eq_true_eq] at h
    unfold Memory.set
    split
    · next hlt =>
      refine Memory.wfFrom_cons hlo hk ?_
      simp [Memory.wfFrom, h, hlt]
    · split
      · next heq => subst heq; exact Memory.wfFrom_cons hlo hk h.2
      · next hgt hne =>
        have := ih (lo := k₀ + 1) h.2 (by omega)
        simp [Memory.wfFrom, h, this]

/-- A write inside the grid keeps the canonical form. -/
theorem Memory.wf_set {k : Nat} {c : Color} {m : Memory} (h : Memory.wf m = true) (hk : k < nCells) :
    Memory.wf (Memory.set m k c) = true :=
  Memory.wfFrom_set h (Nat.zero_le k) hk

/-- Two stores in canonical form that read alike at every key are equal. -/
theorem Memory.wfFrom_ext {lo lo' : Nat} {m m' : Memory} (h : Memory.wfFrom lo m = true)
    (h' : Memory.wfFrom lo' m' = true) (he : ∀ k, Memory.get m k = Memory.get m' k) : m = m' := by
  induction m generalizing lo lo' m' with
  | nil =>
    cases m' with
    | nil => rfl
    | cons p m' =>
      obtain ⟨k, c⟩ := p
      simp only [Memory.wfFrom, Bool.and_eq_true, decide_eq_true_eq] at h'
      have := he k
      simp [Memory.get] at this
      exact absurd this.symm h'.1.2
  | cons p m ih =>
    obtain ⟨k, c⟩ := p
    simp only [Memory.wfFrom, Bool.and_eq_true, decide_eq_true_eq] at h
    cases m' with
    | nil =>
      have := he k
      simp [Memory.get] at this
      exact absurd this h.1.2
    | cons p' m' =>
      obtain ⟨k', c'⟩ := p'
      simp only [Memory.wfFrom, Bool.and_eq_true, decide_eq_true_eq] at h'
      have hk : k = k' := by
        rcases Nat.lt_trichotomy k k' with hlt | heq | hlt
        · have := he k
          rw [Memory.get, if_pos rfl, Memory.get, if_neg (by omega), Memory.get_below h'.2 (by omega)] at this
          exact absurd this h.1.2
        · exact heq
        · have := he k'
          rw [Memory.get, if_neg (by omega), Memory.get, if_pos rfl, Memory.get_below h.2 (by omega)] at this
          exact absurd this.symm h'.1.2
      subst hk
      have hc : c = c' := by simpa [Memory.get] using he k
      subst hc
      congr 1
      refine ih h.2 h'.2 fun j => ?_
      have := he j
      by_cases hj : k = j
      · subst hj
        rw [Memory.get_below h.2 (by omega), Memory.get_below h'.2 (by omega)]
      · simpa [Memory.get, hj] using this

/-! ### Cells -/

/-- Distinct cells have distinct keys. -/
theorem cellKey_inj {x y x' y' : Nat} (hy : y < gridH) (hy' : y' < gridH) (h : cellKey x y = cellKey x' y') :
    x = x' ∧ y = y' := by
  simp only [cellKey, gridH_eq] at *
  omega

/-- A cell of the grid has a key of the store. -/
theorem cellKey_lt {x y : Nat} (hx : x < gridW) (hy : y < gridH) : cellKey x y < nCells := by
  simp only [cellKey, gridW_eq, gridH_eq, nCells_eq] at *
  omega

/-- Reading a cell after writing a cell of the grid. -/
theorem cell_set {m : Memory} (h : Memory.wf m = true) {x y x' y' : Nat} (hy : y < gridH) (hy' : y' < gridH)
    (c : Color) :
    cell (Memory.set m (cellKey x y) c) x' y' = if x' = x ∧ y' = y then c else cell m x' y' := by
  unfold cell
  rw [Memory.get_set h]
  by_cases he : x' = x ∧ y' = y
  · rw [if_pos he, if_pos (by rw [he.1, he.2])]
  · rw [if_neg he, if_neg]
    intro hk
    exact he (cellKey_inj hy' hy hk)

end Sys2Proof.Machine
end

