-- ==== Sys2Proof/Laws/Frames.lean ====
section
/-! SUPPORT. Frames and register writes: everything one of them can do, in one equation each. -/

namespace Sys2Proof.Machine

/-- The state after wire events of frames whose last has DC level `dc`: the events appended, CS high, DC at that level. -/
def sent (es : List Event) (dc : Level) (s : State) : State :=
  { s with
    trace := s.trace ++ es
    pinLevel := { s.pinLevel with cs := .driven .high, dc := .driven dc } }

@[simp] theorem sent_fb (es : List Event) (dc : Level) (s : State) : (sent es dc s).fb = s.fb := rfl
@[simp] theorem sent_init (es : List Event) (dc : Level) (s : State) : (sent es dc s).init = s.init := rfl
@[simp] theorem sent_cfg (es : List Event) (dc : Level) (s : State) : (sent es dc s).cfg = s.cfg := rfl
@[simp] theorem sent_pinState (es : List Event) (dc : Level) (s : State) : (sent es dc s).pinState = s.pinState := rfl
@[simp] theorem sent_pinLevel (es : List Event) (dc : Level) (s : State) :
    (sent es dc s).pinLevel = { s.pinLevel with cs := .driven .high, dc := .driven dc } := rfl
@[simp] theorem sent_seq (es : List Event) (dc : Level) (s : State) : (sent es dc s).seq = s.seq := rfl
@[simp] theorem sent_bw (es : List Event) (dc : Level) (s : State) : (sent es dc s).bw = s.bw := rfl
@[simp] theorem sent_trace (es : List Event) (dc : Level) (s : State) : (sent es dc s).trace = s.trace ++ es := rfl
@[simp] theorem sent_port (es : List Event) (dc : Level) (s : State) : (sent es dc s).port = s.port := rfl
@[simp] theorem sent_result (es : List Event) (dc : Level) (s : State) : (sent es dc s).result = s.result := rfl
@[simp] theorem sent_busy (es : List Event) (dc : Level) (s : State) : (sent es dc s).busy = s.busy := rfl
@[simp] theorem sent_samples (es : List Event) (dc : Level) (s : State) : (sent es dc s).samples = s.samples := rfl

/-- Frames sent one after the other are their events in order; DC keeps the level of the last. -/
theorem sent_sent (es es' : List Event) (dc dc' : Level) (s : State) :
    sent es' dc' (sent es dc s) = sent (es ++ es') dc' s := by
  simp [sent, List.append_assoc]

theorem frameEvents_eq (dc : Level) (bytes : List Byte) (s : State) :
    frameEvents dc bytes s = sent (frameF dc bytes) dc s := by
  simp [frameEvents, pinWrite, spiWrite, emit, sent, frameF, PinDrives.set]

/-- A frame of no bytes raises ProtocolArgumentError and does nothing (R129). -/
theorem frame_empty (dc : Level) (s : State) : frame dc [] s = .raise .protocolArgument s := rfl

/-- A frame of an uninitialized engine raises ProtocolStateError and does nothing (R133). -/
theorem frame_uninitialized {dc : Level} {bytes : List Byte} {s : State} (hb : bytes ≠ []) (hi : s.init = false) :
    frame dc bytes s = .raise .protocolState s := by
  simp [frame, hb, hi]

/-- A frame of an initialized engine (R130). -/
theorem frame_sent {dc : Level} {bytes : List Byte} {s : State} (hb : bytes ≠ []) (hi : s.init = true) :
    frame dc bytes s = .ok (sent (frameF dc bytes) dc s) := by
  simp [frame, hb, hi, frameEvents_eq]

/-- A register write of an initialized engine (R73). -/
theorem regWrite_sent {c : Byte} {p : List Byte} {s : State} (hp : p ≠ []) (hi : s.init = true) :
    regWrite c p s = .ok (sent (regW c p) .high s) := by
  simp [regWrite, frame_sent, hp, hi, Flow.andThen, sent_sent, regW, cmdF, datF]

theorem regWrite_uninitialized {c : Byte} {p : List Byte} {s : State} (hi : s.init = false) :
    regWrite c p s = .raise .protocolState s := by
  simp [regWrite, frame_uninitialized, hi, Flow.andThen]

/-- The events of a list of register writes. -/
def rowEvents : List (Byte × List Byte) → List Event
  | [] => []
  | (c, p) :: rows => regW c p ++ rowEvents rows

theorem sendRows_sent (rows : List (Byte × List Byte)) (hr : rows ≠ []) (hp : ∀ r ∈ rows, r.2 ≠ []) {s : State}
    (hi : s.init = true) : sendRows rows s = .ok (sent (rowEvents rows) .high s) := by
  induction rows generalizing s with
  | nil => exact absurd rfl hr
  | cons r rows ih =>
    obtain ⟨c, p⟩ := r
    have hp1 : p ≠ [] := hp (c, p) (by simp)
    rw [sendRows, regWrite_sent hp1 hi, Flow.andThen]
    cases rows with
    | nil => simp [sendRows, rowEvents]
    | cons r' rows' =>
      rw [ih (by simp) (fun r hr => hp r (by simp [hr])) (by simpa using hi), sent_sent]
      rfl

theorem rowEvents_regSeq : rowEvents regSeqRows = registerEvents := by
  simp [rowEvents, regSeqRows, registerEvents]

/-- The register sequence of an initialized engine: its 80 events, DC left high (R150, R152). -/
theorem registerSequence_sent {s : State} (hi : s.init = true) :
    registerSequence s = .ok (sent registerEvents .high s) := by
  simp only [registerSequence, requireInit, hi, Flow.andThen, if_neg (Bool.noConfusion : ¬true = false)]
  rw [sendRows_sent _ (by simp [regSeqRows]) (by simp [regSeqRows]) hi, rowEvents_regSeq]

theorem registerSequence_uninitialized {s : State} (hi : s.init = false) :
    registerSequence s = .raise .protocolState s := by
  simp [registerSequence, requireInit, hi, Flow.andThen]

end Sys2Proof.Machine
end

