-- ==== Sys2Proof/Laws/Wait.lean ====
section
/-! SUPPORT. The busy wait: how many samples it takes, what it leaves, and that its bound on turns never cuts it short. -/

namespace Sys2Proof.Machine

/-- The state after a wait of `n + 1` samples whose last read `l`. -/
def waited (n : Nat) (l : Level) (s : State) : State :=
  { s with
    trace := s.trace ++ waitEvents s.cfg.pollIntervalMs n l
    busy := s.busy.drop (n + 1)
    samples := s.samples + (n + 1)
    bw := none }

@[simp] theorem waited_fb (n : Nat) (l : Level) (s : State) : (waited n l s).fb = s.fb := rfl
@[simp] theorem waited_init (n : Nat) (l : Level) (s : State) : (waited n l s).init = s.init := rfl
@[simp] theorem waited_cfg (n : Nat) (l : Level) (s : State) : (waited n l s).cfg = s.cfg := rfl
@[simp] theorem waited_pinState (n : Nat) (l : Level) (s : State) : (waited n l s).pinState = s.pinState := rfl
@[simp] theorem waited_pinLevel (n : Nat) (l : Level) (s : State) : (waited n l s).pinLevel = s.pinLevel := rfl
@[simp] theorem waited_seq (n : Nat) (l : Level) (s : State) : (waited n l s).seq = s.seq := rfl
@[simp] theorem waited_bw (n : Nat) (l : Level) (s : State) : (waited n l s).bw = none := rfl
@[simp] theorem waited_trace (n : Nat) (l : Level) (s : State) :
    (waited n l s).trace = s.trace ++ waitEvents s.cfg.pollIntervalMs n l := rfl
@[simp] theorem waited_port (n : Nat) (l : Level) (s : State) : (waited n l s).port = s.port := rfl
@[simp] theorem waited_result (n : Nat) (l : Level) (s : State) : (waited n l s).result = s.result := rfl
@[simp] theorem waited_busy (n : Nat) (l : Level) (s : State) : (waited n l s).busy = s.busy.drop (n + 1) := rfl
@[simp] theorem waited_samples (n : Nat) (l : Level) (s : State) : (waited n l s).samples = s.samples + (n + 1) := rfl

theorem nextSample_eq (s : State) : nextSample s = sampleAt s 0 := by
  unfold nextSample sampleAt
  cases s.busy <;> simp

/-- A state whose inputs are those of another state shows the same samples. -/
theorem sampleAt_congr {s t : State} (hb : t.busy = s.busy) (hs : t.samples = s.samples) (k : Nat) :
    sampleAt t k = sampleAt s k := by
  simp [sampleAt, hb, hs]

theorem elapsedAt_congr {s t : State} (hb : t.busy = s.busy) (hs : t.samples = s.samples) (hc : t.cfg = s.cfg)
    (k : Nat) : elapsedAt t k = elapsedAt s k := by
  induction k with
  | zero => rfl
  | succ k ih => simp [elapsedAt, ih, sampleAt_congr hb hs, hc]

theorem WaitTakes.congr {s t : State} {T n : Nat} {l : Level} (h : WaitTakes s T n l) (hb : t.busy = s.busy)
    (hs : t.samples = s.samples) (hc : t.cfg = s.cfg) : WaitTakes t T n l where
  lowBefore k hk := by rw [sampleAt_congr hb hs]; exact h.lowBefore k hk
  beforeDeadline k hk := by rw [elapsedAt_congr hb hs hc]; exact h.beforeDeadline k hk
  last := by rw [sampleAt_congr hb hs]; exact h.last
  atDeadline hl := by rw [elapsedAt_congr hb hs hc]; exact h.atDeadline hl

@[simp] theorem afterSamples_cfg (k : Nat) (s : State) : (afterSamples k s).cfg = s.cfg := rfl
@[simp] theorem afterSamples_busy (k : Nat) (s : State) : (afterSamples k s).busy = s.busy.drop k := rfl
@[simp] theorem afterSamples_samples (k : Nat) (s : State) : (afterSamples k s).samples = s.samples + k := rfl

/-- After `k` samples the samples ahead are `k` closer. -/
theorem sampleAt_afterSamples (k j : Nat) (s : State) : sampleAt (afterSamples k s) j = sampleAt s (k + j) := by
  simp [sampleAt, Nat.add_assoc]

/-- Samples taken in two parts. -/
theorem afterSamples_afterSamples (j k : Nat) (s : State) :
    afterSamples k (afterSamples j s) = afterSamples (j + k) s := by
  simp [afterSamples, Nat.add_assoc]

/-- After one sample the samples ahead are one closer. -/
theorem sampleAt_sleepTurn (s : State) (k : Nat) : sampleAt (sleepTurn s) k = sampleAt s (k + 1) := by
  simp [sampleAt, sleepTurn, Nat.add_comm k 1, Nat.add_assoc]

theorem elapsed_sleepTurn (s : State) :
    elapsed (sleepTurn s) = elapsed s + (s.cfg.pollIntervalMs + (sampleAt s 0).lateMs) := by
  simp [sleepTurn, elapsed, nextSample_eq]

theorem elapsedAt_sleepTurn (s : State) (k : Nat) :
    elapsedAt s (k + 1) = s.cfg.pollIntervalMs + (sampleAt s 0).lateMs + elapsedAt (sleepTurn s) k := by
  induction k with
  | zero => simp [elapsedAt]
  | succ k ih =>
    rw [elapsedAt, ih, elapsedAt, sampleAt_sleepTurn]
    have : (sleepTurn s).cfg = s.cfg := rfl
    rw [this]
    omega

/-- The gaps are at least the polling interval. -/
theorem le_elapsedAt (s : State) (k : Nat) : k * s.cfg.pollIntervalMs ≤ elapsedAt s k := by
  induction k with
  | zero => simp
  | succ k ih => rw [elapsedAt, Nat.succ_mul]; omega

/-- The end of a wait, as a flow. -/
def waitEnd (T n : Nat) (l : Level) (s : State) : Flow :=
  match l with
  | .high => .ok (waited n .high s)
  | .low => .raise (.timeout T) (waited n .low s)

theorem endWait_readBusy {s : State} {l : Level} (hl : (sampleAt s 0).level = l) :
    endWait (readBusy s) = waited 0 l s := by
  simp [endWait, readBusy, nextSample_eq, hl, waited, waitEvents]

theorem waited_sleepTurn {s : State} (n : Nat) (l : Level) (hl : (sampleAt s 0).level = .low) :
    waited n l (sleepTurn s) = waited (n + 1) l s := by
  simp [waited, sleepTurn, nextSample_eq, hl, waitEvents, List.replicate_succ, Nat.add_assoc, Nat.add_comm 1]

theorem waitEnd_sleepTurn {s : State} (T n : Nat) (l : Level) (hl : (sampleAt s 0).level = .low) :
    waitEnd T n l (sleepTurn s) = waitEnd T (n + 1) l s := by
  cases l <;> simp [waitEnd, waited_sleepTurn n _ hl]

/-- The loop with enough turns left takes the samples up to the first that reads 1 or reads 0 at or after the deadline. -/
theorem waitLoop_takes {T : Nat} (fuel : Nat) {s : State} (hp : 0 < s.cfg.pollIntervalMs)
    (hf : T ≤ elapsed s + fuel) :
    ∃ n l, n ≤ fuel ∧ (∀ k, k < n → (sampleAt s k).level = .low) ∧ (∀ k, k < n → elapsed s + elapsedAt s k < T) ∧
      (sampleAt s n).level = l ∧ (l = .low → T ≤ elapsed s + elapsedAt s n) ∧ waitLoop T fuel s = waitEnd T n l s := by
  induction fuel generalizing s with
  | zero =>
    cases hl : (sampleAt s 0).level with
    | high =>
      refine ⟨0, .high, Nat.le_refl 0, by simp, by simp, hl, by simp, ?_⟩
      simp [waitLoop, waitTurn, nextSample_eq, hl, waitEnd, endWait_readBusy hl]
    | low =>
      refine ⟨0, .low, Nat.le_refl 0, by simp, by simp, hl, by simp [elapsedAt]; omega, ?_⟩
      have : T ≤ elapsed s := by omega
      simp [waitLoop, waitTurn, nextSample_eq, hl, waitEnd, endWait_readBusy hl, this]
  | succ fuel ih =>
    cases hl : (sampleAt s 0).level with
    | high =>
      refine ⟨0, .high, Nat.zero_le _, by simp, by simp, hl, by simp, ?_⟩
      simp [waitLoop, waitTurn, nextSample_eq, hl, waitEnd, endWait_readBusy hl]
    | low =>
      by_cases hT : T ≤ elapsed s
      · refine ⟨0, .low, Nat.zero_le _, by simp, by simp, hl, by simp [elapsedAt]; omega, ?_⟩
        simp [waitLoop, waitTurn, nextSample_eq, hl, waitEnd, endWait_readBusy hl, hT]
      · have hf' : T ≤ elapsed (sleepTurn s) + fuel := by rw [elapsed_sleepTurn]; omega
        obtain ⟨n, l, hn, hlow, hdl, hlast, hat, heq⟩ := ih (s := sleepTurn s) hp hf'
        have hel : ∀ k, elapsed (sleepTurn s) + elapsedAt (sleepTurn s) k = elapsed s + elapsedAt s (k + 1) := by
          intro k; rw [elapsed_sleepTurn, elapsedAt_sleepTurn]; omega
        refine ⟨n + 1, l, by omega, ?_, ?_, ?_, ?_, ?_⟩
        · intro k hk
          cases k with
          | zero => exact hl
          | succ k => rw [← sampleAt_sleepTurn]; exact hlow k (by omega)
        · intro k hk
          cases k with
          | zero => simp [elapsedAt]; omega
          | succ k => rw [← hel]; exact hdl k (by omega)
        · rw [← sampleAt_sleepTurn]; exact hlast
        · intro h; rw [← hel]; exact hat h
        · rw [← waitEnd_sleepTurn T n l hl, ← heq]
          simp [waitLoop, waitTurn, nextSample_eq, hl, hT]

theorem WaitTakes.unique {s : State} {T n n' : Nat} {l l' : Level} (h : WaitTakes s T n l)
    (h' : WaitTakes s T n' l') : n = n' ∧ l = l' := by
  have key : ∀ {a b : Nat} {x y : Level}, WaitTakes s T a x → WaitTakes s T b y → ¬ a < b := by
    intro a b x y ha hb hlt
    have h1 := hb.lowBefore a hlt
    have h2 := hb.beforeDeadline a hlt
    have h3 := ha.atDeadline (by rw [← ha.last, h1])
    omega
  have hn : n = n' := by
    have := key h h'
    have := key h' h
    omega
  subst hn
  exact ⟨rfl, by rw [← h.last, ← h'.last]⟩

/-- Every wait takes some number of samples: with a positive polling interval it ends. -/
theorem waitTakes_exists (s : State) (T : Nat) (hp : 0 < s.cfg.pollIntervalMs) :
    ∃ n l, n ≤ T ∧ WaitTakes s T n l ∧ waitReady T s = waitEnd T n l s := by
  obtain ⟨n, l, hn, hlow, hdl, hlast, hat, heq⟩ :=
    waitLoop_takes (T := T) T (s := beginWait s) hp (by simp [elapsed])
  have h0 : elapsed (beginWait s) = 0 := rfl
  have hw : WaitTakes (beginWait s) T n l :=
    { lowBefore := hlow, beforeDeadline := fun k hk => by simpa [h0] using hdl k hk, last := hlast,
      atDeadline := fun h => by simpa [h0] using hat h }
  refine ⟨n, l, hn, hw.congr rfl rfl rfl, ?_⟩
  rw [waitReady, heq]
  cases l <;> simp [waitEnd, waited, beginWait]

/-- `call WAIT_FOR_READY(BUSY, T)`, all of it: where a wait takes `n + 1` samples, it ends in the state after those samples,
with success if the last read 1 and with TimeoutError(T) if it read 0 (R110 to R114). -/
theorem waitReady_eq {s : State} {T n : Nat} {l : Level} (hp : 0 < s.cfg.pollIntervalMs) (h : WaitTakes s T n l) :
    waitReady T s = waitEnd T n l s := by
  obtain ⟨n', l', -, h', heq⟩ := waitTakes_exists s T hp
  obtain ⟨rfl, rfl⟩ := h.unique h'
  exact heq

/-- A wait whose first sample reads 1 takes that sample only (R111). -/
theorem waitTakes_first {s : State} (T : Nat) (h : (sampleAt s 0).level = .high) : WaitTakes s T 0 .high where
  lowBefore k hk := absurd hk (Nat.not_lt_zero k)
  beforeDeadline k hk := absurd hk (Nat.not_lt_zero k)
  last := h
  atDeadline hl := absurd hl (by decide)

/-- Such a wait needs no positive interval. -/
theorem waitReady_first {s : State} (T : Nat) (h : (sampleAt s 0).level = .high) :
    waitReady T s = .ok (waited 0 .high s) := by
  have h' : (nextSample (beginWait s)).level = .high := by rw [nextSample_eq]; exact h
  have h2 : endWait (readBusy (beginWait s)) = waited 0 .high s := endWait_readBusy (s := beginWait s) h
  cases T <;> simp [waitReady, waitLoop, waitTurn, h', h2]

/-- A wait that ends ready, whether the interval is positive or its first sample is the one. -/
theorem waitReady_ready {s : State} {T n : Nat} (hp : 0 < s.cfg.pollIntervalMs ∨ n = 0) (h : WaitTakes s T n .high) :
    waitReady T s = .ok (waited n .high s) := by
  rcases hp with hp | rfl
  · exact waitReady_eq hp h
  · exact waitReady_first T h.last

/-- The number of samples of a wait: at most one more than the rounded-up quotient of timeout and interval (R113). -/
theorem WaitTakes.le_ceil {s : State} {T n : Nat} {l : Level} (h : WaitTakes s T n l) (hp : 0 < s.cfg.pollIntervalMs) :
    n ≤ (T + s.cfg.pollIntervalMs - 1) / s.cfg.pollIntervalMs := by
  rcases Nat.eq_zero_or_pos n with rfl | hn
  · exact Nat.zero_le _
  · have h1 := h.beforeDeadline (n - 1) (by omega)
    have h2 := le_elapsedAt s (n - 1)
    rw [Nat.le_div_iff_mul_le hp]
    have h3 : n * s.cfg.pollIntervalMs = (n - 1) * s.cfg.pollIntervalMs + s.cfg.pollIntervalMs := by
      obtain ⟨m, rfl⟩ : ∃ m, n = m + 1 := ⟨n - 1, by omega⟩
      simp [Nat.succ_mul]
    omega

/-- A wait with a positive timeout that fails has sampled at least twice (R113). -/
theorem WaitTakes.pos_of_low {s : State} {T n : Nat} (h : WaitTakes s T n .low) (hT : 0 < T) : 0 < n := by
  rcases Nat.eq_zero_or_pos n with rfl | hn
  · have := h.atDeadline rfl
    simp [elapsedAt] at this
    omega
  · exact hn

end Sys2Proof.Machine
end

