-- ==== Sys2Proof/Laws/WireRun.lean ====
section
/-! SUPPORT. What any stretch of wire events run inside an operation can do, said once: `WireRun`.  Every shared rule of the
protocol driver (a frame, a wait, INITIALIZE, the register sequence, the paint cycle) is shown to be one. -/

namespace Sys2Proof.Machine

/-! ### Reading event lists in two parts -/

theorem pinsAfter_append (p : PinModes × PinDrives) (es es' : List Event) :
    pinsAfter p (es ++ es') = pinsAfter (pinsAfter p es) es' := by
  induction es generalizing p with
  | nil => rfl
  | cons e es ih => exact ih _

theorem frameScan_append {ph ph' : FramePhase} {es : List Event} (h : frameScan ph es = some ph')
    (es' : List Event) : frameScan ph (es ++ es') = frameScan ph' es' := by
  induction es generalizing ph with
  | nil => simp only [frameScan, Option.some.injEq] at h; rw [h]; rfl
  | cons e es ih =>
    simp only [frameScan, List.cons_append] at h ⊢
    split at h
    · next ph₁ hr => rw [hr] at *; exact ih h
    · exact absurd h (by simp)

theorem wellFramed_append {es es' : List Event} (h : WellFramed es) (h' : WellFramed es') : WellFramed (es ++ es') := by
  rw [WellFramed, frameScan_append h]; exact h'

theorem wellFramed_frameF (dc : Level) {bytes : List Byte} (hb : bytes ≠ []) : WellFramed (frameF dc bytes) := by
  obtain ⟨b, bs, rfl⟩ := List.exists_cons_of_ne_nil hb
  rfl

theorem wellFramed_waitEvents (p n : Nat) (l : Level) : WellFramed (waitEvents p n l) := by
  induction n with
  | zero => rfl
  | succ n ih =>
    have : waitEvents p (n + 1) l = [.pinRead .busy .low, .sleep p] ++ waitEvents p n l := by
      simp [waitEvents, List.replicate_succ]
    rw [this]
    exact wellFramed_append rfl ih

/-! ### Wire runs -/

/-- The events a run may hold: never RST low, and SPI writes of these byte sequences only. -/
def EventIn (bs : List (List Byte)) : Event → Prop
  | .pinWrite .rst .low => False
  | .spiWrite b => b ∈ bs
  | _ => True

theorem EventIn.mono {bs bs' : List (List Byte)} (h : ∀ b ∈ bs, b ∈ bs') {e : Event} (he : EventIn bs e) :
    EventIn bs' e := by
  unfold EventIn at he ⊢
  split <;> simp_all

/-- What a run of wire events inside an operation does: it appends whole frames and other events, keeps the pins in step
with them, never clears INIT, and leaves the cell store, the configuration, SEQ, the port and the result alone. -/
structure WireRun (bs : List (List Byte)) (s t : State) : Prop where
  fb : t.fb = s.fb
  cfg : t.cfg = s.cfg
  seq : t.seq = s.seq
  port : t.port = s.port
  result : t.result = s.result
  init : s.init = true → t.init = true
  bw : s.bw = none → t.bw = none
  samples : s.samples ≤ t.samples
  events : ∃ es, t.trace = s.trace ++ es ∧ WellFramed es ∧
    pinsAfter (s.pinState, s.pinLevel) es = (t.pinState, t.pinLevel) ∧ ∀ e ∈ es, EventIn bs e

theorem WireRun.refl (bs : List (List Byte)) (s : State) : WireRun bs s s :=
  ⟨rfl, rfl, rfl, rfl, rfl, id, id, Nat.le_refl _, [], by simp, rfl, rfl, by simp⟩

theorem WireRun.trans {bs : List (List Byte)} {s t u : State} (h : WireRun bs s t) (h' : WireRun bs t u) :
    WireRun bs s u := by
  obtain ⟨es, he, hw, hp, hq⟩ := h.events
  obtain ⟨es', he', hw', hp', hq'⟩ := h'.events
  exact
    { fb := h'.fb.trans h.fb, cfg := h'.cfg.trans h.cfg, seq := h'.seq.trans h.seq, port := h'.port.trans h.port
      result := h'.result.trans h.result, init := fun hi => h'.init (h.init hi), bw := fun hb => h'.bw (h.bw hb)
      samples := h.samples.trans h'.samples
      events := ⟨es ++ es', by rw [he', he, List.append_assoc], wellFramed_append hw hw', by rw [pinsAfter_append, hp, hp'],
        fun e hm => (List.mem_append.mp hm).elim (hq e) (hq' e)⟩ }

theorem WireRun.mono {bs bs' : List (List Byte)} (hb : ∀ b ∈ bs, b ∈ bs') {s t : State} (h : WireRun bs s t) :
    WireRun bs' s t := by
  obtain ⟨es, he, hw, hp, hq⟩ := h.events
  exact { h with events := ⟨es, he, hw, hp, fun e hm => EventIn.mono hb (hq e hm)⟩ }

/-- The state a flow ends in, returned or raised. -/
def Flow.state : Flow → State
  | .ok s => s
  | .raise _ s => s

/-- A call followed by the rest of the rule. -/
theorem WireRun.andThen {bs : List (List Byte)} {s : State} {f : Flow} {k : State → Flow}
    (hf : WireRun bs s f.state) (hk : ∀ t, f = .ok t → WireRun bs t (k t).state) :
    WireRun bs s (f.andThen k).state := by
  cases f with
  | ok t => exact hf.trans (hk t rfl)
  | raise e t => exact hf

theorem wireRun_sent {dc : Level} {bytes : List Byte} (hb : bytes ≠ []) (s : State) :
    WireRun [bytes] s (sent (frameF dc bytes) dc s) :=
  ⟨rfl, rfl, rfl, rfl, rfl, id, id, Nat.le_refl _, frameF dc bytes, rfl, wellFramed_frameF dc hb,
    by simp [pinsAfter, pinsAfterEvent, frameF, PinDrives.set], by simp [frameF, EventIn]⟩

theorem wireRun_frame (dc : Level) (bytes : List Byte) (s : State) : WireRun [bytes] s (frame dc bytes s).state := by
  unfold frame
  split
  · exact WireRun.refl _ _
  · next hb =>
    split
    · exact WireRun.refl _ _
    · rw [frameEvents_eq]; exact wireRun_sent hb s

theorem wireRun_regWrite (c : Byte) (p : List Byte) (s : State) : WireRun [[c], p] s (regWrite c p s).state :=
  ((wireRun_frame .low [c] s).mono (by simp)).andThen fun t _ => (wireRun_frame .high p t).mono (by simp)

/-- The byte sequences of a list of register writes. -/
def rowPayloads (rows : List (Byte × List Byte)) : List (List Byte) := rows.flatMap fun r => [[r.1], r.2]

theorem wireRun_sendRows (rows : List (Byte × List Byte)) (s : State) :
    WireRun (rowPayloads rows) s (sendRows rows s).state := by
  induction rows generalizing s with
  | nil => exact WireRun.refl _ s
  | cons r rows ih =>
    obtain ⟨c, p⟩ := r
    exact ((wireRun_regWrite c p s).mono (by simp [rowPayloads])).andThen fun t _ =>
      (ih t).mono fun b hb => by
        simp only [rowPayloads, List.flatMap_cons, List.mem_append] at hb ⊢
        exact .inr hb

theorem wireRun_registerSequence (s : State) : WireRun (rowPayloads regSeqRows) s (registerSequence s).state := by
  unfold registerSequence requireInit
  split
  · exact WireRun.refl _ s
  · exact wireRun_sendRows _ s

theorem wireRun_readBusy (s : State) : WireRun [] s (readBusy s) :=
  ⟨rfl, rfl, rfl, rfl, rfl, id, id, Nat.le_succ _, [.pinRead .busy (nextSample s).level], rfl, rfl, rfl, by simp [EventIn]⟩

/-- What one turn of the polling loop leaves, however it ends. -/
theorem waitTurn_cases (T : Nat) (s : State) :
    waitTurn T s = .ready (endWait (readBusy s)) ∨ waitTurn T s = .timedOut (endWait (readBusy s)) ∨
      waitTurn T s = .again (sleepTurn s) := by
  unfold waitTurn
  split
  · exact .inl rfl
  · split
    · exact .inr (.inl rfl)
    · exact .inr (.inr rfl)

theorem wireRun_waitLoop (T fuel : Nat) {s s₁ : State} (h : WireRun [] s (endWait s₁)) :
    WireRun [] s (waitLoop T fuel s₁).state := by
  have hread : ∀ {s₁ : State}, WireRun [] s (endWait s₁) → WireRun [] s (endWait (readBusy s₁)) :=
    fun h => h.trans (wireRun_readBusy _)
  have hsleep : ∀ {s₁ : State}, WireRun [] s (endWait s₁) → WireRun [] s (endWait (sleepTurn s₁)) :=
    fun {s₁} h => (hread h).trans
      ⟨rfl, rfl, rfl, rfl, rfl, id, fun _ => rfl, Nat.le_refl _, [.sleep s₁.cfg.pollIntervalMs], rfl, rfl, rfl,
        by simp [EventIn]⟩
  induction fuel generalizing s₁ with
  | zero => rcases waitTurn_cases T s₁ with ht | ht | ht <;> rw [waitLoop, ht] <;> first | exact hread h | exact hsleep h
  | succ fuel ih =>
    rcases waitTurn_cases T s₁ with ht | ht | ht <;> rw [waitLoop, ht]
    · exact hread h
    · exact hread h
    · exact ih (hsleep h)

theorem wireRun_waitReady (T : Nat) (s : State) : WireRun [] s (waitReady T s).state :=
  wireRun_waitLoop T T
    ⟨rfl, rfl, rfl, rfl, rfl, id, fun _ => rfl, Nat.le_refl _, [], by simp, rfl, rfl, by simp⟩

theorem wireRun_drivePins (s : State) : WireRun [] s (drivePins s) :=
  ⟨rfl, rfl, rfl, rfl, rfl, id, id, Nat.le_refl _, [.pinWrite .cs .high, .pinWrite .dc .low, .pinWrite .rst .high],
    by simp [drivePins, pinWrite], rfl, rfl, by simp [EventIn]⟩

theorem wireRun_openPins (s : State) : WireRun [] s (openPins s) :=
  ⟨rfl, rfl, rfl, rfl, rfl, id, id, Nat.le_refl _,
    [.pinOpen .cs .output, .pinOpen .dc .output, .pinOpen .rst .output, .pinOpen .busy .input],
    by simp [openPins, pinOpen], rfl, rfl, by simp [EventIn]⟩

theorem wireRun_closePins (s : State) : WireRun [] s (closePins s) :=
  ⟨rfl, rfl, rfl, rfl, rfl, id, id, Nat.le_refl _, closeEvents, by simp [closePins, pinClose, closeEvents], rfl, rfl,
    by simp [EventIn, closeEvents]⟩

theorem wireRun_setInit (s : State) : WireRun [] s (setInit s) :=
  ⟨rfl, rfl, rfl, rfl, rfl, fun _ => rfl, id, Nat.le_refl _, [], by simp, rfl, rfl, by simp⟩

theorem wireRun_initialise (s : State) : WireRun [] s (initialise s).state := by
  unfold initialise
  split
  · split
    · exact (wireRun_drivePins s).trans (wireRun_waitReady _ _)
    · exact WireRun.refl _ s
  · unfold bringUp
    have h := ((wireRun_openPins s).trans (wireRun_drivePins _)).trans
      (wireRun_waitReady tInitMs (drivePins (openPins s)))
    split
    · next t ht => rw [ht] at h; exact h.trans (wireRun_setInit _)
    · next e t ht => rw [ht] at h; exact h.trans (wireRun_closePins _)

theorem wireRun_powerStep (T : Nat) (s : State) : WireRun [[powerOpcode]] s (powerStep T s).state :=
  (wireRun_frame .low [powerOpcode] s).andThen fun t _ => (wireRun_waitReady T t).mono (by simp)

/-- The byte sequences the paint cycle sends. -/
def paintPayloads (pk : List Byte) : List (List Byte) :=
  rowPayloads regSeqRows ++ [[imageOpcode], pk, [powerOpcode]]

/-- The paint cycle, whether it succeeds or fails, is a run of its own byte sequences. -/
theorem wireRun_paintCycle (pk : List Byte) (s : State) : WireRun (paintPayloads pk) s (paintCycle pk s).state := by
  refine WireRun.andThen (WireRun.andThen (WireRun.andThen (WireRun.andThen (WireRun.andThen ?_ ?_) ?_) ?_) ?_) ?_
  · exact (wireRun_initialise s).mono (by simp)
  · exact fun t _ => (wireRun_registerSequence t).mono (by simp [paintPayloads]; tauto)
  · exact fun t _ => (wireRun_regWrite _ _ t).mono (by simp [paintPayloads])
  · exact fun t _ => (wireRun_powerStep _ t).mono (by simp [paintPayloads])
  · exact fun t _ => (wireRun_powerStep _ t).mono (by simp [paintPayloads])
  · exact fun t _ => (wireRun_powerStep _ t).mono (by simp [paintPayloads])

end Sys2Proof.Machine
end

