-- ==== Sys2Proof/Laws/Sequences.lean ====
section
/-! SUPPORT. The protocol driver's rules as equations: INITIALIZE, one power step, and the paint cycle, given how many samples
their waits take. -/

namespace Sys2Proof.Machine

/-- The state after a successful bring-up whose wait took `n + 1` samples. -/
def broughtUp (n : Nat) (s : State) : State :=
  { s with
    init := true
    pinState := openModes
    pinLevel := { cs := .driven .high, dc := .driven .low, rst := .driven .high }
    trace := s.trace ++ (bringUpEvents ++ waitEvents s.cfg.pollIntervalMs n .high)
    busy := s.busy.drop (n + 1)
    samples := s.samples + (n + 1)
    bw := none }

/-- The state after a failed bring-up whose wait took `n + 1` samples, its pins closed. -/
def failedUp (n : Nat) (s : State) : State :=
  { s with
    pinState := closedModes
    pinLevel := undrivenLevels
    trace := s.trace ++ (bringUpEvents ++ waitEvents s.cfg.pollIntervalMs n .low ++ closeEvents)
    busy := s.busy.drop (n + 1)
    samples := s.samples + (n + 1)
    bw := none }

/-- The state after the three pin writes. -/
theorem drivePins_eq (s : State) :
    drivePins s = { s with
      trace := s.trace ++ [.pinWrite .cs .high, .pinWrite .dc .low, .pinWrite .rst .high]
      pinLevel := { cs := .driven .high, dc := .driven .low, rst := .driven .high } } := by
  simp [drivePins, pinWrite, PinDrives.set]

theorem drivePins_openPins (s : State) :
    drivePins (openPins s) = { s with
      pinState := openModes
      pinLevel := { cs := .driven .high, dc := .driven .low, rst := .driven .high }
      trace := s.trace ++ bringUpEvents } := by
  simp [drivePins_eq, openPins, pinOpen, PinModes.set, openMode, openModes, bringUpEvents]

theorem closePins_eq (s : State) :
    closePins s = { s with
      pinState := closedModes
      pinLevel := undrivenLevels
      trace := s.trace ++ closeEvents } := by
  simp [closePins, pinClose, PinModes.set, PinDrives.release, PinDrives.set, closedModes, undrivenLevels, closeEvents]

/-- A bring-up whose wait ends ready (R125). -/
theorem bringUp_ok {s : State} {t : State} {n : Nat}
    (h : waitReady tInitMs (drivePins (openPins s)) = .ok t)
    (ht : t = waited n .high (drivePins (openPins s))) : bringUp s = .ok (broughtUp n s) := by
  rw [bringUp, h]
  subst ht
  simp [setInit, waited, drivePins_openPins, broughtUp, List.append_assoc]

/-- INITIALIZE of an uninitialized engine, all of it (R125, R127). -/
theorem initialise_uninitialized {s : State} {n : Nat} {l : Level} (hp : 0 < s.cfg.pollIntervalMs)
    (hi : s.init = false) (h : WaitTakes s tInitMs n l) :
    initialise s = match l with
      | .high => .ok (broughtUp n s)
      | .low => .raise (.timeout tInitMs) (failedUp n s) := by
  have hw : waitReady tInitMs (drivePins (openPins s)) = waitEnd tInitMs n l (drivePins (openPins s)) :=
    waitReady_eq hp (h.congr rfl rfl rfl)
  cases l with
  | high => simp only [initialise, hi]; exact bringUp_ok hw rfl
  | low =>
    have hb : bringUp s = .raise (.timeout tInitMs) (closePins (waited n .low (drivePins (openPins s)))) := by
      rw [bringUp, hw]; rfl
    simp [initialise, hi, hb, closePins_eq, waited, drivePins_openPins, failedUp, List.append_assoc]

/-- The same where the first sample reads 1; no positive interval is needed. -/
theorem initialise_first {s : State} (hi : s.init = false) (h : (sampleAt s 0).level = .high) :
    initialise s = .ok (broughtUp 0 s) := by
  simp only [initialise, hi]
  exact bringUp_ok (waitReady_first tInitMs (s := drivePins (openPins s)) h) rfl

/-- A bring-up that ends ready, whether the interval is positive or the first sample is the one. -/
theorem initialise_ready {s : State} {n : Nat} (hp : 0 < s.cfg.pollIntervalMs ∨ n = 0) (hi : s.init = false)
    (h : WaitTakes s tInitMs n .high) : initialise s = .ok (broughtUp n s) := by
  simp only [initialise, hi]
  exact bringUp_ok (waitReady_ready (s := drivePins (openPins s)) hp (h.congr rfl rfl rfl)) rfl

/-- The state after the three pin writes and a wait of `n + 1` samples whose last read `l`. -/
def redriven (n : Nat) (l : Level) (s : State) : State := waited n l (drivePins s)

/-- The recorded alternative for INITIALIZE of an initialized engine (R126). -/
theorem initialise_redriven {s : State} {n : Nat} {l : Level} (hp : 0 < s.cfg.pollIntervalMs) (hi : s.init = true)
    (hr : s.cfg.reinitRedrives = true) (h : WaitTakes s tInitMs n l) :
    initialise s = match l with
      | .high => .ok (redriven n .high s)
      | .low => .raise (.timeout tInitMs) (redriven n .low s) := by
  simp only [initialise, hi, hr, if_true, redrive]
  rw [waitReady_eq (s := drivePins s) hp (h.congr rfl rfl rfl)]
  cases l <;> rfl

/-- INITIALIZE of an initialized engine is a no-operation (R126). -/
theorem initialise_again {s : State} (hi : s.init = true) (hr : s.cfg.reinitRedrives = false) :
    initialise s = .ok s := by
  simp [initialise, hi, hr]

/-- The state after a call of INITIALIZE whose wait, where it runs one, takes `n + 1` samples and ends in one that reads `l`. -/
def initialised (n : Nat) (l : Level) (s : State) : State :=
  match s.init, s.cfg.reinitRedrives, l with
  | false, _, .high => broughtUp n s
  | false, _, .low => failedUp n s
  | true, true, l => redriven n l s
  | true, false, _ => s

/-- A call of INITIALIZE, in either mode and with either choice for a second one: how its wait goes, where it runs one, says
how it ends (R125 to R127). -/
theorem initialise_takes {s : State} (hp : 0 < s.cfg.pollIntervalMs) :
    ∃ n l, (initialiseWaits s = true → WaitTakes s tInitMs n l) ∧ (initialiseWaits s = false → l = .high) ∧
      initialise s = match l with
        | .high => .ok (initialised n .high s)
        | .low => .raise (.timeout tInitMs) (initialised n .low s) := by
  obtain ⟨n, l, -, hw, -⟩ := waitTakes_exists s tInitMs hp
  cases hi : s.init with
  | false =>
    refine ⟨n, l, fun _ => hw, by simp [initialiseWaits, hi], ?_⟩
    rw [initialise_uninitialized hp hi hw]
    cases l <;> simp [initialised, hi]
  | true =>
    cases hr : s.cfg.reinitRedrives with
    | true =>
      refine ⟨n, l, fun _ => hw, by simp [initialiseWaits, hr], ?_⟩
      rw [initialise_redriven hp hi hr hw]
      cases l <;> simp [initialised, hi, hr]
    | false =>
      refine ⟨n, .high, by simp [initialiseWaits, hi, hr], fun _ => rfl, ?_⟩
      simp [initialise_again hi hr, initialised, hi, hr]

theorem initialised_trace (n : Nat) (l : Level) (s : State) :
    (initialised n l s).trace = s.trace ++ initialiseEvents s n l := by
  unfold initialised initialiseEvents
  cases s.init <;> cases s.cfg.reinitRedrives <;> cases l <;>
    simp [broughtUp, failedUp, redriven, drivePins_eq, List.append_assoc]

/-- What a call of INITIALIZE leaves of the inputs. -/
theorem initialised_inputs (n : Nat) (l : Level) (s : State) :
    (initialised n l s).busy = s.busy.drop (initialiseSamples s n) ∧
      (initialised n l s).samples = s.samples + initialiseSamples s n ∧ (initialised n l s).cfg = s.cfg := by
  unfold initialised initialiseSamples initialiseWaits
  cases s.init <;> cases s.cfg.reinitRedrives <;> cases l <;> simp [broughtUp, failedUp, redriven, drivePins_eq]

/-- A call of INITIALIZE sends nothing over SPI. -/
theorem initialise_sends_nothing (s : State) :
    ∃ es, (initialise s).state.trace = s.trace ++ es ∧ ∀ b, Event.spiWrite b ∉ es := by
  obtain ⟨es, he, -, -, hq⟩ := (wireRun_initialise s).events
  exact ⟨es, he, fun b hm => absurd (hq _ hm) (by simp [EventIn])⟩

/-- The state after a 0x04 frame and a wait of `n + 1` samples. -/
def powered (n : Nat) (l : Level) (s : State) : State := waited n l (sent (cmdF [0x04]) .low s)

/-- A power step of an initialized engine (R155, R163). -/
theorem powerStep_eq {s : State} {T n : Nat} {l : Level} (hp : 0 < s.cfg.pollIntervalMs) (hi : s.init = true)
    (h : WaitTakes s T n l) : powerStep T s = waitEnd T n l (sent (cmdF [0x04]) .low s) := by
  rw [powerStep, frame_sent (by simp) hi]
  exact waitReady_eq hp (h.congr rfl rfl rfl)

theorem powerStep_first {s : State} (T : Nat) (hi : s.init = true) (h : (sampleAt s 0).level = .high) :
    powerStep T s = .ok (powered 0 .high s) := by
  rw [powerStep, frame_sent (by simp) hi]
  exact waitReady_first T h

/-- A power step whose wait ends ready, whether the interval is positive or the first sample is the one. -/
theorem powerStep_ready {s : State} {T n : Nat} (hp : 0 < s.cfg.pollIntervalMs ∨ n = 0) (hi : s.init = true)
    (h : WaitTakes s T n .high) : powerStep T s = .ok (powered n .high s) := by
  rw [powerStep, frame_sent (by simp) hi]
  exact waitReady_ready (s := sent (frameF .low [powerOpcode]) .low s) hp (h.congr rfl rfl rfl)

/-- The image transfer of an initialized engine (R164). -/
theorem imageTransfer_sent {pk : List Byte} {s : State} (hpk : pk ≠ []) (hi : s.init = true) :
    imageTransfer pk s = .ok (sent (regW 0x10 pk) .high s) := regWrite_sent hpk hi

/-- A packed image is not empty. -/
theorem isImage_ne_nil {pk : List Byte} (h : isImage pk = true) : pk ≠ [] := by
  intro he
  subst he
  exact absurd h (by decide)

theorem isImage_iff (pk : List Byte) : isImage pk = true ↔ pk.length = 134400 := by
  simp [isImage, nBytes_eq]

/-- The paint cycle after INITIALIZE. -/
theorem paintCycle_initialised {pk : List Byte} {s t : State} (hpk : pk ≠ []) (h : initialise s = .ok t)
    (hi : t.init = true) :
    paintCycle pk s =
      ((powerStep tPon1Ms (sent (registerEvents ++ regW 0x10 pk) .high t)).andThen (powerStep tRefreshMs)).andThen
        (powerStep tPon2Ms) := by
  rw [paintCycle, h]
  simp only [Flow.andThen, registerSequence_sent hi]
  rw [imageTransfer_sent hpk (by simpa using hi), sent_sent]

/-- The state after the paint cycle of an initialized engine whose waits take `n1 + 1`, `n2 + 1` and `n3 + 1` samples. -/
def painted (pk : List Byte) (n1 n2 n3 : Nat) (s : State) : State :=
  powered n3 .high (powered n2 .high (powered n1 .high (sent (registerEvents ++ regW 0x10 pk) .high s)))

/-- The paint cycle once INITIALIZE has ended in `t`, where its three waits end ready (R155). -/
theorem paintCycle_ready {pk : List Byte} {s t : State} {n1 n2 n3 : Nat} (hpk : pk ≠ []) (h : initialise s = .ok t)
    (hi : t.init = true) (hp : 0 < t.cfg.pollIntervalMs ∨ n1 + n2 + n3 = 0) (h1 : WaitTakes t tPon1Ms n1 .high)
    (h2 : WaitTakes (afterSamples (n1 + 1) t) tRefreshMs n2 .high)
    (h3 : WaitTakes (afterSamples (n1 + 1 + (n2 + 1)) t) tPon2Ms n3 .high) :
    paintCycle pk s = .ok (painted pk n1 n2 n3 t) := by
  have hp' : ∀ n, n ≤ n1 + n2 + n3 → 0 < t.cfg.pollIntervalMs ∨ n = 0 := fun n hn => by omega
  rw [paintCycle_initialised hpk h hi,
    powerStep_ready (s := sent (registerEvents ++ regW 0x10 pk) .high t) (hp' n1 (by omega)) hi (h1.congr rfl rfl rfl)]
  rw [Flow.andThen,
    powerStep_ready (s := powered n1 .high (sent (registerEvents ++ regW 0x10 pk) .high t)) (hp' n2 (by omega)) hi
      (h2.congr rfl rfl rfl)]
  rw [Flow.andThen,
    powerStep_ready (s := powered n2 .high (powered n1 .high (sent (registerEvents ++ regW 0x10 pk) .high t)))
      (hp' n3 (by omega)) hi (h3.congr (by simp [powered]) (by simp [powered, Nat.add_assoc]) rfl)]
  rfl

theorem paintCycle_failed {pk : List Byte} {s t : State} {e : Err} (h : initialise s = .raise e t) :
    paintCycle pk s = .raise e t := by
  simp [paintCycle, h, Flow.andThen]

/-- INITIALIZE leaves INIT = 1 where it succeeds. -/
theorem initialise_ok_init {s t : State} (h : initialise s = .ok t) : t.init = true := by
  have hr := wireRun_initialise s
  rw [h] at hr
  cases hi : s.init with
  | true => exact hr.init hi
  | false =>
    simp only [initialise, hi, Bool.false_eq_true, if_false, bringUp] at h
    split at h
    · simp only [Flow.ok.injEq] at h; subst h; rfl
    · exact absurd h (by simp)

/-- INITIALIZE raises TimeoutError(40000) only. -/
theorem waitLoop_raise {T fuel : Nat} {s t : State} {e : Err} (h : waitLoop T fuel s = .raise e t) : e = .timeout T := by
  induction fuel generalizing s with
  | zero => rcases waitTurn_cases T s with ht | ht | ht <;> rw [waitLoop, ht] at h <;> simp_all
  | succ fuel ih =>
    rcases waitTurn_cases T s with ht | ht | ht <;> rw [waitLoop, ht] at h
    · simp at h
    · simp at h; exact h.1.symm
    · exact ih h

theorem waitReady_raise {T : Nat} {s t : State} {e : Err} (h : waitReady T s = .raise e t) : e = .timeout T :=
  waitLoop_raise h

theorem initialise_raise {s t : State} {e : Err} (h : initialise s = .raise e t) : e = .timeout 40000 := by
  unfold initialise at h
  split at h
  · split at h
    · exact waitReady_raise h
    · exact absurd h (by simp)
  · unfold bringUp at h
    split at h
    · exact absurd h (by simp)
    · next e' t' hw =>
      simp only [Flow.raise.injEq] at h
      rw [← h.1]
      exact waitReady_raise hw

theorem powerStep_raise {T : Nat} {s t : State} {e : Err} (hi : s.init = true) (h : powerStep T s = .raise e t) :
    e = .timeout T := by
  rw [powerStep, frame_sent (by simp) hi] at h
  exact waitReady_raise h

/-- What reading a sample, sleeping and ending a wait leave alone, the whole wait leaves alone. -/
theorem waitReady_keeps {α : Type} (p : State → α) (hb : ∀ s, p (beginWait s) = p s) (he : ∀ s, p (endWait s) = p s)
    (hr : ∀ s, p (readBusy s) = p s) (hs : ∀ s, p (sleepTurn s) = p s) (T : Nat) (s : State) :
    p (waitReady T s).state = p s := by
  have key : ∀ fuel s, p (waitLoop T fuel s).state = p s := by
    intro fuel
    induction fuel with
    | zero =>
      intro s
      rcases waitTurn_cases T s with ht | ht | ht <;> rw [waitLoop, ht] <;> simp [Flow.state, he, hr, hs]
    | succ fuel ih =>
      intro s
      rcases waitTurn_cases T s with ht | ht | ht <;> rw [waitLoop, ht]
      · exact (he _).trans (hr s)
      · exact (he _).trans (hr s)
      · exact (ih _).trans (hs s)
  rw [waitReady, key, hb]

theorem waitReady_init (T : Nat) (s : State) : (waitReady T s).state.init = s.init :=
  waitReady_keeps State.init (fun _ => rfl) (fun _ => rfl) (fun _ => rfl) (fun _ => rfl) T s

theorem waitReady_pinState (T : Nat) (s : State) : (waitReady T s).state.pinState = s.pinState :=
  waitReady_keeps State.pinState (fun _ => rfl) (fun _ => rfl) (fun _ => rfl) (fun _ => rfl) T s

theorem waitReady_pinLevel (T : Nat) (s : State) : (waitReady T s).state.pinLevel = s.pinLevel :=
  waitReady_keeps State.pinLevel (fun _ => rfl) (fun _ => rfl) (fun _ => rfl) (fun _ => rfl) T s

/-- A failed INITIALIZE leaves INIT as it was (R127). -/
theorem initialise_raise_init {s t : State} {e : Err} (h : initialise s = .raise e t) : t.init = s.init := by
  unfold initialise at h
  split at h
  · split at h
    · have := waitReady_init tInitMs (drivePins s)
      rw [redrive] at h
      rw [h] at this
      exact this
    · exact absurd h (by simp)
  · unfold bringUp at h
    split at h
    · exact absurd h (by simp)
    · next e' t' hw =>
      have := waitReady_init tInitMs (drivePins (openPins s))
      rw [hw] at this
      simp only [Flow.raise.injEq] at h
      rw [← h.2]
      exact this

/-- A power step that fails leaves INIT, and DC at 0 (R157, R241). -/
theorem powerStep_raise_state {T : Nat} {s t : State} {e : Err} (hi : s.init = true) (h : powerStep T s = .raise e t) :
    e = .timeout T ∧ t.init = true ∧ t.pinLevel.dc = .driven .low := by
  have he := powerStep_raise hi h
  rw [powerStep, frame_sent (by simp) hi] at h
  have hn := waitReady_init T (sent (frameF .low [powerOpcode]) .low s)
  have hl := waitReady_pinLevel T (sent (frameF .low [powerOpcode]) .low s)
  rw [show waitReady T (sent (frameF .low [powerOpcode]) .low s) = .raise e t from h] at hn hl
  exact ⟨he, hn.trans hi, (congrArg PinDrives.dc hl).trans rfl⟩

theorem powerStep_ok_init {T : Nat} {s t : State} (hi : s.init = true) (h : powerStep T s = .ok t) : t.init = true := by
  have hr := wireRun_powerStep T s
  rw [h] at hr
  exact hr.init hi

/-- How a paint cycle fails: in INITIALIZE, or in one of its three waits with INIT = 1 and DC at 0 (R157). -/
theorem paintCycle_raise {pk : List Byte} {s t : State} {e : Err} (hpk : pk ≠ []) (h : paintCycle pk s = .raise e t) :
    initialise s = .raise e t ∨
    ((e = .timeout 210 ∨ e = .timeout 32000 ∨ e = .timeout 200) ∧ t.init = true ∧ t.pinLevel.dc = .driven .low) := by
  cases hf : initialise s with
  | raise e' t' => rw [paintCycle_failed hf] at h; exact .inl h
  | ok u =>
    have hu := initialise_ok_init hf
    rw [paintCycle_initialised hpk hf hu] at h
    have h1 : (sent (registerEvents ++ regW 0x10 pk) .high u).init = true := hu
    cases hw1 : powerStep tPon1Ms (sent (registerEvents ++ regW 0x10 pk) .high u) with
    | raise e1 u1 =>
      simp only [hw1, Flow.andThen, Flow.raise.injEq] at h
      obtain ⟨rfl, rfl⟩ := h
      obtain ⟨he, hs⟩ := powerStep_raise_state h1 hw1
      exact .inr ⟨.inl he, hs⟩
    | ok u1 =>
      have h2 := powerStep_ok_init h1 hw1
      cases hw2 : powerStep tRefreshMs u1 with
      | raise e2 u2 =>
        simp only [hw1, hw2, Flow.andThen, Flow.raise.injEq] at h
        obtain ⟨rfl, rfl⟩ := h
        obtain ⟨he, hs⟩ := powerStep_raise_state h2 hw2
        exact .inr ⟨.inr (.inl he), hs⟩
      | ok u2 =>
        simp only [hw1, hw2, Flow.andThen] at h
        obtain ⟨he, hs⟩ := powerStep_raise_state (powerStep_ok_init h2 hw2) h
        exact .inr ⟨.inr (.inr he), hs⟩

/-- A failed INITIALIZE that leaves INIT = 1, the recorded alternative, leaves DC at 0 (R126). -/
theorem initialise_raise_dc {s t : State} {e : Err} (h : initialise s = .raise e t) (hi : t.init = true) :
    t.pinLevel.dc = .driven .low := by
  have hs : s.init = true := (initialise_raise_init h).symm.trans hi
  simp only [initialise, hs, if_true] at h
  split at h
  · have hl := waitReady_pinLevel tInitMs (drivePins s)
    rw [redrive] at h
    rw [h] at hl
    exact (congrArg PinDrives.dc hl).trans (by simp [drivePins_eq])
  · exact absurd h (by simp)

/-! ### What the events of a run say -/

/-- The events a power step appends: one 0x04 frame and no other. -/
theorem powerStep_events {T : Nat} {s : State} (hi : s.init = true) :
    ∃ es, (powerStep T s).state.trace = s.trace ++ es ∧ es.count (.spiWrite [0x04]) = 1 ∧
      (powerStep T s).state.init = true := by
  rw [powerStep, frame_sent (by simp) hi]
  have hr := wireRun_waitReady T (sent (frameF .low [powerOpcode]) .low s)
  obtain ⟨es, he, -, -, hq⟩ := hr.events
  refine ⟨frameF .low [powerOpcode] ++ es, ?_, ?_, hr.init hi⟩
  · simpa [Flow.andThen, List.append_assoc] using he
  · have h0 : es.count (.spiWrite [0x04]) = 0 := by
      rw [List.count_eq_zero]
      intro hm
      exact absurd (hq _ hm) (by simp [EventIn])
    rw [List.count_append, h0]
    decide

end Sys2Proof.Machine
end

