-- ==== Sys2Proof/Laws/Exec.lean ====
section
/-! SUPPORT. Every instruction as the flow it runs, said once: `opFlow` for the host operations, `wireFlow` for the wire
commands, and what each flow can do. -/

namespace Sys2Proof.Machine

/-- The value a host operation returns on success, and the flow it runs; none where it is refused or is no host operation. -/
def opFlow : Instr → State → Option (Value × Flow)
  | .initializeDriver, s => some (.none, initialise s)
  | .writeCommand bytes, s => some (.none, frame .low bytes s)
  | .writeData bytes, s => some (.none, frame .high bytes s)
  | .resetDisplay, s => some (.none, registerSequence s)
  | .setResolution, s => some (.none, regWrite 0x61 [0x01, 0xF4, 0x01, 0xC0] s)
  | .flush pk, s => if isImage pk then some (.none, paintCycle pk s) else none
  | .waitForReady r T, s =>
    if r = .busy ∧ s.pinState.get r = .openIn then some (.none, waitReady T s) else none
  | .setPixel x y c, s =>
    match boundsError x y with
    | some e => some (.none, .raise e s)
    | none => some (.none, .ok (writeCell x y c s))
  | .getPixels, s => some (.pixels s.fb, .ok s)
  | .render, s => some (.packed (renderImage s.cfg s.fb), paintCycle (renderImage s.cfg s.fb) s)
  | .fromByte b, s =>
    match Color.ofByte b with
    | some c => some (.color c, .ok s)
    | none => some (.none, .raise (.encoding b) s)
  | .toByte c, s => some (.byte c.toByte, .ok s)
  | .dispatch c h, s => some (.handled c.code.toNat (h.result c), .ok s)
  | .flatten g, s => some (.elements g.flat, .ok s)
  | .mirrorColumns g, s => some (.array g.mirrorCols, .ok s)
  | .mirrorRows g, s => some (.array g.mirrorRows, .ok s)
  | .rotate _ _, s => some (.none, .raise .notSupported s)
  | _, _ => none

/-- The flow a wire command runs; none where it is refused or is no wire command. -/
def wireFlow : Instr → State → Option Flow
  | .cmdPanelSetting, s => some (regWrite 0x00 [0xEF, 0x08] s)
  | .cmdPowerSetting, s => some (regWrite 0x01 [0x37, 0x00, 0x23, 0x23] s)
  | .cmdPowerOffSeq, s => some (regWrite 0x03 [0x00] s)
  | .cmdPowerOn, s => some (frame .low [0x04] s)
  | .cmdImageTransfer pk, s => if isImage pk then some (regWrite 0x10 pk s) else none
  | .cmdPll, s => some (regWrite 0x30 [0x1C] s)
  | .cmdTse, s => some (regWrite 0x41 [0x00] s)
  | .cmdVcomDataInterval, s => some (regWrite 0x50 [0x37] s)
  | .cmdNonOverlap, s => some (regWrite 0x60 [0x22] s)
  | .cmdResolution, s => some (regWrite 0x61 [0x01, 0xF4, 0x01, 0xC0] s)
  | .cmdFlashDisable, s => some (regWrite 0x65 [0x00] s)
  | .cmdSevenColour, s => some (regWrite 0xE3 [0xAA] s)
  | _, _ => none

theorem onPort_idle {s : State} (hs : s.seq = []) (k : State → Host.Outcome State Fault Refusal) :
    onPort s k = k s := by
  simp [onPort, hs]

theorem onPort_busy {s : State} (hs : s.seq ≠ []) (k : State → Host.Outcome State Fault Refusal) :
    onPort s k = .fault .portBusy := by
  unfold onPort
  split
  · contradiction
  · rfl

/-- A host operation run while SEQ is not Idle. -/
theorem exec_portBusy {i : Instr} (hi : isHostOp i = true) {s : State} (hs : s.seq ≠ []) :
    exec i s = .fault .portBusy := by
  cases i <;> simp [isHostOp, Instr.format] at hi <;>
    simp only [exec, execInitializeDriver, execWriteCommand, execWriteData, execResetDisplay, execSetResolution, execFlush,
      execWaitForReady, execSetPixel, execGetPixels, execRender, execFromByte, execToByte, execDispatch, execFlatten,
      execMirrorColumns, execMirrorRows, execRotate, onPort_busy hs]

/-- A host operation of an Idle engine ends as its flow does. -/
theorem exec_opFlow {i : Instr} {s : State} (hs : s.seq = []) {v : Value} {f : Flow} (h : opFlow i s = some (v, f)) :
    exec i s = .next (ended v f) := by
  cases i <;> simp only [opFlow, reduceCtorEq] at h
  case flush pk =>
    split at h <;> simp only [Option.some.injEq, Prod.mk.injEq, reduceCtorEq] at h
    next hpk =>
    obtain ⟨rfl, rfl⟩ := h
    simp only [exec, execFlush, onPort_idle hs, if_pos hpk, conclude]
  case waitForReady r T =>
    split at h <;> simp only [Option.some.injEq, Prod.mk.injEq, reduceCtorEq] at h
    next hr =>
    obtain ⟨rfl, rfl⟩ := h
    simp only [exec, execWaitForReady, onPort_idle hs, if_pos hr, conclude]
  case setPixel x y c =>
    simp only [exec, execSetPixel, onPort_idle hs]
    cases he : boundsError x y <;> simp only [he, Option.some.injEq, Prod.mk.injEq] at h <;> obtain ⟨rfl, rfl⟩ := h <;> rfl
  case fromByte b =>
    simp only [exec, execFromByte, onPort_idle hs]
    cases he : Color.ofByte b <;> simp only [he, Option.some.injEq, Prod.mk.injEq] at h <;> obtain ⟨rfl, rfl⟩ := h <;> rfl
  all_goals
    simp only [Option.some.injEq, Prod.mk.injEq] at h
    obtain ⟨rfl, rfl⟩ := h
    simp only [exec, execInitializeDriver, execWriteCommand, execWriteData, execResetDisplay, execSetResolution,
      execGetPixels, execRender, execToByte, execDispatch, execFlatten, execMirrorColumns, execMirrorRows, execRotate,
      onPort_idle hs]
    rfl

/-- What a host operation that gives a next state has run. -/
theorem exec_hostOp_next {i : Instr} (hi : isHostOp i = true) {s t : State} (h : exec i s = .next t) :
    s.seq = [] ∧ ∃ v f, opFlow i s = some (v, f) ∧ t = ended v f := by
  by_cases hs : s.seq = []
  · refine ⟨hs, ?_⟩
    cases hf : opFlow i s with
    | some p =>
      obtain ⟨v, f⟩ := p
      rw [exec_opFlow hs hf] at h
      exact ⟨v, f, rfl, by simpa using h.symm⟩
    | none =>
      cases i <;> simp [isHostOp, Instr.format] at hi <;> simp only [opFlow, reduceCtorEq] at hf
      case flush pk =>
        simp only [ite_eq_right_iff, reduceCtorEq, imp_false] at hf
        simp [exec, execFlush, onPort_idle hs, hf] at h
      case waitForReady r T =>
        simp only [ite_eq_right_iff, reduceCtorEq, imp_false] at hf
        simp only [exec, execWaitForReady, onPort_idle hs, if_neg hf, reduceCtorEq] at h
      all_goals split at hf <;> exact absurd hf (by simp)
  · rw [exec_portBusy hi hs] at h
    exact absurd h (by simp)

/-- A wire command goes on, or takes its error, as its flow does. -/
theorem exec_wireFlow {i : Instr} {s : State} {f : Flow} (h : wireFlow i s = some f) :
    exec i s = .next (carriedOn f) := by
  cases i <;> simp only [wireFlow, reduceCtorEq] at h <;> first
    | (simp only [Option.some.injEq] at h
       subst h
       rfl)
    | (split at h <;> simp only [Option.some.injEq, reduceCtorEq] at h
       subst h
       simp [exec, execCmdImageTransfer, proceed, *])

/-- What a wire command that gives a next state has run. -/
theorem exec_wire_next {i : Instr} (hi : isHostOp i = false) {s t : State} (h : exec i s = .next t) :
    ∃ f, wireFlow i s = some f ∧ t = carriedOn f := by
  cases hf : wireFlow i s with
  | some f => rw [exec_wireFlow hf] at h; exact ⟨f, rfl, by simpa using h.symm⟩
  | none =>
    cases i <;> simp only [wireFlow, reduceCtorEq] at hf <;> first
      | (split at hf <;> simp only [reduceCtorEq] at hf
         simp [exec, execCmdImageTransfer, *] at h)
      | exact absurd hi (by simp [isHostOp, Instr.format])

/-! ### What the flows can do -/

/-- The byte sequences a host operation may send. -/
def opPayloads : Instr → State → List (List Byte)
  | .writeCommand bytes, _ => [bytes]
  | .writeData bytes, _ => [bytes]
  | .resetDisplay, _ => rowPayloads regSeqRows
  | .setResolution, _ => [[0x61], [0x01, 0xF4, 0x01, 0xC0]]
  | .flush pk, _ => paintPayloads pk
  | .render, s => paintPayloads (renderImage s.cfg s.fb)
  | _, _ => []

/-- The flow of every host operation but SET_PIXEL is a wire run of its own byte sequences. -/
theorem opFlow_wireRun {i : Instr} (hi : ∀ x y c, i ≠ .setPixel x y c) {s : State} {v : Value} {f : Flow}
    (h : opFlow i s = some (v, f)) : WireRun (opPayloads i s) s f.state := by
  cases i <;> simp only [opFlow, reduceCtorEq] at h
  case initializeDriver => obtain ⟨-, rfl⟩ := Prod.mk.inj (Option.some.inj h); exact wireRun_initialise s
  case writeCommand => obtain ⟨-, rfl⟩ := Prod.mk.inj (Option.some.inj h); exact wireRun_frame _ _ s
  case writeData => obtain ⟨-, rfl⟩ := Prod.mk.inj (Option.some.inj h); exact wireRun_frame _ _ s
  case resetDisplay => obtain ⟨-, rfl⟩ := Prod.mk.inj (Option.some.inj h); exact wireRun_registerSequence s
  case setResolution => obtain ⟨-, rfl⟩ := Prod.mk.inj (Option.some.inj h); exact wireRun_regWrite _ _ s
  case flush =>
    split at h <;> simp only [Option.some.injEq, Prod.mk.injEq, reduceCtorEq] at h
    obtain ⟨-, rfl⟩ := h
    exact wireRun_paintCycle _ s
  case waitForReady =>
    split at h <;> simp only [Option.some.injEq, Prod.mk.injEq, reduceCtorEq] at h
    obtain ⟨-, rfl⟩ := h
    exact wireRun_waitReady _ s
  case setPixel => exact absurd rfl (hi _ _ _)
  case render => obtain ⟨-, rfl⟩ := Prod.mk.inj (Option.some.inj h); exact wireRun_paintCycle _ s
  case fromByte =>
    split at h <;> simp only [Option.some.injEq, Prod.mk.injEq] at h <;> obtain ⟨-, rfl⟩ := h <;> exact WireRun.refl _ s
  all_goals (obtain ⟨-, rfl⟩ := Prod.mk.inj (Option.some.inj h); exact WireRun.refl _ s)

/-- The flow of every wire command is a wire run. -/
theorem wireFlow_wireRun {i : Instr} {s : State} {f : Flow} (h : wireFlow i s = some f) :
    ∃ bs, WireRun bs s f.state := by
  cases i <;> simp only [wireFlow, reduceCtorEq] at h
  case cmdImageTransfer =>
    split at h <;> simp only [Option.some.injEq, reduceCtorEq] at h
    subst h
    exact ⟨_, wireRun_regWrite _ _ s⟩
  case cmdPowerOn => obtain rfl := Option.some.inj h; exact ⟨_, wireRun_frame _ _ s⟩
  all_goals (obtain rfl := Option.some.inj h; exact ⟨_, wireRun_regWrite _ _ s⟩)

/-- A wire run keeps a boundary's invariants up to its end, INIT and the pins apart. -/
theorem ended_of_wireRun {bs : List (List Byte)} {s : State} {f : Flow} (h : WireRun bs s f.state) (v : Value) :
    (ended v f).fb = s.fb ∧ (ended v f).cfg = s.cfg ∧ (ended v f).port = s.port ∧ (ended v f).seq = [] ∧
      (s.init = true → (ended v f).init = true) ∧ (s.bw = none → (ended v f).bw = none) ∧
      (ended v f).result.isSome = true ∧ (ended v f).trace = f.state.trace ∧
      (ended v f).pinState = f.state.pinState ∧ (ended v f).pinLevel = f.state.pinLevel ∧
      (ended v f).init = f.state.init := by
  cases f with
  | ok t => exact ⟨h.fb, h.cfg, h.port, rfl, h.init, h.bw, rfl, rfl, rfl, rfl, rfl⟩
  | raise e t => exact ⟨h.fb, h.cfg, h.port, rfl, h.init, fun _ => rfl, rfl, rfl, rfl, rfl, rfl⟩

end Sys2Proof.Machine
end

