-- ==== Sys2Proof/Laws/Moves.lean ====
section
/-! SUPPORT. What one move of the sequencer, one instruction and one step can do, in every state: `Moved`; and the pins at a
boundary: `PinsHeld`. -/

namespace Sys2Proof.Machine

/-! ### Moves -/

/-- What every move does, wherever in an operation it is: it appends events and keeps the pins in step with them, never
clears INIT, and leaves the cell store, the configuration and the port alone. -/
structure Moved (s t : State) : Prop where
  fb : t.fb = s.fb
  cfg : t.cfg = s.cfg
  port : t.port = s.port
  init : s.init = true → t.init = true
  events : ∃ es, t.trace = s.trace ++ es ∧ pinsAfter (s.pinState, s.pinLevel) es = (t.pinState, t.pinLevel)

theorem Moved.refl (s : State) : Moved s s := ⟨rfl, rfl, rfl, id, [], by simp, rfl⟩

theorem Moved.trans {s t u : State} (h : Moved s t) (h' : Moved t u) : Moved s u := by
  obtain ⟨es, he, hp⟩ := h.events
  obtain ⟨es', he', hp'⟩ := h'.events
  exact ⟨h'.fb.trans h.fb, h'.cfg.trans h.cfg, h'.port.trans h.port, fun hi => h'.init (h.init hi), es ++ es',
    by rw [he', he, List.append_assoc], by rw [pinsAfter_append, hp, hp']⟩

theorem WireRun.moved {bs : List (List Byte)} {s t : State} (h : WireRun bs s t) : Moved s t := by
  obtain ⟨es, he, -, hp, -⟩ := h.events
  exact ⟨h.fb, h.cfg, h.port, h.init, es, he, hp⟩

theorem moved_goto (q : List Pos) (s : State) : Moved s (goto q s) := ⟨rfl, rfl, rfl, id, [], by simp, rfl⟩

theorem moved_takeError (e : Err) (s : State) : Moved s (takeError e s) := ⟨rfl, rfl, rfl, id, [], by simp, rfl⟩

theorem moved_finish (v : Value) (s : State) : Moved s (finish v s) := ⟨rfl, rfl, rfl, id, [], by simp, rfl⟩

theorem moved_leave (v : Value) (rest : List Pos) (s : State) : Moved s (leave v rest s) := by
  cases rest with
  | nil => exact moved_finish v s
  | cons p rest => exact moved_goto (p :: rest) s

theorem moved_pinOpen (r : Role) (d : Dir) (s : State) : Moved s (pinOpen r d s) :=
  ⟨rfl, rfl, rfl, id, [.pinOpen r d], rfl, rfl⟩

theorem moved_pinWrite (r : OutRole) (l : Level) (s : State) : Moved s (pinWrite r l s) :=
  ⟨rfl, rfl, rfl, id, [.pinWrite r l], rfl, rfl⟩

theorem moved_spiWrite (b : List Byte) (s : State) : Moved s (spiWrite b s) :=
  ⟨rfl, rfl, rfl, id, [.spiWrite b], rfl, rfl⟩

theorem moved_beginWait (s : State) : Moved s (beginWait s) := ⟨rfl, rfl, rfl, id, [], by simp, rfl⟩

theorem moved_readBusy (s : State) : Moved s (endWait (readBusy s)) :=
  ⟨rfl, rfl, rfl, id, [.pinRead .busy (nextSample s).level], rfl, rfl⟩

theorem moved_sleepTurn (s : State) : Moved s (sleepTurn s) :=
  ⟨rfl, rfl, rfl, id, [.pinRead .busy (nextSample s).level, .sleep s.cfg.pollIntervalMs], by simp [sleepTurn], rfl⟩

theorem moved_raiseAt (e : Err) (rest : List Pos) (s : State) : Moved s (raiseAt e rest s) := by
  unfold raiseAt
  split
  · exact (wireRun_closePins s).moved.trans (moved_takeError e _)
  · exact moved_takeError e s

theorem moved_tickInit (step : InitStep) (calls : Nat) (rest : List Pos) (s : State) :
    Moved s (tickInit step calls rest s) := by
  cases step
  case busyWait =>
    cases calls with
    | zero => exact moved_goto _ s
    | succ n => exact (wireRun_setInit s).moved.trans (moved_leave ..)
  case openCs | openDc | openRst | openBusy => exact (moved_pinOpen ..).trans (moved_goto ..)
  case writeCs | writeDc | writeRst => exact (moved_pinWrite ..).trans (moved_goto ..)

theorem moved_tickFrame (step : FrameStep) (dc : Level) (bytes : List Byte) (rest : List Pos) (s : State) :
    Moved s (tickFrame step dc bytes rest s) := by
  cases step
  case assertCs =>
    simp only [tickFrame]
    split
    · exact moved_raiseAt ..
    · split
      · exact moved_raiseAt ..
      · exact (moved_pinWrite ..).trans (moved_goto ..)
  case setDc => exact (moved_pinWrite ..).trans (moved_goto ..)
  case spi => exact (moved_spiWrite ..).trans (moved_goto ..)
  case deassertCs => exact (moved_pinWrite ..).trans (moved_leave ..)

theorem moved_tickWait (T : Nat) (rest : List Pos) (s : State) : Moved s (tickWait T rest s) := by
  unfold tickWait
  split
  · exact moved_beginWait s
  · rcases waitTurn_cases T s with ht | ht | ht <;> rw [ht]
    · exact (moved_readBusy s).trans (moved_leave ..)
    · exact (moved_readBusy s).trans (moved_raiseAt ..)
    · exact moved_sleepTurn s

theorem moved_tickPaint (step : PaintStep) (calls : Nat) (pk : List Byte) (rest : List Pos) (s : State) :
    Moved s (tickPaint step calls pk rest s) := by
  unfold tickPaint
  split <;> first
    | exact moved_goto ..
    | (split
       · exact moved_goto ..
       · exact moved_leave ..)

theorem moved_tickAt (p : Pos) (rest : List Pos) (s : State) : Moved s (tickAt p rest s) := by
  unfold tickAt
  split <;> first
    | exact moved_tickInit ..
    | exact moved_tickFrame ..
    | exact moved_tickPaint ..
    | exact moved_tickWait ..
    | exact moved_goto ..
    | exact moved_leave ..

/-- One move of the sequencer, in every state. -/
theorem moved_tick (s : State) : Moved s (tick s) := by
  unfold tick
  split
  · exact Moved.refl s
  · exact moved_tickAt ..

/-! ### Instructions and steps -/

theorem ended_moved {s : State} {f : Flow} (h : Moved s f.state) (v : Value) : Moved s (ended v f) := by
  cases f with
  | ok t => exact h.trans (moved_finish v t)
  | raise e t => exact h.trans (moved_takeError e t)

theorem carriedOn_moved {s : State} {f : Flow} (h : Moved s f.state) : Moved s (carriedOn f) := by
  cases f with
  | ok t => exact h
  | raise e t => exact h.trans (moved_takeError e t)

/-- Every instruction but SET_PIXEL. -/
theorem exec_moved {i : Instr} (hi : ∀ x y c, i ≠ .setPixel x y c) {s t : State} (h : exec i s = .next t) :
    Moved s t := by
  cases ho : isHostOp i with
  | true =>
    obtain ⟨-, v, f, hf, rfl⟩ := exec_hostOp_next ho h
    exact ended_moved (opFlow_wireRun hi hf).moved v
  | false =>
    obtain ⟨f, hf, rfl⟩ := exec_wire_next ho h
    obtain ⟨bs, hr⟩ := wireFlow_wireRun hf
    exact carriedOn_moved hr.moved

/-- A coordinate that passes its range check is its own natural number. -/
theorem coord_toNat {x : Coord} {n : Nat} (h0 : 0 ≤ x.toInt) (h : x.toInt < n) :
    x.toNat = x.toInt.toNat ∧ x.toNat < n := by
  have hx : x.toInt = x.toNat := by
    rw [BitVec.toInt_eq_toNat_cond] at *
    split at h0
    · next hlt => rw [if_pos hlt]
    · omega
  omega

/-- Coordinates without a BoundsError name a cell of the grid. -/
theorem boundsError_none {x y : Coord} (h : boundsError x y = none) : x.toNat < gridW ∧ y.toNat < gridH := by
  unfold boundsError at h
  split at h
  · exact absurd h (by simp)
  · split at h
    · exact absurd h (by simp)
    · next hx hy =>
      simp only [inRange, Bool.and_eq_false_iff, decide_eq_false_iff_not, not_or, Decidable.not_not] at hx hy
      exact ⟨(coord_toNat hx.1 hx.2).2, (coord_toNat hy.1 hy.2).2⟩

/-- What SET_PIXEL does: one cell of the grid, or nothing, and the result. -/
theorem setPixel_next {x y : Coord} {c : Color} {s t : State} (h : exec (.setPixel x y c) s = .next t) :
    (∃ e, boundsError x y = some e ∧ t = takeError e s) ∨
      (boundsError x y = none ∧ t = finish .none (writeCell x y c s)) := by
  obtain ⟨-, v, f, hf, rfl⟩ := exec_hostOp_next (i := .setPixel x y c) rfl h
  simp only [opFlow] at hf
  cases hb : boundsError x y with
  | some e => rw [hb] at hf; obtain ⟨-, rfl⟩ := Prod.mk.inj (Option.some.inj hf); exact .inl ⟨e, rfl, rfl⟩
  | none =>
    rw [hb] at hf
    obtain ⟨rfl, rfl⟩ := Prod.mk.inj (Option.some.inj hf)
    exact .inr ⟨rfl, rfl⟩

theorem writeCell_wf {x y : Coord} (c : Color) {s : State} (hb : boundsError x y = none) (h : Memory.wf s.fb = true) :
    Memory.wf (writeCell x y c s).fb = true :=
  Memory.wf_set h (cellKey_lt (boundsError_none hb).1 (boundsError_none hb).2)

/-- Every instruction: `Moved`, but for the cell store, which keeps its form. -/
theorem exec_moved_all {i : Instr} {s t : State} (h : exec i s = .next t) :
    Moved s { t with fb := s.fb } ∧ (Memory.wf s.fb = true → Memory.wf t.fb = true) := by
  by_cases hsp : ∃ x y c, i = .setPixel x y c
  · obtain ⟨x, y, c, rfl⟩ := hsp
    rcases setPixel_next h with ⟨e, -, rfl⟩ | ⟨hb, rfl⟩
    · exact ⟨moved_takeError e s, id⟩
    · exact ⟨⟨rfl, rfl, rfl, id, [], by simp [finish, writeCell], rfl⟩, writeCell_wf c hb⟩
  · have hm := exec_moved (fun x y c hc => hsp ⟨x, y, c, hc⟩) h
    refine ⟨⟨rfl, hm.cfg, hm.port, hm.init, hm.events⟩, fun hw => by rw [hm.fb]; exact hw⟩

/-- The ways a step gives a next state. -/
theorem step_next {s t : State} (h : step s = .next t) :
    s.cfg.legal = true ∧
      ((s.seq = [] ∧ s.port = [] ∧ t = s) ∨
       (∃ bs rest i, s.seq = [] ∧ s.port = bs :: rest ∧ decodeOp bs = .ok i ∧ exec i { s with port := rest } = .next t) ∨
       (∃ p rest i u, s.seq = p :: rest ∧ wireAt p = some i ∧ exec i s = .next u ∧
          (u.seq = [] ∧ t = u ∨ u.seq ≠ [] ∧ t = { u with seq := afterWire p :: rest })) ∨
       (∃ p rest, s.seq = p :: rest ∧ wireAt p = none ∧ t = tick s)) := by
  unfold step at h
  split at h
  · next hc =>
    refine ⟨hc, ?_⟩
    split at h
    · next hs =>
      unfold stepPort at h
      split at h
      · next hp => simp only [Host.Outcome.next.injEq] at h; exact .inl ⟨hs, hp, h.symm⟩
      · next bs rest hp =>
        split at h
        · next i hd => exact .inr (.inl ⟨bs, rest, i, hs, hp, hd, h⟩)
        · exact absurd h (by simp)
    · next p rest hs =>
      split at h
      · next i hw =>
        refine .inr (.inr (.inl ⟨p, rest, i, ?_⟩))
        unfold afterCommand at h
        split at h
        · next u hu =>
          refine ⟨u, hs, hw, hu, ?_⟩
          split at h
          · next hq => simp only [Host.Outcome.next.injEq] at h; exact .inl ⟨hq, h.symm⟩
          · next hq => simp only [Host.Outcome.next.injEq] at h; exact .inr ⟨by simp [hq], h.symm⟩
        · exact absurd h (by simp)
        · exact absurd h (by simp)
      · next hw => simp only [Host.Outcome.next.injEq] at h; exact .inr (.inr (.inr ⟨p, rest, hs, hw, h.symm⟩))
  · exact absurd h (by simp)

/-- What an opcode byte decodes to is a wire command. -/
theorem decodeCommand_wire {c : Byte} {pk : List Byte} {i : Instr} (h : decodeCommand c pk = .ok i) :
    isHostOp i = false := by
  unfold decodeCommand at h
  split at h <;> first
    | (simp only [Except.ok.injEq] at h; subst h; rfl)
    | exact absurd h (by simp)

/-- What stands at a position of SEQ is a wire command. -/
theorem wireAt_wire {p : Pos} {i : Instr} (h : wireAt p = some i) : isHostOp i = false := by
  unfold wireAt at h
  split at h
  · exact absurd h (by simp)
  · split at h
    · next hd =>
      simp only [Option.some.injEq] at h
      subst h
      exact decodeCommand_wire hd
    · exact absurd h (by simp)

/-- Every step, in every state: `Moved`, but for the port and the cell store, which keeps its form. -/
theorem step_moved {s t : State} (h : step s = .next t) :
    Moved s { t with fb := s.fb, port := s.port } ∧ (Memory.wf s.fb = true → Memory.wf t.fb = true) ∧
      (s.seq ≠ [] → t.port = s.port) := by
  obtain ⟨-, hcase⟩ := step_next h
  rcases hcase with ⟨-, -, rfl⟩ | ⟨bs, rest, i, hs, -, -, he⟩ | ⟨p, rest, i, u, -, -, hu, ht⟩ | ⟨p, rest, -, -, rfl⟩
  · exact ⟨Moved.refl _, id, fun _ => rfl⟩
  · obtain ⟨hm, hw⟩ := exec_moved_all he
    exact ⟨⟨rfl, hm.cfg, rfl, hm.init, hm.events⟩, hw, fun hn => absurd hs hn⟩
  · obtain ⟨hm, hw⟩ := exec_moved_all hu
    rcases ht with ⟨-, rfl⟩ | ⟨-, rfl⟩ <;> exact ⟨⟨rfl, hm.cfg, rfl, hm.init, hm.events⟩, hw, fun _ => hm.port⟩
  · have hm := moved_tick s
    exact ⟨⟨rfl, hm.cfg, rfl, hm.init, hm.events⟩, fun hw => by rw [hm.fb]; exact hw, fun _ => hm.port⟩

/-! ### The pins at a boundary -/

/-- The pins of an engine that is in no bring-up: open and CS, RST high where it is initialized, closed where it is not
(R19, R20, R32). -/
structure PinsHeld (s : State) : Prop where
  openPins : s.init = true → s.pinState = openModes
  closedPins : s.init = false → s.pinState = closedModes
  csHigh : s.init = true → s.pinLevel.cs = .driven .high
  rstHigh : s.init = true → s.pinLevel.rst = .driven .high
  undriven : s.init = false → s.pinLevel = undrivenLevels

theorem Boundary.pinsHeld {s : State} (h : Boundary s) : PinsHeld s :=
  ⟨h.openPins, h.closedPins, h.csHigh, h.rstHigh, h.undriven⟩

theorem PinsHeld.congr {s t : State} (h : PinsHeld s) (hi : t.init = s.init) (hp : t.pinState = s.pinState)
    (hl : t.pinLevel = s.pinLevel) : PinsHeld t := by
  obtain ⟨h1, h2, h3, h4, h5⟩ := h
  exact ⟨by rw [hi, hp]; exact h1, by rw [hi, hp]; exact h2, by rw [hi, hl]; exact h3, by rw [hi, hl]; exact h4,
    by rw [hi, hl]; exact h5⟩

theorem pinsHeld_sent {s : State} (h : PinsHeld s) (hi : s.init = true) (es : List Event) (dc : Level) :
    PinsHeld (sent es dc s) :=
  ⟨h.openPins, h.closedPins, fun _ => rfl, h.rstHigh, fun h0 => absurd (hi.symm.trans h0) (by decide)⟩

theorem pinsHeld_frame {s : State} (h : PinsHeld s) (dc : Level) (bytes : List Byte) :
    PinsHeld (frame dc bytes s).state := by
  unfold frame
  split
  · exact h
  · split
    · exact h
    · next hi => rw [frameEvents_eq]; exact pinsHeld_sent h (by simpa using hi) _ _

theorem PinsHeld.andThen {f : Flow} {k : State → Flow} (hf : PinsHeld f.state)
    (hk : ∀ t, f = .ok t → PinsHeld t → PinsHeld (k t).state) : PinsHeld (f.andThen k).state := by
  cases f with
  | ok t => exact hk t rfl hf
  | raise e t => exact hf

theorem pinsHeld_regWrite {s : State} (h : PinsHeld s) (c : Byte) (p : List Byte) : PinsHeld (regWrite c p s).state :=
  (pinsHeld_frame h .low [c]).andThen fun _ _ ht => pinsHeld_frame ht .high p

theorem pinsHeld_registerSequence {s : State} (h : PinsHeld s) : PinsHeld (registerSequence s).state := by
  cases hi : s.init with
  | true => rw [registerSequence_sent hi]; exact pinsHeld_sent h hi _ _
  | false => rw [registerSequence_uninitialized hi]; exact h

theorem pinsHeld_waitReady {s : State} (h : PinsHeld s) (T : Nat) : PinsHeld (waitReady T s).state :=
  h.congr (waitReady_init T s) (waitReady_pinState T s) (waitReady_pinLevel T s)

theorem pinsHeld_initialise {s : State} (h : PinsHeld s) : PinsHeld (initialise s).state := by
  unfold initialise
  split
  · next hi =>
    split
    · refine pinsHeld_waitReady (s := drivePins s) ?_ tInitMs
      rw [drivePins_eq]
      exact ⟨h.openPins, h.closedPins, fun _ => rfl, fun _ => rfl, fun h0 => absurd (hi.symm.trans h0) (by decide)⟩
    · exact h
  · next hi =>
    have hi : s.init = false := by simpa using hi
    have h1 := waitReady_init tInitMs (drivePins (openPins s))
    have h2 := waitReady_pinState tInitMs (drivePins (openPins s))
    have h3 := waitReady_pinLevel tInitMs (drivePins (openPins s))
    unfold bringUp
    split
    · next t ht =>
      rw [ht] at h2 h3
      rw [drivePins_openPins] at h2 h3
      simp only [Flow.state] at h2 h3
      exact ⟨fun _ => h2, fun h0 => absurd h0 (by simp [Flow.state]), fun _ => by simp [Flow.state, h3],
        fun _ => by simp [Flow.state, h3], fun h0 => absurd h0 (by simp [Flow.state])⟩
    · next e t ht =>
      rw [ht] at h1
      have h1 : t.init = false := h1.trans hi
      rw [closePins_eq]
      have hn : ∀ {p : Prop}, t.init = true → p := fun h => absurd (h1.symm.trans h) (by decide)
      exact ⟨fun h => hn h, fun _ => rfl, fun h => hn h, fun h => hn h, fun _ => rfl⟩

theorem pinsHeld_powerStep {s : State} (h : PinsHeld s) (T : Nat) : PinsHeld (powerStep T s).state :=
  (pinsHeld_frame h .low [powerOpcode]).andThen fun _ _ ht => pinsHeld_waitReady ht T

theorem pinsHeld_paintCycle {s : State} (h : PinsHeld s) (pk : List Byte) : PinsHeld (paintCycle pk s).state := by
  refine PinsHeld.andThen (PinsHeld.andThen (PinsHeld.andThen (PinsHeld.andThen (PinsHeld.andThen
    (pinsHeld_initialise h) ?_) ?_) ?_) ?_) ?_
  · exact fun t _ ht => pinsHeld_registerSequence ht
  · exact fun t _ ht => pinsHeld_regWrite ht _ _
  · exact fun t _ ht => pinsHeld_powerStep ht _
  · exact fun t _ ht => pinsHeld_powerStep ht _
  · exact fun t _ ht => pinsHeld_powerStep ht _

theorem pinsHeld_ended {f : Flow} (h : PinsHeld f.state) (v : Value) : PinsHeld (ended v f) := by
  cases f <;> exact h.congr rfl rfl rfl

theorem pinsHeld_carriedOn {f : Flow} (h : PinsHeld f.state) : PinsHeld (carriedOn f) := by
  cases f <;> exact h.congr rfl rfl rfl

/-- Every host operation keeps the pins of a boundary. -/
theorem opFlow_pinsHeld {i : Instr} {s : State} (hs : PinsHeld s) {v : Value} {f : Flow}
    (h : opFlow i s = some (v, f)) : PinsHeld f.state := by
  cases i <;> simp only [opFlow, reduceCtorEq] at h
  case initializeDriver => obtain ⟨-, rfl⟩ := Prod.mk.inj (Option.some.inj h); exact pinsHeld_initialise hs
  case writeCommand => obtain ⟨-, rfl⟩ := Prod.mk.inj (Option.some.inj h); exact pinsHeld_frame hs _ _
  case writeData => obtain ⟨-, rfl⟩ := Prod.mk.inj (Option.some.inj h); exact pinsHeld_frame hs _ _
  case resetDisplay => obtain ⟨-, rfl⟩ := Prod.mk.inj (Option.some.inj h); exact pinsHeld_registerSequence hs
  case setResolution => obtain ⟨-, rfl⟩ := Prod.mk.inj (Option.some.inj h); exact pinsHeld_regWrite hs _ _
  case flush =>
    split at h
    · obtain ⟨-, rfl⟩ := Prod.mk.inj (Option.some.inj h)
      exact pinsHeld_paintCycle hs _
    · exact absurd h (by simp)
  case waitForReady =>
    split at h
    · obtain ⟨-, rfl⟩ := Prod.mk.inj (Option.some.inj h)
      exact pinsHeld_waitReady hs _
    · exact absurd h (by simp)
  case setPixel x y c =>
    cases hb : boundsError x y <;> rw [hb] at h <;> obtain ⟨-, rfl⟩ := Prod.mk.inj (Option.some.inj h) <;>
      exact hs.congr rfl rfl rfl
  case render => obtain ⟨-, rfl⟩ := Prod.mk.inj (Option.some.inj h); exact pinsHeld_paintCycle hs _
  case fromByte b =>
    cases hb : Color.ofByte b <;> rw [hb] at h <;> obtain ⟨-, rfl⟩ := Prod.mk.inj (Option.some.inj h) <;> exact hs
  all_goals (obtain ⟨-, rfl⟩ := Prod.mk.inj (Option.some.inj h); exact hs)

/-- Every wire command keeps them too. -/
theorem wireFlow_pinsHeld {i : Instr} {s : State} (hs : PinsHeld s) {f : Flow} (h : wireFlow i s = some f) :
    PinsHeld f.state := by
  cases i <;> simp only [wireFlow, reduceCtorEq] at h
  case cmdImageTransfer =>
    split at h <;> simp only [Option.some.injEq, reduceCtorEq] at h
    subst h
    exact pinsHeld_regWrite hs _ _
  case cmdPowerOn => obtain rfl := Option.some.inj h; exact pinsHeld_frame hs _ _
  all_goals (obtain rfl := Option.some.inj h; exact pinsHeld_regWrite hs _ _)

theorem exec_pinsHeld {i : Instr} {s t : State} (hs : PinsHeld s) (h : exec i s = .next t) : PinsHeld t := by
  cases ho : isHostOp i with
  | true =>
    obtain ⟨-, v, f, hf, rfl⟩ := exec_hostOp_next ho h
    exact pinsHeld_ended (opFlow_pinsHeld hs hf) v
  | false =>
    obtain ⟨f, hf, rfl⟩ := exec_wire_next ho h
    exact pinsHeld_carriedOn (wireFlow_pinsHeld hs hf)

/-- Every instruction run at a boundary: it ends Idle, with no wait in progress. -/
theorem exec_idle {i : Instr} {s t : State} (hs : Idle s) (h : exec i s = .next t) : Idle t := by
  cases ho : isHostOp i with
  | true =>
    obtain ⟨-, v, f, hf, rfl⟩ := exec_hostOp_next ho h
    by_cases hsp : ∃ x y c, i = .setPixel x y c
    · obtain ⟨x, y, c, rfl⟩ := hsp
      rcases setPixel_next h with ⟨e, -, he⟩ | ⟨-, he⟩ <;> rw [he] <;> first | exact ⟨rfl, rfl⟩ | exact ⟨rfl, hs.bw⟩
    · have hr := ended_of_wireRun (opFlow_wireRun (fun x y c hc => hsp ⟨x, y, c, hc⟩) hf) v
      exact ⟨hr.2.2.2.1, hr.2.2.2.2.2.1 hs.bw⟩
  | false =>
    obtain ⟨f, hf, rfl⟩ := exec_wire_next ho h
    obtain ⟨bs, hr⟩ := wireFlow_wireRun hf
    cases f with
    | ok t => exact ⟨hr.seq.trans hs.seq, hr.bw hs.bw⟩
    | raise e t => exact ⟨rfl, rfl⟩

/-- Every instruction run at a boundary ends at one. -/
theorem exec_boundary {i : Instr} {s t : State} (hs : Boundary s) (h : exec i s = .next t) : Boundary t := by
  have hp := exec_pinsHeld hs.pinsHeld h
  exact ⟨exec_idle hs.idle h, (exec_moved_all h).2 hs.cells, hp.openPins, hp.closedPins, hp.csHigh, hp.rstHigh,
    hp.undriven⟩

/-- Every instruction appends whole frames. -/
theorem exec_wellFramed {i : Instr} {s t : State} (h : exec i s = .next t) :
    ∃ es, t.trace = s.trace ++ es ∧ WellFramed es := by
  cases ho : isHostOp i with
  | true =>
    obtain ⟨-, v, f, hf, rfl⟩ := exec_hostOp_next ho h
    by_cases hsp : ∃ x y c, i = .setPixel x y c
    · obtain ⟨x, y, c, rfl⟩ := hsp
      rcases setPixel_next h with ⟨e, -, he⟩ | ⟨-, he⟩ <;> rw [he] <;> exact ⟨[], by simp, rfl⟩
    · have hr := opFlow_wireRun (fun x y c hc => hsp ⟨x, y, c, hc⟩) hf
      obtain ⟨es, he, hw, -, -⟩ := hr.events
      exact ⟨es, by rw [(ended_of_wireRun hr v).2.2.2.2.2.2.2.1, he], hw⟩
  | false =>
    obtain ⟨f, hf, rfl⟩ := exec_wire_next ho h
    obtain ⟨bs, hr⟩ := wireFlow_wireRun hf
    obtain ⟨es, he, hw, -, -⟩ := hr.events
    exact ⟨es, by rw [← he]; cases f <;> rfl, hw⟩

end Sys2Proof.Machine
end

