-- ==== Sys2Proof/Laws/PerInstr.lean ====
section
/-! SUPPORT. The family RoundTrip: for each instruction, that decoding its encoding gives it back when it is well formed. -/

/-- Decoding the encoding of a well-formed instruction gives it back. -/
def Sys2Proof.Laws.RoundTrip.Statement (i : Sys2Proof.Instr) : Prop :=
  i.wf = true → Sys2Proof.decode i.format (Sys2Proof.encode i) = .ok i

namespace Sys2Proof

theorem Laws.RoundTrip.initializeDriver : Laws.RoundTrip.Statement .initializeDriver := fun _ => rfl

theorem Laws.RoundTrip.writeCommand (bytes : List Byte) : Laws.RoundTrip.Statement (.writeCommand bytes) := fun _ =>
  decodeOp_cons (by simpa [decodeOperands] using congrArg (parseThen · _) (getBytes_putBytes bytes []))

theorem Laws.RoundTrip.writeData (bytes : List Byte) : Laws.RoundTrip.Statement (.writeData bytes) := fun _ =>
  decodeOp_cons (by simpa [decodeOperands] using congrArg (parseThen · _) (getBytes_putBytes bytes []))

theorem Laws.RoundTrip.resetDisplay : Laws.RoundTrip.Statement .resetDisplay := fun _ => rfl

theorem Laws.RoundTrip.setResolution : Laws.RoundTrip.Statement .setResolution := fun _ => rfl

theorem Laws.RoundTrip.flush (pk : List Byte) : Laws.RoundTrip.Statement (.flush pk) := fun _ =>
  decodeOp_cons (by simpa [decodeOperands] using congrArg (parseThen · _) (getBytes_putBytes pk []))

theorem Laws.RoundTrip.waitForReady (r : Role) (T : Nat) : Laws.RoundTrip.Statement (.waitForReady r T) := fun _ =>
  decodeOp_cons (by
    simpa [decodeOperands] using congrArg (parseThen · fun t r' => .ok (Instr.waitForReady r t, r')) (getNat_putNat T []))

theorem Laws.RoundTrip.setPixel (x y : Coord) (c : Color) : Laws.RoundTrip.Statement (.setPixel x y c) := fun _ =>
  decodeOp_cons (by simp [decodeOperands])

theorem Laws.RoundTrip.getPixels : Laws.RoundTrip.Statement .getPixels := fun _ => rfl

theorem Laws.RoundTrip.render : Laws.RoundTrip.Statement .render := fun _ => rfl

theorem Laws.RoundTrip.fromByte (b : Byte) : Laws.RoundTrip.Statement (.fromByte b) := fun _ => rfl

theorem Laws.RoundTrip.toByte (c : Color) : Laws.RoundTrip.Statement (.toByte c) := fun _ =>
  decodeOp_cons (by simp [decodeOperands])

theorem Laws.RoundTrip.dispatch (c : Color) (h : Handlers) : Laws.RoundTrip.Statement (.dispatch c h) := fun _ =>
  decodeOp_cons (by
    simpa [decodeOperands] using congrArg (parseThen · fun k r => .ok (Instr.dispatch c k, r)) (getHandlers_putHandlers h []))

theorem Laws.RoundTrip.flatten (g : Grid Nat) : Laws.RoundTrip.Statement (.flatten g) := fun h =>
  decodeOp_cons (by simpa [decodeOperands] using congrArg (parseThen · fun k r => .ok (Instr.flatten k, r)) (getGrid_putGrid h []))

theorem Laws.RoundTrip.mirrorColumns (g : Grid Nat) : Laws.RoundTrip.Statement (.mirrorColumns g) := fun h =>
  decodeOp_cons (by simpa [decodeOperands] using congrArg (parseThen · fun k r => .ok (Instr.mirrorColumns k, r)) (getGrid_putGrid h []))

theorem Laws.RoundTrip.mirrorRows (g : Grid Nat) : Laws.RoundTrip.Statement (.mirrorRows g) := fun h =>
  decodeOp_cons (by simpa [decodeOperands] using congrArg (parseThen · fun k r => .ok (Instr.mirrorRows k, r)) (getGrid_putGrid h []))

theorem Laws.RoundTrip.rotate (a : Nat) (g : Grid Nat) : Laws.RoundTrip.Statement (.rotate a g) := fun h =>
  decodeOp_cons (by
    simpa [decodeOperands] using congrArg (parseThen · fun k r => .ok (Instr.rotate a k, r)) (getGrid_putGrid h []))

theorem Laws.RoundTrip.cmdPanelSetting : Laws.RoundTrip.Statement .cmdPanelSetting := fun _ => rfl

theorem Laws.RoundTrip.cmdPowerSetting : Laws.RoundTrip.Statement .cmdPowerSetting := fun _ => rfl

theorem Laws.RoundTrip.cmdPowerOffSeq : Laws.RoundTrip.Statement .cmdPowerOffSeq := fun _ => rfl

theorem Laws.RoundTrip.cmdPowerOn : Laws.RoundTrip.Statement .cmdPowerOn := fun _ => rfl

theorem Laws.RoundTrip.cmdImageTransfer (pk : List Byte) : Laws.RoundTrip.Statement (.cmdImageTransfer pk) := fun _ => rfl

theorem Laws.RoundTrip.cmdPll : Laws.RoundTrip.Statement .cmdPll := fun _ => rfl

theorem Laws.RoundTrip.cmdTse : Laws.RoundTrip.Statement .cmdTse := fun _ => rfl

theorem Laws.RoundTrip.cmdVcomDataInterval : Laws.RoundTrip.Statement .cmdVcomDataInterval := fun _ => rfl

theorem Laws.RoundTrip.cmdNonOverlap : Laws.RoundTrip.Statement .cmdNonOverlap := fun _ => rfl

theorem Laws.RoundTrip.cmdResolution : Laws.RoundTrip.Statement .cmdResolution := fun _ => rfl

theorem Laws.RoundTrip.cmdFlashDisable : Laws.RoundTrip.Statement .cmdFlashDisable := fun _ => rfl

theorem Laws.RoundTrip.cmdSevenColour : Laws.RoundTrip.Statement .cmdSevenColour := fun _ => rfl

end Sys2Proof
end

