-- ==== Sys2Proof/Laws/Run.lean ====
section
/-! SUPPORT. Running the sequencer: what its moves and the steps of the machine have in common, `Way`, and where a frame, a
wait, INITIALIZE, the register sequence and one power step bring a state whose SEQ stands at their first position. -/

namespace Sys2Proof.Machine

/-- A way of running a state whose SEQ is not Idle, event by event or wire command by wire command: it makes every move of
the sequencer that sends no wire command, and sends a wire command at its position. -/
structure Way (R : State → State → Prop) : Prop where
  refl : ∀ s, R s s
  trans : ∀ {s t u}, R s t → R t u → R s u
  tick : ∀ (p : Pos) (rest : List Pos) (s : State), s.seq = p :: rest → wireAt p = none → R s (tick s)
  reg : ∀ k (rest : List Pos) (s : State), s.init = true →
    R (goto (.regSeq k 0 :: rest) s) (goto (.regSeq k 2 :: rest) (sent (regW (regSeqRow k).1
        (regSeqRow k).2) .high s))
  res : ∀ (rest : List Pos) (s : State), s.init = true →
    R (goto (.res 0 :: rest) s) (goto (.res 2 :: rest) (sent (regW 0x61 [0x01, 0xF4, 0x01, 0xC0]) .high s))
  image : ∀ (rest : List Pos) (s : State) (pk : List Byte), s.init = true → isImage pk = true →
    R (goto (.paint .image 0 pk :: rest) s) (goto (.paint .image 2 pk :: rest) (sent (regW 0x10 pk) .high s))
  power : ∀ (p : PaintStep) (rest : List Pos) (s : State) (pk : List Byte), s.init = true → p ≠ .registers
      → p ≠ .image →
    R (goto (.paint p 0 pk :: rest) s) (goto (.paint p 1 pk :: rest) (sent (cmdF [0x04]) .low s))
  reg0 : ∀ (s : State), s.init = false → R (goto [.regSeq 0 0] s) (takeError .protocolState s)
  res0 : ∀ (s : State), s.init = false → R (goto [.res 0] s) (takeError .protocolState s)

variable {R : State → State → Prop}

/-- Leaving a position forgets what SEQ was. -/
theorem leave_goto (v : Value) (rest q : List Pos) (s : State) : leave v rest (goto q s) = leave v rest s := by
  cases rest <;> rfl

/-- So does raising an error. -/
theorem raiseAt_goto (e : Err) (rest q : List Pos) (t : State) : raiseAt e rest (goto q t) = raiseAt e rest t := by
  show takeError e (if (rest.any Pos.isInit && !t.init) = true then closePins (goto q t) else goto q t) =
    takeError e (if (rest.any Pos.isInit && !t.init) = true then closePins t else t)
  by_cases hx : (rest.any Pos.isInit && !t.init) = true
  · rw [if_pos hx, if_pos hx]; rfl
  · rw [if_neg hx, if_neg hx]; rfl

/-- An error raised inside no INITIALIZE is taken as it stands (R240). -/
theorem raise_noInit {rest : List Pos} (h : rest.any Pos.isInit = false) (e : Err) (s : State) (q : List Pos) :
    raiseAt e rest (goto q s) = takeError e s := by
  simp [raiseAt, h]; rfl

theorem way_tick (W : Way R) {p : Pos} {rest : List Pos} {s t : State} (hw : wireAt p = none) 
    (ht : tickAt p rest (goto (p :: rest) s) = t) : R (goto (p :: rest) s) t := by
  subst ht
  exact W.tick p rest _ rfl hw

/-- A frame of an initialized engine, from its first position on (R130). -/
theorem way_frame (W : Way R) {dc : Level} {bytes : List Byte} (hb : bytes ≠ []) (rest : List Pos) {s : State}
    (hi : s.init = true) :
    R (goto (.frame .assertCs dc bytes :: rest) s) (leave .none rest (sent (frameF dc bytes) dc s)) := by
  refine W.trans (t := goto (.frame .setDc dc bytes :: rest) (pinWrite .cs .low s)) (way_tick W rfl ?_) ?_
  · simp [tickAt, tickFrame, hb, hi]; rfl
  refine W.trans (t := goto (.frame .spi dc bytes :: rest) (pinWrite .dc dc (pinWrite .cs .low s)))
      (way_tick W rfl rfl) ?_
  refine W.trans (t := goto (.frame .deassertCs dc bytes :: rest) (spiWrite bytes (pinWrite .dc dc
      (pinWrite .cs .low s)))) (way_tick W rfl rfl) ?_
  refine way_tick W rfl ?_
  rw [← frameEvents_eq]
  cases rest <;> rfl

/-- The polling loop, from any of its turns on (R110). -/
theorem way_wait_loop (W : Way R) (T : Nat) (rest : List Pos) (fuel : Nat) : ∀ (s : State) (b : BusyWait),
    s.seq = .wait T :: rest → s.bw = some b → 0 < s.cfg.pollIntervalMs → T ≤ elapsed s + fuel →
    (∀ t, waitLoop T fuel s = .ok t → R s (leave .none rest t)) ∧
    (∀ e t, waitLoop T fuel s = .raise e t → R s (raiseAt e rest t)) := by
  induction fuel with
  | zero =>
    intro s b hs hb hp hf
    have h1 : R s (tick s) := W.tick _ _ s hs rfl
    have hd : T ≤ elapsed s := by omega
    have ht : tick s = match waitTurn T s with
      | .ready t => leave .none rest t
      | .timedOut t => raiseAt (.timeout T) rest t
      | .again t => t := by
        simp only [tick, hs, tickAt, tickWait, hb] <;> rfl
    by_cases hl : (nextSample s).level = .high
    · have hw : waitTurn T s = .ready (endWait (readBusy s)) := by simp [waitTurn, hl]
      rw [hw] at ht; simp only at ht
      simp only [waitLoop, hw, Flow.ok.injEq, reduceCtorEq]
      refine ⟨fun t h => ?_, fun e t h => absurd h (by simp)⟩
      subst h; rw [← ht]; exact h1
    · have hw : waitTurn T s = .timedOut (endWait (readBusy s)) := by simp [waitTurn, hl, hd]
      rw [hw] at ht; simp only at ht
      simp only [waitLoop, hw, reduceCtorEq]
      refine ⟨fun t h => absurd h (by simp), fun e t h => ?_⟩
      simp only [Flow.raise.injEq] at h
      obtain ⟨rfl, rfl⟩ := h
      rw [← ht]; exact h1
  | succ fuel ih =>
    intro s b hs hb hp hf
    have h1 : R s (tick s) := W.tick _ _ s hs rfl
    have ht : tick s = match waitTurn T s with
      | .ready t => leave .none rest t
      | .timedOut t => raiseAt (.timeout T) rest t
      | .again t => t := by
        simp only [tick, hs, tickAt, tickWait, hb] <;> rfl
    rcases waitTurn_cases T s with hw | hw | hw <;> rw [hw] at ht <;> simp only at ht <;> simp only [waitLoop, hw]
    · refine ⟨fun t h => ?_, fun e t h => absurd h (by simp)⟩
      simp only [Flow.ok.injEq] at h; subst h; rw [← ht]; exact h1
    · refine ⟨fun t h => absurd h (by simp), fun e t h => ?_⟩
      simp only [Flow.raise.injEq] at h
      obtain ⟨rfl, rfl⟩ := h
      rw [← ht]; exact h1
    · have := ih (sleepTurn s) _ (show (sleepTurn s).seq = _ from hs) rfl (show 0 <
        (sleepTurn s).cfg.pollIntervalMs from hp) (by rw [elapsed_sleepTurn]; omega)
      rw [ht] at h1
      exact ⟨fun t h => W.trans h1 (this.1 t h), fun e t h => W.trans h1 (this.2 e t h)⟩

/-- A wait, from its start on (R110). -/
theorem way_wait (W : Way R) {T n : Nat} {l : Level} (rest : List Pos) {s : State} (hb : s.bw = none)
    (hp : 0 < s.cfg.pollIntervalMs)
    (h : WaitTakes s T n l) :
    R (goto (.wait T :: rest) s) (match l with
      | .high => leave .none rest (waited n .high s)
      | .low => raiseAt (.timeout T) rest (goto rest (waited n .low s))) := by
  have h1 : R (goto (.wait T :: rest) s) (goto (.wait T :: rest) (beginWait s)) := by
    refine way_tick W rfl ?_
    simp only [tickAt, tickWait, goto_bw, hb]; rfl
  have h2 := way_wait_loop W T rest T (goto (.wait T :: rest) (beginWait s)) _ rfl rfl hp (by simp)
  have he : waitReady T (goto (.wait T :: rest) s) = waitEnd T n l (goto (.wait T :: rest) s) := waitReady_eq hp
      (h.congr rfl rfl rfl)
  have he' : waitLoop T T (goto (.wait T :: rest) (beginWait s)) = waitEnd T n l (goto (.wait T :: rest) s) := he
  cases l with
  | high =>
    have := h2.1 _ he'
    refine W.trans h1 ?_
    have e : leave .none rest (waited n .high (goto (.wait T :: rest) s)) = leave .none rest (waited n .high s) := by
      cases rest <;> rfl
    rw [← e]; exact this
  | low =>
    have := h2.2 _ _ he'
    refine W.trans h1 ?_
    have e : raiseAt (.timeout T) rest (waited n .low (goto (.wait T :: rest) s)) = raiseAt (.timeout T) rest
        (goto rest (waited n .low s)) := by
      exact (raiseAt_goto _ _ _ (waited n .low s)).trans (raiseAt_goto _ _ _ _).symm
    simp only; rw [← e]; exact this

/-- INITIALIZE that has something to run, from its first position on (R125 to R127). -/
theorem way_init (W : Way R) (rest : List Pos) (hr : rest.any Pos.isInit = false) {s : State} (hb : s.bw = none)
    (hp : 0 < s.cfg.pollIntervalMs)
    (hq : initPositions s ≠ []) :
    (∀ t, initialise s = .ok t → R (goto (initPositions s ++ rest) s) (leave .none rest t)) ∧
    (∀ e t, initialise s = .raise e t → R (goto (initPositions s ++ rest) s) (takeError e t)) := by
  have common : ∀ s : State, s.bw = none → 0 < s.cfg.pollIntervalMs →
      R (goto (.init .writeCs 0 :: rest) s) (goto (.wait tInitMs :: .init .busyWait 1 :: rest) (drivePins s)) := by
    intro s hb hp
    refine W.trans (t := goto (.init .writeDc 0 :: rest) (pinWrite .cs .high s)) (way_tick W rfl rfl) ?_
    refine W.trans (t := goto (.init .writeRst 0 :: rest) (pinWrite .dc .low (pinWrite .cs .high s)))
        (way_tick W rfl rfl) ?_
    refine W.trans (t := goto (.init .busyWait 0 :: rest) (drivePins s)) (way_tick W rfl rfl) ?_
    exact way_tick W rfl rfl
  have fin : ∀ (s : State) (n : Nat) (l : Level), s.bw = none → 0 < s.cfg.pollIntervalMs → WaitTakes s tInitMs n l →
      R (goto (.init .writeCs 0 :: rest) s) (match l with
        | .high => leave .none rest (setInit (waited n .high (drivePins s)))
        | .low => takeError (.timeout tInitMs) (if !s.init then closePins (waited n .low
            (drivePins s)) else waited n .low (drivePins s))) := by
    intro s n l hb hp hw
    refine W.trans (common s hb hp) ?_
    have := way_wait W (.init .busyWait 1 :: rest) (s := drivePins s) (T := tInitMs) (n := n) (l := l) hb hp
        (hw.congr rfl rfl rfl)
    refine W.trans this ?_
    cases l with
    | high =>
      refine way_tick W (rest := rest) (s := waited n .high (drivePins s)) rfl ?_
      cases rest <;> rfl
    | low =>
      simp only
      have : raiseAt (.timeout tInitMs) (.init .busyWait 1 :: rest) (goto (.init .busyWait 1 :: rest)
          (waited n .low (drivePins s)))
        = takeError (.timeout tInitMs) (if !s.init then closePins (waited n .low (drivePins s)) else waited n .low
            (drivePins s)) := by
        simp only [raiseAt, List.any_cons, Pos.isInit, Bool.true_or, Bool.true_and, goto_init, waited_init]
        have : (drivePins s).init = s.init := rfl
        rw [this]
        cases s.init <;> rfl
      rw [this]; exact W.refl _
  obtain ⟨n, l, -, hw, -⟩ := waitTakes_exists s tInitMs hp
  cases hi : s.init with
  | true =>
    have hr2 : s.cfg.reinitRedrives = true := by
      by_contra h
      simp [initPositions, hi, h] at hq
    have hpos : initPositions s = [.init .writeCs 0] := by simp [initPositions, hi, hr2]
    have hin : initialise s = waitEnd tInitMs n l (drivePins s) := by
      simp only [initialise, hi, hr2, if_true, redrive]
      exact waitReady_eq hp (hw.congr rfl rfl rfl)
    rw [hpos, hin]
    have f := fin s n l hb hp hw
    cases l with
    | high =>
      refine ⟨fun t h => ?_, fun e t h => absurd h (by simp [waitEnd])⟩
      simp only [waitEnd, Flow.ok.injEq] at h
      subst h
      have e : setInit (waited n .high (drivePins s)) = waited n .high (drivePins s) := by
        simp only [setInit, waited, drivePins_eq, hi]
      simp only [e] at f
      exact f
    | low =>
      refine ⟨fun t h => absurd h (by simp [waitEnd]), fun e t h => ?_⟩
      simp only [waitEnd, Flow.raise.injEq] at h
      obtain ⟨rfl, rfl⟩ := h
      simpa [hi] using f
  | false =>
    have hpos : initPositions s = [.init .openCs 0] := by simp [initPositions, hi]
    have hop : R (goto (.init .openCs 0 :: rest) s) (goto (.init .writeCs 0 :: rest) (openPins s)) := by
      refine W.trans (t := goto (.init .openDc 0 :: rest) (pinOpen .cs .output s)) (way_tick W rfl rfl) ?_
      refine W.trans (t := goto (.init .openRst 0 :: rest) (pinOpen .dc .output (pinOpen .cs .output s)))
          (way_tick W rfl rfl) ?_
      refine W.trans (t := goto (.init .openBusy 0 :: rest) (pinOpen .rst .output (pinOpen .dc .output
          (pinOpen .cs .output s)))) (way_tick W rfl rfl) ?_
      exact way_tick W rfl rfl
    rw [hpos]
    have f := W.trans hop (fin (openPins s) n l hb hp (hw.congr rfl rfl rfl))
    have hwr : waitReady tInitMs (drivePins (openPins s)) = waitEnd tInitMs n l (drivePins (openPins s)) :=
        waitReady_eq hp (hw.congr rfl rfl rfl)
    have hin : initialise s = bringUp s := by simp [initialise, hi]
    rw [hin, bringUp, hwr]
    cases l with
    | high =>
      refine ⟨fun t h => ?_, fun e t h => absurd h (by simp [waitEnd])⟩
      simp only [waitEnd, Flow.ok.injEq] at h
      subst h
      exact f
    | low =>
      refine ⟨fun t h => absurd h (by simp [waitEnd]), fun e t h => ?_⟩
      simp only [waitEnd, Flow.raise.injEq] at h
      obtain ⟨rfl, rfl⟩ := h
      have : (openPins s).init = false := hi
      simpa [this] using f

/-- The register sequence of an initialized engine, from its first position on (R150). -/
theorem way_registers (W : Way R) (rest : List Pos) {s : State} (hi : s.init = true) :
    R (goto (.regSeq 0 0 :: rest) s) (leave .none rest (sent registerEvents .high s)) := by
  have stepk : ∀ (k : Fin 10) (h : k.val + 1 < 10) (s : State), s.init = true →
      R (goto (.regSeq k 0 :: rest) s) (goto (.regSeq ⟨k.val + 1, h⟩ 0 :: rest) (sent (regW (regSeqRow k).1
          (regSeqRow k).2) .high s)) := by
    intro k h s hi
    refine W.trans (W.reg k rest s hi) (way_tick W rfl ?_)
    simp only [tickAt, nextReg, h, dif_pos]; rfl
  have last : ∀ s : State, s.init = true → R (goto (.regSeq 9 0 :: rest) s) (leave .none rest (sent
      (regW 0x03 [0x00]) .high s)) := by
    intro s hi
    refine W.trans (W.reg 9 rest s hi) (way_tick W rfl ?_)
    cases rest <;> rfl
  have s0 : ∀ s : State, s.init = true → R (goto (.regSeq 0 0 :: rest) s) (goto (.regSeq 1 0 :: rest) (sent
      (regW 0x03 [0x00]) .high s)) := fun s hi => stepk 0 (by decide) s hi
  have s1 : ∀ s : State, s.init = true → R (goto (.regSeq 1 0 :: rest) s) (goto (.regSeq 2 0 :: rest) (sent
      (regW 0x00 [0xEF, 0x08]) .high s)) := fun s hi => stepk 1 (by decide) s hi
  have s2 : ∀ s : State, s.init = true → R (goto (.regSeq 2 0 :: rest) s) (goto (.regSeq 3 0 :: rest) (sent
      (regW 0x01 [0x37, 0x00, 0x23, 0x23]) .high s)) := fun s hi => stepk 2 (by decide) s hi
  have s3 : ∀ s : State, s.init = true → R (goto (.regSeq 3 0 :: rest) s) (goto (.regSeq 4 0 :: rest) (sent
      (regW 0x30 [0x1C]) .high s)) := fun s hi => stepk 3 (by decide) s hi
  have s4 : ∀ s : State, s.init = true → R (goto (.regSeq 4 0 :: rest) s) (goto (.regSeq 5 0 :: rest) (sent
      (regW 0x41 [0x00]) .high s)) := fun s hi => stepk 4 (by decide) s hi
  have s5 : ∀ s : State, s.init = true → R (goto (.regSeq 5 0 :: rest) s) (goto (.regSeq 6 0 :: rest) (sent
      (regW 0x50 [0x37]) .high s)) := fun s hi => stepk 5 (by decide) s hi
  have s6 : ∀ s : State, s.init = true → R (goto (.regSeq 6 0 :: rest) s) (goto (.regSeq 7 0 :: rest) (sent
      (regW 0x60 [0x22]) .high s)) := fun s hi => stepk 6 (by decide) s hi
  have s7 : ∀ s : State, s.init = true → R (goto (.regSeq 7 0 :: rest) s) (goto (.regSeq 8 0 :: rest) (sent
      (regW 0x65 [0x00]) .high s)) := fun s hi => stepk 7 (by decide) s hi
  have s8 : ∀ s : State, s.init = true → R (goto (.regSeq 8 0 :: rest) s) (goto (.regSeq 9 0 :: rest) (sent
      (regW 0xE3 [0xAA]) .high s)) := fun s hi => stepk 8 (by decide) s hi
  have h := s0 s hi
  have h := W.trans h (s1 _ (by exact hi))
  rw [sent_sent] at h
  have h := W.trans h (s2 _ (by exact hi))
  rw [sent_sent] at h
  have h := W.trans h (s3 _ (by exact hi))
  rw [sent_sent] at h
  have h := W.trans h (s4 _ (by exact hi))
  rw [sent_sent] at h
  have h := W.trans h (s5 _ (by exact hi))
  rw [sent_sent] at h
  have h := W.trans h (s6 _ (by exact hi))
  rw [sent_sent] at h
  have h := W.trans h (s7 _ (by exact hi))
  rw [sent_sent] at h
  have h := W.trans h (s8 _ (by exact hi))
  rw [sent_sent] at h
  have h := W.trans h (last _ (by exact hi))
  rw [sent_sent] at h
  exact h

/-- A power step of the paint cycle of an initialized engine, from its first position on (R155, R163). -/
theorem way_power (W : Way R) (p : PaintStep) (hp1 : p ≠ .registers) (hp2 : p ≠ .image) (rest : List Pos)
    (hr : rest.any Pos.isInit = false)
    (pk : List Byte) {s : State} (hi : s.init = true) (hb : s.bw = none) (hp : 0 < s.cfg.pollIntervalMs) :
    (∀ t, powerStep (paintTimeout p) s = .ok t → R (goto (.paint p 0 pk :: rest) s) (goto
        (.paint p 2 pk :: rest) t)) ∧
    (∀ e t, powerStep (paintTimeout p) s = .raise e t → R (goto (.paint p 0 pk :: rest) s) (takeError e t)) := by
  obtain ⟨n, l, -, hw, -⟩ := waitTakes_exists s (paintTimeout p) hp
  rw [powerStep_eq hp hi hw]
  have h1 := W.power p rest s pk hi hp1 hp2
  have h2 : R (goto (.paint p 1 pk :: rest) (sent (cmdF [0x04]) .low s)) (goto (.wait
      (paintTimeout p) :: .paint p 2 pk :: rest) (sent (cmdF [0x04]) .low s)) := by
    refine way_tick W (by cases p <;> rfl) ?_
    cases p <;> first | rfl | exact absurd rfl hp1 | exact absurd rfl hp2
  have h3 := way_wait W (T := paintTimeout p) (n := n) (l := l) (.paint p 2 pk :: rest) (s := sent
      (cmdF [0x04]) .low s) hb hp (hw.congr rfl rfl rfl)
  have h := W.trans h1 (W.trans h2 h3)
  cases l with
  | high =>
    refine ⟨fun t ht => ?_, fun e t ht => absurd ht (by simp [waitEnd])⟩
    simp only [waitEnd, Flow.ok.injEq] at ht; subst ht; exact h
  | low =>
    refine ⟨fun t ht => absurd ht (by simp [waitEnd]), fun e t ht => ?_⟩
    simp only [waitEnd, Flow.raise.injEq] at ht
    obtain ⟨rfl, rfl⟩ := ht
    simp only at h
    rwa [raise_noInit (by simpa [Pos.isInit] using hr)] at h

end Sys2Proof.Machine
end

