-- ==== Sys2Proof/Tests/Slice0.lean ====
section
/-! SUPPORT. The model's own tests: ill-formed terms refused, words written out from the spec's encodings, the vectors of
spec/95_test_vectors.md, and for every statement a concrete case that meets its hypotheses. -/

namespace Sys2Proof.Machine.Tests

/-! ### Small states -/

/-- An arbitrary legal configuration with polling interval `P` and the two flags. -/
def testCfg (P : Nat) (h v : Bool) : Cfg where
  hflip := h
  vflip := v
  pinCs := 8
  pinDc := 22
  pinRst := 27
  pinBusy := 17
  pollIntervalMs := P
  reinitRedrives := false

/-- The engine right after reset, with these samples of BUSY to come. -/
def fresh (P : Nat) (samples : List Sample) : State :=
  { State.construct (testCfg P false false) with busy := samples }

/-- The same engine after a successful INITIALIZE, its trace cleared. -/
def live (P : Nat) (samples : List Sample) : State :=
  { fresh P samples with
    init := true
    pinState := openModes
    pinLevel := { cs := .driven .high, dc := .driven .low, rst := .driven .high } }

/-- A sample that reads 1, or 0, the next one on time. -/
def one : Sample := { level := .high, lateMs := 0 }
/-- See `one`. -/
def zero : Sample := { level := .low, lateMs := 0 }

/-- The result of an outcome. -/
def resultOf : Host.Outcome State Fault Refusal → Option Result
  | .next t => t.result
  | .fault _ => none
  | .refused _ => none

/-- The trace after an outcome. -/
def traceOf : Host.Outcome State Fault Refusal → List Event
  | .next t => t.trace
  | .fault _ => []
  | .refused _ => []

/-- The refusal of an outcome. -/
def refusalOf : Host.Outcome State Fault Refusal → Option Refusal
  | .next _ => none
  | .fault _ => none
  | .refused r => some r

/-- A property of the next state. -/
def nextHas (p : State → Bool) : Host.Outcome State Fault Refusal → Bool
  | .next t => p t
  | .fault _ => false
  | .refused _ => false

/-- A packed image of zero bytes. -/
def blank : List Byte := List.replicate 134400 0

theorem blank_length : blank.length = 134400 := List.length_replicate

/-- The arrays G and K of the vectors. -/
def gridG : Grid Nat := { cols := 2, rows := [[1, 2], [3, 4], [5, 6]] }
/-- See `gridG`. -/
def gridK : Grid Nat := { cols := 3, rows := [[10, 11, 12], [13, 14, 15]] }

/-- Eight handlers with eight results. -/
def handlers : Handlers := { h0 := 100, h1 := 101, h2 := 102, h3 := 103, h4 := 104, h5 := 105, h6 := 106, h7 := 107 }

/-! ### WellFormed: each check refuses an ill-formed term -/

/-- FLUSH of 2 bytes. -/
theorem test_wf_flush : (Instr.flush [0x00, 0x00]).wf = false := by decide
/-- CMD_IMAGE_TRANSFER of no byte. -/
theorem test_wf_image : (Instr.cmdImageTransfer []).wf = false := by decide
/-- Arrays whose rows differ in length, or whose rows are not as long as the second dimension. -/
theorem test_wf_flatten : (Instr.flatten { cols := 2, rows := [[1, 2], [3]] }).wf = false := by decide
theorem test_wf_mirrorColumns : (Instr.mirrorColumns { cols := 2, rows := [[1, 2, 3]] }).wf = false := by decide
theorem test_wf_mirrorRows : (Instr.mirrorRows { cols := 1, rows := [[]] }).wf = false := by decide
theorem test_wf_rotate : (Instr.rotate 90 { cols := 0, rows := [[7]] }).wf = false := by decide
/-- A well-formed image. -/
theorem test_wf_blank : (Instr.flush blank).wf = true := (isImage_iff blank).2 blank_length

/-! ### Decoding: a word for every constructor, written out from the opcode table (R76, R77, R80) -/

theorem test_decode_initialize : decode .hop [0x00] = .ok .initializeDriver := rfl
theorem test_decode_writeCommand : decode .hop [0x01, 0x01, 0x04] = .ok (.writeCommand [0x04]) := rfl
theorem test_decode_writeData : decode .hop [0x02, 0x02, 0xEF, 0x08] = .ok (.writeData [0xEF, 0x08]) := rfl
theorem test_decode_resetDisplay : decode .hop [0x03] = .ok .resetDisplay := rfl
theorem test_decode_setResolution : decode .hop [0x04] = .ok .setResolution := rfl
theorem test_decode_flush : decode .hop [0x05, 0x02, 0x40, 0x07] = .ok (.flush [0x40, 0x07]) := rfl
/-- T = 200 is 72 + 128. -/
theorem test_decode_wait : decode .hop [0x06, 0x03, 0xC8, 0x01] = .ok (.waitForReady .busy 200) := rfl
/-- x = -1, y = 258, Clean. -/
theorem test_decode_setPixel :
    decode .hop [0x07, 0xFF, 0xFF, 0xFF, 0xFF, 0x02, 0x01, 0x00, 0x00, 0x07] = .ok (.setPixel (-1) 258 .clean) := rfl
theorem test_decode_getPixels : decode .hop [0x08] = .ok .getPixels := rfl
theorem test_decode_render : decode .hop [0x09] = .ok .render := rfl
theorem test_decode_fromByte : decode .hop [0x0A, 0x80] = .ok (.fromByte 0x80) := rfl
theorem test_decode_toByte : decode .hop [0x0B, 0x06] = .ok (.toByte .orange) := rfl
theorem test_decode_dispatch :
    decode .hop [0x0C, 0x02, 100, 101, 102, 103, 104, 105, 106, 107] = .ok (.dispatch .green handlers) := rfl
theorem test_decode_flatten : decode .hop [0x0D, 3, 2, 1, 2, 3, 4, 5, 6] = .ok (.flatten gridG) := rfl
theorem test_decode_mirrorColumns :
    decode .hop [0x0E, 2, 3, 10, 11, 12, 13, 14, 15] = .ok (.mirrorColumns gridK) := rfl
theorem test_decode_mirrorRows : decode .hop [0x0F, 3, 2, 1, 2, 3, 4, 5, 6] = .ok (.mirrorRows gridG) := rfl
theorem test_decode_rotate : decode .hop [0x10, 90, 3, 2, 1, 2, 3, 4, 5, 6] = .ok (.rotate 90 gridG) := rfl
theorem test_decode_cmdPanelSetting : decode .cmdf [0b00000000] = .ok .cmdPanelSetting := rfl
theorem test_decode_cmdPowerSetting : decode .cmdf [0b00000001] = .ok .cmdPowerSetting := rfl
theorem test_decode_cmdPowerOffSeq : decode .cmdf [0b00000011] = .ok .cmdPowerOffSeq := rfl
theorem test_decode_cmdPowerOn : decode .cmdf [0b00000100] = .ok .cmdPowerOn := rfl
theorem test_decode_cmdImageTransfer : decode .cmdf [0b00010000, 0x40] = .ok (.cmdImageTransfer [0x40]) := rfl
theorem test_decode_cmdPll : decode .cmdf [0b00110000] = .ok .cmdPll := rfl
theorem test_decode_cmdTse : decode .cmdf [0b01000001] = .ok .cmdTse := rfl
theorem test_decode_cmdVcomDataInterval : decode .cmdf [0b01010000] = .ok .cmdVcomDataInterval := rfl
theorem test_decode_cmdNonOverlap : decode .cmdf [0b01100000] = .ok .cmdNonOverlap := rfl
theorem test_decode_cmdResolution : decode .cmdf [0b01100001] = .ok .cmdResolution := rfl
theorem test_decode_cmdFlashDisable : decode .cmdf [0b01100101] = .ok .cmdFlashDisable := rfl
theorem test_decode_cmdSevenColour : decode .cmdf [0b11100011] = .ok .cmdSevenColour := rfl

/-- Bytes that are no instruction, and why. -/
theorem test_reject_selector : decode .hop [0x11] = .error (.noSuchSelector 0x11) := rfl
theorem test_reject_opcode : decode .cmdf [0x02] = .error (.noSuchOpcode 0x02) := rfl
theorem test_reject_colour : decode .hop [0x0B, 0x08] = .error (.notAColour 0x08) := rfl
theorem test_reject_trailing : decode .hop [0x00, 0x00] = .error .trailing := rfl
theorem test_reject_truncated : decode .hop [0x0A] = .error .truncated := rfl

/-! ### DisplayColor (V1 to V7) -/

/-- V1. -/
theorem test_fromByte_7 : resultOf (exec (.fromByte 7) (fresh 10 [])) = some (.ok (.color .clean)) := by decide
/-- V3: no masking to three bits. -/
theorem test_fromByte_12 : resultOf (exec (.fromByte 0x0C) (fresh 10 [])) = some (.err (.encoding 12)) := by decide
/-- V5, and the example of R102. -/
theorem test_toByte :
    [Color.black, .clean, .orange].map (fun c => resultOf (exec (.toByte c) (fresh 10 []))) =
      [some (.ok (.byte 0)), some (.ok (.byte 7)), some (.ok (.byte 6))] := by decide
/-- V6 and V7: the index of the handler that ran and its result. -/
theorem test_dispatch :
    [Color.clean, .black, .green].map (fun c => resultOf (exec (.dispatch c handlers) (fresh 10 []))) =
      [some (.ok (.handled 7 107)), some (.ok (.handled 0 100)), some (.ok (.handled 2 102))] := by decide

/-! ### BusyWaiter (V11 to V22) -/

/-- V14: the third sample is at elapsed 200 = T and reads 1. -/
theorem test_wait_at_deadline :
    traceOf (exec (.waitForReady .busy 200) (live 100 [zero, zero, one])) =
      [.pinRead .busy .low, .sleep 100, .pinRead .busy .low, .sleep 100, .pinRead .busy .high] := by decide
/-- V21: the first gap is 500 ms, so that the second sample is past the deadline. -/
theorem test_wait_late :
    exec (.waitForReady .busy 200) (live 10 [{ level := .low, lateMs := 490 }, zero, one]) =
      .next { live 10 [one] with
        trace := [.pinRead .busy .low, .sleep 10, .pinRead .busy .low]
        samples := 2
        result := some (.err (.timeout 200)) } := by rfl

/-! ### Frames (V30 to V43) -/

/-- V30. -/
theorem test_initialize :
    traceOf (exec .initializeDriver (fresh 10 [one])) =
      [.pinOpen .cs .output, .pinOpen .dc .output, .pinOpen .rst .output, .pinOpen .busy .input, .pinWrite .cs .high,
       .pinWrite .dc .low, .pinWrite .rst .high, .pinRead .busy .high] := by decide
/-- V32, with one late gap in place of the many samples: the pins are closed in the order they were opened. -/
theorem test_initialize_timeout :
    nextHas (fun t => decide (t.trace.drop 7 = [.pinRead .busy .low, .sleep 10, .pinRead .busy .low, .pinClose .cs,
        .pinClose .dc, .pinClose .rst, .pinClose .busy] ∧ t.init = false ∧ t.pinState = closedModes ∧
        t.result = some (.err (.timeout 40000))))
      (exec .initializeDriver (fresh 10 [{ level := .low, lateMs := 39990 }, zero])) = true := by decide
/-- V37. -/
theorem test_writeCommand :
    traceOf (exec (.writeCommand [0x12, 0x34]) (live 10 [])) =
      [.pinWrite .cs .low, .pinWrite .dc .low, .spiWrite [0x12, 0x34], .pinWrite .cs .high] := by decide
/-- V40: the empty test comes before the state test. -/
theorem test_writeCommand_empty :
    resultOf (exec (.writeCommand []) (fresh 10 [])) = some (.err .protocolArgument) := by decide
/-- V36. -/
theorem test_writeData :
    traceOf (exec (.writeData [0xEF, 0x08]) (live 10 [])) =
      [.pinWrite .cs .low, .pinWrite .dc .high, .spiWrite [0xEF, 0x08], .pinWrite .cs .high] := by decide
/-- V42. -/
theorem test_writeData_state :
    resultOf (exec (.writeData [0x00]) (fresh 10 [])) = some (.err .protocolState) := by decide

/-! ### Sequences (V50 to V63) -/

/-- V50: 80 events, 20 of them SPI writes, and the stream of S13. -/
theorem test_resetDisplay :
    (traceOf (exec .resetDisplay (live 10 []))).length = 80 ∧
      (traceOf (exec .resetDisplay (live 10 []))).filterMap
          (fun e => match e with | .spiWrite b => some b | _ => none) =
        [[0x03], [0x00], [0x00], [0xEF, 0x08], [0x01], [0x37, 0x00, 0x23, 0x23], [0x30], [0x1C], [0x41], [0x00],
         [0x50], [0x37], [0x60], [0x22], [0x65], [0x00], [0xE3], [0xAA], [0x03], [0x00]] := by decide
/-- V51, with the message of S8. -/
theorem test_resetDisplay_state :
    resultOf (exec .resetDisplay (fresh 10 [])) = some (.err .protocolState) ∧
      errorMessage true .protocolState =
        some "You must initialize the driver before resetting the display".toList := by decide
/-- V53. -/
theorem test_setResolution :
    (traceOf (exec .setResolution (live 10 []))) =
      cmdF [0x61] ++ datF [0x01, 0xF4, 0x01, 0xC0] := by decide
/-- An image of another length (D11). -/
theorem test_flush_length : refusalOf (exec (.flush [0x00]) (live 10 [])) = some (.imageLength 1) := by decide

/-! ### FrameBuffer (V70 to V80, V90 to V95, V130 to V133) -/

/-- V80: the later write wins; V71. -/
theorem test_setPixel :
    nextHas (fun t => decide (cell t.fb 599 447 = .white ∧ cell t.fb 0 0 = .black ∧ t.fb = [(268799, .white)]))
      (exec (.setPixel 599 447 .white) (fresh 10 [])) = true := by decide
/-- V74 to V77. -/
theorem test_setPixel_bounds :
    [((0 : Coord), (599 : Coord)), (-1, -1), (928, 928), (-2147483648, 0), (600, 0), (0, 448)].map
        (fun p => resultOf (exec (.setPixel p.1 p.2 .white) (fresh 10 []))) =
      [some (.err (.bounds .y 599)), some (.err (.bounds .x (-1))), some (.err (.bounds .x 928)),
       some (.err (.bounds .x (-2147483648))), some (.err (.bounds .x 600)), some (.err (.bounds .y 448))] := by decide
/-- V81: the grid that is returned. -/
theorem test_getPixels :
    resultOf (exec .getPixels { fresh 10 [] with fb := [(2245, .clean)] }) =
      some (.ok (.pixels [(2245, .clean)])) := by decide
/-- V91 to V95. -/
theorem test_pixByte :
    [(Color.red, Color.black), (.black, .red), (.clean, .clean), (.white, .orange), (.yellow, .green)].map
        (fun p => pixByte p.1 p.2) = [0x40, 0x04, 0x77, 0x16, 0x52] := by decide

/-- The toy grid of V130 to V133 with a = Red, b = White, c = Green, d = Blue, e = Yellow, f = Orange. -/
def toy (x y : Nat) : Color :=
  (([[.red, .white], [.green, .blue], [.yellow, .orange]] : List (List Color)).getD x []).getD y .black

/-- V130 to V133. -/
theorem test_orient :
    (orient 3 2 false false toy).flat = [.red, .white, .green, .blue, .yellow, .orange] ∧
    (orient 3 2 true false toy).rows = [[.white, .blue, .orange], [.red, .green, .yellow]] ∧
    (orient 3 2 false true toy).rows = [[.yellow, .green, .red], [.orange, .blue, .white]] ∧
    (orient 3 2 true true toy).rows = [[.orange, .yellow], [.blue, .green], [.white, .red]] := by decide
/-- V130 and V131, packed, with a = Red and the rest Black. -/
theorem test_pack :
    pack (orient 3 2 false false (fun x y => if x = 0 ∧ y = 0 then .red else .black)).flat = [0x40, 0x00, 0x00] ∧
    pack (orient 3 2 true false (fun x y => if x = 0 ∧ y = 0 then .red else .black)).flat = [0x00, 0x04, 0x00] := by decide

/-! ### Array2DOps (V110 to V119) -/

/-- V110 and V116. -/
theorem test_flatten :
    resultOf (exec (.flatten gridG) (fresh 10 [])) = some (.ok (.elements [1, 2, 3, 4, 5, 6])) ∧
    resultOf (exec (.flatten { cols := 5, rows := [] }) (fresh 10 [])) = some (.ok (.elements [])) := by decide
/-- V112. -/
theorem test_mirrorColumns :
    resultOf (exec (.mirrorColumns gridG) (fresh 10 [])) =
      some (.ok (.array { cols := 2, rows := [[2, 1], [4, 3], [6, 5]] })) := by decide
/-- V113. -/
theorem test_mirrorRows :
    resultOf (exec (.mirrorRows gridG) (fresh 10 [])) =
      some (.ok (.array { cols := 2, rows := [[5, 6], [3, 4], [1, 2]] })) := by decide
/-- V118 and V119. -/
theorem test_rotate :
    [180, 0, 90].map (fun a => resultOf (exec (.rotate a gridG) (fresh 10 []))) =
      [some (.err .notSupported), some (.err .notSupported), some (.err .notSupported)] := by decide

/-! ### Wire commands: SPI bytes and DC, the examples of R160 to R171 -/

/-- R160, R161, R162, R165 and R166. -/
theorem test_commands_1 :
    traceOf (exec .cmdPanelSetting (live 10 [])) = cmdF [0x00] ++ datF [0xEF, 0x08] ∧
    traceOf (exec .cmdPowerSetting (live 10 [])) = cmdF [0x01] ++ datF [0x37, 0x00, 0x23, 0x23] ∧
    traceOf (exec .cmdPowerOffSeq (live 10 [])) = cmdF [0x03] ++ datF [0x00] ∧
    traceOf (exec .cmdPll (live 10 [])) = cmdF [0x30] ++ datF [0x1C] ∧
    traceOf (exec .cmdTse (live 10 [])) = cmdF [0x41] ++ datF [0x00] := by decide
/-- R163, R167 to R171. -/
theorem test_commands_2 :
    traceOf (exec .cmdPowerOn (live 10 [])) = cmdF [0x04] ∧
    traceOf (exec .cmdVcomDataInterval (live 10 [])) = cmdF [0x50] ++ datF [0x37] ∧
    traceOf (exec .cmdNonOverlap (live 10 [])) = cmdF [0x60] ++ datF [0x22] ∧
    traceOf (exec .cmdResolution (live 10 [])) = cmdF [0x61] ++ datF [0x01, 0xF4, 0x01, 0xC0] ∧
    traceOf (exec .cmdFlashDisable (live 10 [])) = cmdF [0x65] ++ datF [0x00] ∧
    traceOf (exec .cmdSevenColour (live 10 [])) = cmdF [0xE3] ++ datF [0xAA] := by decide

/-! ### Steps, and the words of the opcode table right after reset -/

/-- The first step after reset runs the word that is placed: FROM_BYTE 0, and the wire command 0x61, which an uninitialized
engine answers with ProtocolStateError. -/
theorem test_first_step :
    resultOf (step (State.reset.withFetchWord 8 0x0A)) = some (.ok (.color .black)) ∧
    resultOf (step (State.reset.withFetchWord 8 0x61)) = some (.err .protocolState) ∧
    refusalOf (step (State.reset.withFetchWord 8 0x11)) = some (.undecodable (.noSuchSelector 0x11)) := by decide
/-- A step at a position of the register sequence, and the move after it. -/
theorem test_position_step :
    nextHas (fun t => decide (t.trace = cmdF [0x00] ++ datF [0xEF, 0x08] ∧ t.seq = [.regSeq 1 2]) &&
        nextHas (fun u => decide (u.seq = [.regSeq 2 0])) (step t))
      (step { live 10 [] with seq := [.regSeq 1 0] }) = true := by decide
/-- SEQ of a frame, move by move (R24, R130). -/
theorem test_ticks_frame :
    (ticks 2 (start [.frame .assertCs .high [0xAA]] (live 10 []))).trace = [.pinWrite .cs .low, .pinWrite .dc .high] ∧
    ticks 4 (start [.frame .assertCs .high [0xAA]] (live 10 [])) =
      ended .none (frame .high [0xAA] (live 10 [])) := by decide

/-! ### Messages -/

/-- V16. -/
theorem test_message :
    errorMessage false (.timeout 210) =
      some "Timeout waiting for busy signal to clear after 0.21 seconds".toList := by decide

/-! ### Witnesses: for each statement with hypotheses, a case that meets them all -/

theorem fresh_idle (P : Nat) (b : List Sample) : Idle (fresh P b) := ⟨rfl, rfl⟩
theorem live_idle (P : Nat) (b : List Sample) : Idle (live P b) := ⟨rfl, rfl⟩

theorem fresh_boundary (P : Nat) (b : List Sample) : Boundary (fresh P b) :=
  ⟨fresh_idle P b, rfl, fun h => absurd h (by decide : ¬false = true), fun _ => rfl,
    fun h => absurd h (by decide : ¬false = true), fun h => absurd h (by decide : ¬false = true), fun _ => rfl⟩

theorem live_boundary (P : Nat) (b : List Sample) : Boundary (live P b) :=
  ⟨live_idle P b, rfl, fun _ => rfl, fun h => absurd h (by decide : ¬true = false), fun _ => rfl, fun _ => rfl,
    fun h => absurd h (by decide : ¬true = false)⟩

theorem witness_StepRunsThePresentedOperation :
    ∃ (s : State) (bs : List Byte) (rest : List (List Byte)) (i : Instr),
      s.cfg.legal = true ∧ s.seq = [] ∧ s.port = bs :: rest ∧ decode .hop bs = .ok i ∧ i.wf = true :=
  ⟨{ fresh 1 [] with port := [[0x0A, 0x07], [0x09]] }, [0x0A, 0x07], [[0x09]], .fromByte 7,
    by decide, rfl, rfl, rfl, rfl⟩

/-- The first and the last register write. -/
theorem witness_StepAtARegisterPositionSendsThatWrite (k : Fin 10) :
    ∃ (s : State) (c : Byte) (p : List Byte) (rest : List Pos),
      s.cfg.legal = true ∧ s.init = true ∧ s.seq = .regSeq k 0 :: rest ∧
      [((0x03 : Byte), [(0x00 : Byte)]), (0x00, [0xEF, 0x08]), (0x01, [0x37, 0x00, 0x23, 0x23]), (0x30, [0x1C]),
        (0x41, [0x00]), (0x50, [0x37]), (0x60, [0x22]), (0x65, [0x00]), (0xE3, [0xAA]), (0x03, [0x00])][k.val]? =
        some (c, p) :=
  ⟨{ live 1 [] with seq := [.regSeq k 0] }, (regSeqRow k).1, (regSeqRow k).2, [], by decide +revert, rfl, rfl,
    by decide +revert⟩

/-- Each of the five positions. -/
theorem witness_StepAtACommandPositionSendsThatCommand :
    ∀ p ∈ [Pos.res 0, .paint .image 0 blank, .paint .power1 0 blank, .paint .power2 0 blank, .paint .power3 0 blank],
      ∃ (s : State) (rest : List Pos),
        s.cfg.legal = true ∧ s.init = true ∧ blank.length = 134400 ∧ s.seq = p :: rest :=
  fun p _ => ⟨{ live 1 [] with seq := [p] }, [], by decide +revert, rfl, blank_length, rfl⟩

/-- The smallest and the largest such selector. -/
theorem witness_UnknownSelectorsAreRefused :
    ∀ sel ∈ [(0x11 : Byte), 0xFF],
      ∃ (s : State) (ops : List Byte) (rest : List (List Byte)),
        s.cfg.legal = true ∧ s.seq = [] ∧ s.port = (sel :: ops) :: rest ∧ 0x10 < sel.toNat := by
  intro sel h
  have hc : (fresh 1 []).cfg.legal = true := by decide
  refine ⟨{ fresh 1 [] with port := [[sel]] }, [], [], hc, rfl, rfl, ?_⟩
  revert sel
  decide

/-- Each way a configuration is illegal, and one that is legal. -/
theorem witness_IllegalConfigurationsTakeNoStep :
    refusalOf (step (fresh 0 [])) = some .badConfiguration ∧
    (∀ c ∈ [{ testCfg 1 false false with pinDc := 8 }, { testCfg 1 false false with pinRst := 8 },
        { testCfg 1 false false with pinBusy := 8 }, { testCfg 1 false false with pinRst := 22 },
        { testCfg 1 false false with pinBusy := 22 }, { testCfg 1 false false with pinBusy := 27 }],
      refusalOf (step (State.construct c)) = some .badConfiguration) ∧
    refusalOf (step (fresh 1 [])) = none := by decide

theorem witness_ThePortIsClosedWhileAnOperationRuns :
    ∃ (i : Instr) (s : State), isHostOp i = true ∧ s.seq ≠ [] :=
  ⟨.getPixels, { live 1 [] with seq := [.res 0] }, rfl, List.cons_ne_nil _ _⟩

theorem witness_StepsInsideAnOperationLeaveThePort :
    ∃ s t : State, s.seq ≠ [] ∧ s.port ≠ [] ∧ step s = .next t :=
  ⟨{ live 1 [one] with seq := [.wait 5], port := [[0x09]] }, _, List.cons_ne_nil _ _, List.cons_ne_nil _ _, rfl⟩

theorem witness_DecodeInvertsEncode :
    (Instr.cmdImageTransfer blank).wf = true ∧ (Instr.flush blank).wf = true ∧ (Instr.rotate 300 gridK).wf = true ∧
      (Instr.waitForReady .cs 40000).wf = true :=
  ⟨test_wf_blank, test_wf_blank, rfl, rfl⟩

theorem witness_ToByteReturnsTheListedByte : (fresh 1 []).seq = [] := rfl

/-- Both clauses at their ends: 0 and 7, 8 and 255. -/
theorem witness_FromByteReturnsTheVariantOrReportsTheByte :
    Idle (fresh 1 []) ∧ (0 : Byte).toNat ≤ 7 ∧ (7 : Byte).toNat ≤ 7 ∧ 7 < (8 : Byte).toNat ∧ 7 < (255 : Byte).toNat :=
  ⟨fresh_idle 1 [], by decide, by decide, by decide, by decide⟩

theorem witness_DispatchRunsTheMatchingHandler :
    (live 1 []).seq = [] ∧ (Color.clean, 7, handlers.h7) ∈ [(Color.black, 0, handlers.h0), (.clean, 7, handlers.h7)] :=
  ⟨rfl, by decide⟩

theorem witness_WaitReturnsOnAReadyFirstSample :
    Idle (live 1 [one]) ∧ (live 1 [one]).pinState.busy = .openIn ∧
      (live 1 [one]).busy = { level := .high, lateMs := 0 } :: [] :=
  ⟨live_idle _ _, rfl, rfl⟩

/-- The first clause with no low sample and with the last one 1 ms before the deadline, the second with T = 0 and with a
timeout that the interval divides. -/
theorem witness_WaitTakesTheSamplesOfTheReferenceTiming :
    (Idle (live 100 [one]) ∧ (live 100 [one]).pinState.busy = .openIn ∧ 0 < (live 100 [one]).cfg.pollIntervalMs) ∧
    (live 100 [one]).busy = List.replicate 0 { level := .low, lateMs := 0 } ++ { level := .high, lateMs := 0 } :: [] ∧
    (live 100 [zero, zero, one]).busy =
      List.replicate 2 { level := .low, lateMs := 0 } ++ { level := .high, lateMs := 0 } :: [] ∧ (2 - 1) * 100 < 101 ∧
    0 = (0 + 100 - 1) / 100 ∧ (live 100 [zero]).busy = List.replicate (0 + 1) { level := .low, lateMs := 0 } ++ [] ∧
    2 = (200 + 100 - 1) / 100 ∧
    (live 100 [zero, zero, zero]).busy = List.replicate (2 + 1) { level := .low, lateMs := 0 } ++ [] :=
  ⟨⟨live_idle _ _, rfl, by decide⟩, rfl, rfl, by decide, by decide, rfl, by decide, rfl⟩

theorem witness_EveryWaitIsBoundedAndAlternating :
    Idle (live 1 []) ∧ (live 1 []).pinState.busy = .openIn ∧ 0 < (live 1 []).cfg.pollIntervalMs :=
  ⟨live_idle _ _, rfl, by decide⟩

/-- Another role, and BUSY before it is opened. -/
theorem witness_WaitOnAnotherPinIsRefused :
    (live 1 []).seq = [] ∧ Role.cs ≠ .busy ∧ (fresh 1 []).seq = [] ∧ (fresh 1 []).pinState.busy ≠ .openIn :=
  ⟨rfl, by decide, rfl, by decide⟩

/-- A wait ready at its first sample. -/
theorem waitTakes_ready (s : State) (T late : Nat) (rest : List Sample)
    (hb : s.busy = { level := .high, lateMs := late } :: rest) : WaitTakes s T 0 .high :=
  waitTakes_first T (by simp [sampleAt, hb])

/-- A wait ready at its second sample. -/
theorem waitTakes_second (s : State) (T : Nat) (hT : 0 < T) (rest : List Sample)
    (hb : s.busy = zero :: one :: rest) : WaitTakes s T 1 .high where
  lowBefore k hk := by
    obtain rfl : k = 0 := by omega
    simp [sampleAt, hb, zero]
  beforeDeadline k hk := by
    obtain rfl : k = 0 := by omega
    simpa [elapsedAt] using hT
  last := by simp [sampleAt, hb, one]
  atDeadline h := absurd h (by decide)

/-- A wait that fails at its second sample, `T` ms after the first. -/
theorem waitTakes_late (s : State) (T : Nat) (hT : 0 < T) (rest : List Sample)
    (hb : s.busy = { level := .low, lateMs := T } :: { level := .low, lateMs := 0 } :: rest) : WaitTakes s T 1 .low where
  lowBefore k hk := by
    obtain rfl : k = 0 := by omega
    simp [sampleAt, hb]
  beforeDeadline k hk := by
    obtain rfl : k = 0 := by omega
    simpa [elapsedAt] using hT
  last := by simp [sampleAt, hb]
  atDeadline _ := by
    simp only [elapsedAt, sampleAt, hb, List.getElem?_cons_zero]
    omega

/-- A FLUSH gives a next state, whatever BUSY does. -/
theorem flush_next (s : State) (hs : s.seq = []) :
    exec (.flush blank) s = .next (ended .none (paintCycle blank s)) :=
  exec_opFlow hs (by simp only [opFlow, (isImage_iff blank).2 blank_length, if_true])

/-- Ready at the second sample, and at the first with no positive interval. -/
theorem witness_InitializeBringsThePinsUp :
    (∃ s : State, Idle s ∧ s.init = false ∧ 0 < s.cfg.pollIntervalMs ∧ WaitTakes s 40000 1 .high) ∧
    ∃ s : State, Idle s ∧ s.init = false ∧ s.cfg.pollIntervalMs = 0 ∧ WaitTakes s 40000 0 .high :=
  ⟨⟨fresh 10 [zero, one], fresh_idle _ _, rfl, by decide, waitTakes_second _ _ (by decide) [] rfl⟩,
    fresh 0 [one], fresh_idle _ _, rfl, rfl, waitTakes_ready _ _ 0 [] rfl⟩

/-- Both values of REINIT_REDRIVES. -/
theorem witness_InitializeAgainIsANoOperation :
    (Idle (live 1 []) ∧ (live 1 []).init = true ∧ 0 < (live 1 []).cfg.pollIntervalMs ∧
      (live 1 []).cfg.reinitRedrives = false) ∧
    ∃ s : State, Idle s ∧ s.init = true ∧ 0 < s.cfg.pollIntervalMs ∧ s.cfg.reinitRedrives = true :=
  ⟨⟨live_idle _ _, rfl, by decide, rfl⟩,
    { live 1 [] with cfg := { testCfg 1 false false with reinitRedrives := true } }, ⟨rfl, rfl⟩, rfl, by decide, rfl⟩

theorem witness_AFailedInitializeClosesThePins :
    ∃ s : State, Boundary s ∧ s.init = false ∧ 0 < s.cfg.pollIntervalMs ∧ WaitTakes s 40000 1 .low :=
  ⟨fresh 1 [{ level := .low, lateMs := 40000 }, zero], fresh_boundary _ _, rfl, by decide,
    waitTakes_late _ _ (by decide) [] rfl⟩

/-- The three clauses: empty in either mode, non-empty in each mode. -/
theorem witness_WriteCommandAndDataSendOneFrame :
    Idle (fresh 1 []) ∧ Idle (live 1 []) ∧ (fresh 1 []).init = false ∧ (live 1 []).init = true ∧ [(0x04 : Byte)] ≠ [] :=
  ⟨fresh_idle _ _, live_idle _ _, rfl, rfl, by decide⟩

/-- Also for SET_RESOLUTION, the wire commands and GET_PIXELS: an engine of either mode. -/
theorem witness_ResetDisplaySendsTheRegisterSequence :
    (Idle (live 1 []) ∧ (live 1 []).init = true) ∧ (Idle (fresh 1 []) ∧ (fresh 1 []).init = false) :=
  ⟨⟨live_idle _ _, rfl⟩, fresh_idle _ _, rfl⟩

theorem witness_SetResolutionSendsTheResolutionWrite :
    (Idle (live 1 []) ∧ (live 1 []).init = true) ∧ (Idle (fresh 1 []) ∧ (fresh 1 []).init = false) :=
  witness_ResetDisplaySendsTheRegisterSequence

/-- In the middle of an operation, as a fixed sequence sends them. -/
theorem witness_RegisterCommandsAreTwoFrames :
    ∃ s : State, s.init = true ∧ s.seq = [.regSeq 1 0] := ⟨{ live 1 [] with seq := [.regSeq 1 0] }, rfl, rfl⟩

theorem witness_PowerOnIsOneCommandFrame :
    ∃ s : State, s.init = true ∧ s.seq = [.paint .power3 0 blank] :=
  ⟨{ live 1 [] with seq := [.paint .power3 0 blank] }, rfl, rfl⟩

/-- The length, one byte less and one byte more. -/
theorem witness_ImageTransferSendsTheWholeImage :
    (live 1 []).init = true ∧ blank.length = 134400 ∧ (blank.drop 1).length ≠ 134400 ∧ (0 :: blank).length ≠ 134400 := by
  refine ⟨rfl, blank_length, ?_, ?_⟩
  · rw [List.length_drop, blank_length]; omega
  · rw [List.length_cons, blank_length]; omega

theorem witness_WireCommandsNeedAnInitializedEngine :
    (fresh 1 []).init = false ∧ (Instr.cmdImageTransfer blank).wf = true ∧
      isHostOp (.cmdImageTransfer blank) = false ∧ isHostOp .cmdPll = false :=
  ⟨rfl, test_wf_blank, rfl, rfl⟩

/-- The engine after a successful INITIALIZE, with the recorded alternative for a second one. -/
def liveAgain (P : Nat) (samples : List Sample) : State :=
  { live P samples with cfg := { testCfg P false false with reinitRedrives := true } }

/-- Waits of one, two and one samples, and with the alternative of two, one, two and one samples. -/
theorem witness_FlushPaintsInOrder :
    (∃ s : State, Idle s ∧ s.init = true ∧ 0 < s.cfg.pollIntervalMs ∧ blank.length = 134400 ∧
      s.cfg.reinitRedrives = false ∧ WaitTakes s 210 0 .high ∧ WaitTakes (afterSamples (0 + 1) s) 32000 1 .high ∧
      WaitTakes (afterSamples (0 + 1 + (1 + 1)) s) 200 0 .high) ∧
    ∃ s : State, Idle s ∧ s.init = true ∧ 0 < s.cfg.pollIntervalMs ∧ s.cfg.reinitRedrives = true ∧
      WaitTakes s 40000 1 .high ∧ WaitTakes (afterSamples (1 + 1) s) 210 0 .high ∧
      WaitTakes (afterSamples (1 + 1 + (0 + 1)) s) 32000 1 .high ∧
      WaitTakes (afterSamples (1 + 1 + (0 + 1) + (1 + 1)) s) 200 0 .high :=
  ⟨⟨live 10 [one, zero, one, one], live_idle _ _, rfl, by decide, blank_length, rfl,
      waitTakes_ready _ _ 0 [zero, one, one] rfl, waitTakes_second _ _ (by decide) [one] rfl,
      waitTakes_ready _ _ 0 [] rfl⟩,
    liveAgain 10 [zero, one, one, zero, one, one], ⟨rfl, rfl⟩, rfl, by decide, rfl,
      waitTakes_second _ _ (by decide) [one, zero, one, one] rfl, waitTakes_ready _ _ 0 [zero, one, one] rfl,
      waitTakes_second _ _ (by decide) [one] rfl, waitTakes_ready _ _ 0 [] rfl⟩

/-- Waits of two, one, one and two samples, and of one sample each with no positive interval. -/
theorem witness_FlushFromResetInitializesFirst :
    (∃ s : State, Idle s ∧ s.init = false ∧ 0 < s.cfg.pollIntervalMs ∧ blank.length = 134400 ∧
      WaitTakes s 40000 1 .high ∧ WaitTakes (afterSamples (1 + 1) s) 210 0 .high ∧
      WaitTakes (afterSamples (1 + 1 + (0 + 1)) s) 32000 0 .high ∧
      WaitTakes (afterSamples (1 + 1 + (0 + 1) + (0 + 1)) s) 200 1 .high) ∧
    ∃ s : State, Idle s ∧ s.init = false ∧ s.cfg.pollIntervalMs = 0 ∧
      WaitTakes s 40000 0 .high ∧ WaitTakes (afterSamples (0 + 1) s) 210 0 .high ∧
      WaitTakes (afterSamples (0 + 1 + (0 + 1)) s) 32000 0 .high ∧
      WaitTakes (afterSamples (0 + 1 + (0 + 1) + (0 + 1)) s) 200 0 .high :=
  ⟨⟨fresh 10 [zero, one, one, one, zero, one], fresh_idle _ _, rfl, by decide, blank_length,
      waitTakes_second _ _ (by decide) [one, one, zero, one] rfl, waitTakes_ready _ _ 0 [one, zero, one] rfl,
      waitTakes_ready _ _ 0 [zero, one] rfl, waitTakes_second _ _ (by decide) [] rfl⟩,
    fresh 0 [one, one, one, one], fresh_idle _ _, rfl, rfl, waitTakes_ready _ _ 0 [one, one, one] rfl,
      waitTakes_ready _ _ 0 [one, one] rfl, waitTakes_ready _ _ 0 [one] rfl, waitTakes_ready _ _ 0 [] rfl⟩

/-- A FLUSH that fails in its bring-up, and one that fails in its first paint wait (`flush_times_out`). -/
theorem witness_AFailedFlushStopsAtItsWait :
    (∃ s t : State, Idle s ∧ blank.length = 134400 ∧ 0 < s.cfg.pollIntervalMs ∧ exec (.flush blank) s = .next t ∧
      initialiseWaits s = true ∧ WaitTakes s 40000 1 .low) ∧
    ∃ s t : State, Idle s ∧ blank.length = 134400 ∧ 0 < s.cfg.pollIntervalMs ∧ exec (.flush blank) s = .next t ∧
      initialiseWaits s = false ∧ WaitTakes (afterSamples (initialiseSamples s 0) s) 210 1 .low :=
  ⟨⟨fresh 10 [{ level := .low, lateMs := 40000 }, zero], _, fresh_idle _ _, blank_length, by decide, flush_next _ rfl,
      rfl, waitTakes_late _ _ (by decide) [] rfl⟩,
    live 10 [{ level := .low, lateMs := 210 }, zero], _, live_idle _ _, blank_length, by decide, flush_next _ rfl, rfl,
      waitTakes_late _ _ (by decide) [] rfl⟩

theorem witness_FlushRefusesAnotherLength :
    (live 1 []).seq = [] ∧ (blank.drop 1).length ≠ 134400 ∧ ([] : List Byte).length ≠ 134400 := by
  refine ⟨rfl, ?_, ?_⟩
  · rw [List.length_drop, blank_length]; omega
  · rw [List.length_nil]; omega

theorem witness_OnlySetResolutionSendsTheResolution :
    ∃ s t : State, isHostOp (.flush blank) = true ∧ Instr.flush blank ≠ .setResolution ∧
      (∀ b, Instr.flush blank ≠ .writeCommand b) ∧ (∀ b, Instr.flush blank ≠ .writeData b) ∧
      exec (.flush blank) s = .next t :=
  ⟨live 10 [one, one, one], _, rfl, Instr.noConfusion, fun _ => Instr.noConfusion, fun _ => Instr.noConfusion,
    flush_next _ rfl⟩

theorem witness_NothingDrivesTheResetPinLow :
    ∃ s t : State, exec .initializeDriver s = .next t := ⟨fresh 10 [one], _, rfl⟩

theorem witness_FlushTakesBoundedlyManySamples :
    Idle (fresh 1 []) ∧ 0 < (fresh 1 []).cfg.pollIntervalMs ∧ blank.length = 134400 :=
  ⟨fresh_idle _ _, by decide, blank_length⟩

/-- The corners of the grid, and the coordinates beside them. -/
theorem witness_SetPixelWritesOneCell :
    Idle (fresh 1 []) ∧ Memory.wf (fresh 1 []).fb = true ∧
    (∀ x ∈ [(0 : Coord), 599], 0 ≤ x.toInt ∧ x.toInt < 600) ∧ (∀ y ∈ [(0 : Coord), 447], 0 ≤ y.toInt ∧ y.toInt < 448) ∧
    (∀ x ∈ [(-1 : Coord), 600, 2147483647], x.toInt < 0 ∨ 600 ≤ x.toInt) ∧
    (∀ y ∈ [(-1 : Coord), 448, 599], y.toInt < 0 ∨ 448 ≤ y.toInt) :=
  ⟨fresh_idle _ _, rfl, by simp, by simp, by simp, by simp⟩

theorem witness_SetPixelIsIdempotent :
    ∃ s t u : State, Idle s ∧ Memory.wf s.fb = true ∧ exec (.setPixel 5 5 .red) s = .next t ∧
      exec (.setPixel 5 5 .red) t = .next u :=
  ⟨fresh 1 [], _, _, fresh_idle _ _, rfl, rfl, rfl⟩

theorem witness_GetPixelsReturnsTheGrid : (fresh 1 []).seq = [] := rfl

/-- A function with the closed forms exists for every grid and every pair of flags. -/
theorem witness_ThePackedImageIsTheFlattenedGrid (c : Cfg) (m : Memory) :
    ∃ f : Nat → Color, ∀ k, f k =
      match c.hflip, c.vflip with
      | false, false => cell m (k / 448) (k % 448)
      | true, false => cell m (k % 600) (447 - k / 600)
      | false, true => cell m (599 - k % 600) (k / 600)
      | true, true => cell m (599 - k / 448) (447 - k % 448) :=
  ⟨_, fun _ => rfl⟩

/-- V86: the indices of FB[599, 447] under the four pairs of flags. -/
theorem witness_EveryCellLandsWhereTheTableSays :
    599 < 600 ∧ 447 < 448 ∧ 448 * 599 + 447 = 268799 ∧ 600 * (447 - 447) + 599 = 599 ∧
      600 * 447 + (599 - 599) = 268200 ∧ 448 * (599 - 599) + (447 - 447) = 0 := by omega

theorem witness_RenderSendsAndReturnsTheImage :
    (Idle (fresh 10 [one, one, one, one]) ∧ (fresh 10 [one, one, one, one]).init = false) ∧
    (Idle (live 10 [one, one, one]) ∧ (live 10 [one, one, one]).init = true ∧
      (live 10 [one, one, one]).cfg.reinitRedrives = false ∧
      (live 10 [one, one, one]).busy = { level := .high, lateMs := 0 } :: { level := .high, lateMs := 0 } ::
        { level := .high, lateMs := 0 } :: []) :=
  ⟨⟨fresh_idle _ _, rfl⟩, live_idle _ _, rfl, rfl, rfl⟩

theorem witness_RenderIsFlushOfTheImage : (live 10 []).seq = [] := rfl

/-- An array with elements, and one without. -/
theorem witness_FlattenIsRowMajor :
    (fresh 1 []).seq = [] ∧ gridG.rect = true ∧ ({ cols := 5, rows := [] } : Grid Nat).rect = true := ⟨rfl, rfl, rfl⟩

theorem witness_TheMirrorsReverseTheirIndex :
    (fresh 1 []).seq = [] ∧ gridK.rect = true ∧ 1 < gridK.rows.length ∧ 2 < gridK.cols :=
  ⟨rfl, rfl, by decide, by decide⟩

theorem witness_RotateAlwaysFails : Idle (fresh 1 []) := fresh_idle _ _

/-- Every error a host operation can return is returned by one, FLUSH's and RENDER's later waits by the runs of
`witness_AFailedFlushStopsAtItsWait`. -/
theorem witness_EachOperationReturnsItsOwnErrors :
    resultOf (exec (.fromByte 9) (fresh 1 [])) = some (.err (.encoding 9)) ∧
    resultOf (exec (.writeData []) (live 1 [])) = some (.err .protocolArgument) ∧
    resultOf (exec .resetDisplay (fresh 1 [])) = some (.err .protocolState) ∧
    resultOf (exec (.setPixel 600 0 .black) (fresh 1 [])) = some (.err (.bounds .x 600)) ∧
    resultOf (exec .initializeDriver (fresh 1 [{ level := .low, lateMs := 40000 }, zero])) =
      some (.err (.timeout 40000)) ∧
    resultOf (exec (.waitForReady .busy 0) (live 1 [zero])) = some (.err (.timeout 0)) ∧
    resultOf (exec (.rotate 1 gridG) (fresh 1 [])) = some (.err .notSupported) := by decide

theorem witness_ErrorsOtherThanTimeoutChangeNothing :
    ∃ s t : State, isHostOp (.fromByte 9) = true ∧ Idle s ∧ exec (.fromByte 9) s = .next t ∧
      t.result = some (.err (.encoding 9)) ∧ ∀ T, Err.encoding 9 ≠ .timeout T :=
  ⟨fresh 1 [], _, rfl, fresh_idle _ _, rfl, rfl, fun _ => Err.noConfusion⟩

/-- The result of a FLUSH of an initialized engine whose first paint wait fails. -/
theorem flush_times_out :
    (ended .none (paintCycle blank (live 10 [{ level := .low, lateMs := 210 }, zero]))).result =
      some (.err (.timeout 210)) := by
  have hw := waitTakes_late (live 10 [{ level := .low, lateMs := 210 }, zero]) tPon1Ms (by decide) [] rfl
  rw [paintCycle_initialised (isImage_ne_nil ((isImage_iff blank).2 blank_length)) (initialise_again rfl rfl) rfl,
    powerStep_eq (s := sent (registerEvents ++ regW 0x10 blank) .high
      (live 10 [{ level := .low, lateMs := 210 }, zero])) (by decide) rfl (hw.congr rfl rfl rfl)]
  rfl

/-- A failed bring-up, a failed second INITIALIZE, a failed wait on its own, and a failed wait of the paint cycle. -/
theorem witness_ATimeoutKeepsTheGridAndTheBoundary :
    (∃ s t : State, isHostOp .initializeDriver = true ∧ Boundary s ∧ exec .initializeDriver s = .next t ∧
      t.result = some (.err (.timeout 40000)) ∧ t.init = false) ∧
    (∃ s t : State, Boundary s ∧ exec .initializeDriver s = .next t ∧
      t.result = some (.err (.timeout 40000)) ∧ t.init = true) ∧
    (∃ s t : State, isHostOp (.waitForReady .busy 0) = true ∧ Boundary s ∧ exec (.waitForReady .busy 0) s = .next t ∧
      t.result = some (.err (.timeout 0)) ∧ t.init = true) ∧
    ∃ s t : State, isHostOp (.flush blank) = true ∧ Boundary s ∧ exec (.flush blank) s = .next t ∧
      t.result = some (.err (.timeout 210)) :=
  ⟨⟨fresh 1 [{ level := .low, lateMs := 40000 }, zero], _, rfl, fresh_boundary _ _, rfl, by decide, by decide⟩,
    ⟨liveAgain 1 [{ level := .low, lateMs := 40000 }, zero], _,
      ⟨⟨rfl, rfl⟩, rfl, fun _ => rfl, fun h => absurd h (by decide), fun _ => rfl, fun _ => rfl,
        fun h => absurd h (by decide)⟩, rfl, by decide, by decide⟩,
    ⟨live 1 [zero], _, rfl, live_boundary _ _, rfl, by decide, by decide⟩,
    live 10 [{ level := .low, lateMs := 210 }, zero], _, rfl, live_boundary _ _, flush_next _ rfl, flush_times_out⟩

theorem witness_EveryOperationEndsIdleWithAResult :
    ∃ s t : State, isHostOp .getPixels = true ∧ exec .getPixels s = .next t := ⟨fresh 1 [], _, rfl, rfl⟩

/-- An operation that sets INIT, and one run with INIT = 1. -/
theorem witness_OnlyInitializeSetsInit :
    (∃ s t : State, exec .initializeDriver s = .next t ∧ s.init = false ∧ t.init = true) ∧
    ∃ s t : State, exec .resetDisplay s = .next t ∧ s.init = true :=
  ⟨⟨fresh 1 [one], _, rfl, rfl, rfl⟩, live 1 [], _, rfl, rfl⟩

/-- An instruction, a step in the middle of an operation, and a step that takes a SET_PIXEL from the port. -/
theorem witness_OnlySetPixelWritesTheGrid :
    (∃ s t : State, exec .cmdTse s = .next t ∧ ∀ x y c, Instr.cmdTse ≠ .setPixel x y c) ∧
    (∃ s t : State, s.seq ≠ [] ∧ s.fb = [(0, .red)] ∧ step s = .next t) ∧
    ∃ s t : State, s.seq = [] ∧ step s = .next t ∧ t.fb ≠ s.fb :=
  ⟨⟨live 1 [], _, rfl, fun _ _ _ => Instr.noConfusion⟩,
    ⟨{ live 1 [] with fb := [(0, .red)], seq := [.regSeq 4 0] }, _, List.cons_ne_nil _ _, rfl, rfl⟩,
    { live 1 [] with port := [[0x07, 5, 0, 0, 0, 5, 0, 0, 0, 4]] }, _, rfl, rfl, by decide⟩

theorem witness_PureOperationsIgnoreTheMode :
    ∃ s t : State, startPositions (.setPixel 5 5 .red) s = none ∧ isHostOp (.setPixel 5 5 .red) = true ∧
      exec (.setPixel 5 5 .red) s = .next t :=
  ⟨fresh 1 [], _, rfl, rfl, rfl⟩

/-- Reset with an operation presented: a boundary from which a step is taken. -/
theorem witness_EveryStepKeepsTheBoundary :
    ∃ s t : State, Boundary s ∧ WellFramed s.trace ∧ PinsMatchTrace s ∧ Memory.wf s.fb = true ∧ s.port ≠ [] ∧
      step s = .next t :=
  ⟨{ fresh 1 [one] with port := [[0x00]] }, _,
    ⟨⟨rfl, rfl⟩, rfl, fun h => absurd h (by decide : ¬false = true), fun _ => rfl,
      fun h => absurd h (by decide : ¬false = true), fun h => absurd h (by decide : ¬false = true), fun _ => rfl⟩,
    rfl, rfl, rfl, List.cons_ne_nil _ _, rfl⟩

theorem witness_EveryStepKeepsTheFramesWhole :
    ∃ s t : State, Boundary s ∧ WellFramed s.trace ∧ step s = .next t :=
  let ⟨s, t, h, hw, _, _, _, ht⟩ := witness_EveryStepKeepsTheBoundary
  ⟨s, t, h, hw, ht⟩

/-- In the middle of a frame, with the pins as its events have left them. -/
theorem witness_EveryStepKeepsThePinsInStepWithTheTrace :
    ∃ s t : State, PinsMatchTrace s ∧ s.seq ≠ [] ∧ step s = .next t :=
  ⟨pinWrite .cs .low { fresh 1 [] with init := true, seq := [.frame .setDc .high [0x07]] }, _, rfl,
    List.cons_ne_nil _ _, rfl⟩

theorem witness_EveryStepKeepsTheStoreAndExtendsTheTrace :
    ∃ s t : State, Memory.wf s.fb = true ∧ s.seq ≠ [] ∧ step s = .next t :=
  ⟨{ live 1 [] with fb := [(0, .red), (268799, .clean)], seq := [.regSeq 4 0] }, _, by decide, List.cons_ne_nil _ _, rfl⟩

/-- An operation that succeeds, and one that fails. -/
theorem witness_TheSequencerRunsEveryOperation :
    (∃ (s t : State) (q : List Pos), Idle s ∧ s.cfg.legal = true ∧ startPositions .initializeDriver s = some q ∧
      exec .initializeDriver s = .next t) ∧
    ∃ (s t : State) (q : List Pos), Idle s ∧ s.cfg.legal = true ∧ startPositions (.flush blank) s = some q ∧
      exec (.flush blank) s = .next t :=
  ⟨⟨fresh 10 [{ level := .low, lateMs := 39990 }, zero], _, _, fresh_idle _ _, by decide, rfl, rfl⟩,
    live 10 [one, one, one], _, _, live_idle _ _, by decide, rfl, flush_next _ rfl⟩

end Sys2Proof.Machine.Tests
end

section
/-! PROOF. FROM_BYTE (spec/40_displaycolor.md R101): the colour of a wire byte, the end of an operation that runs nothing,
and the statement about FROM_BYTE. -/

namespace Sys2Proof

/-- Every 3-bit code is the code of the colour read from it (R81, R100). -/
@[simp] theorem code_ofCode (v : BitVec 3) : (Color.ofCode v).code = v := by
  revert v
  decide

/-- The wire byte of the colour read from a byte's low three bits, where no higher bit is set (R102). -/
theorem toByte_ofCode_setWidth {b : Byte} (hb : b.toNat ≤ 7) : (Color.ofCode (b.setWidth 3)).toByte = b := by
  apply BitVec.eq_of_toNat_eq
  simp only [Color.toByte, code_ofCode, BitVec.toNat_setWidth]
  omega

/-- A byte 0 to 7 is the wire byte of the colour it is read as (R101). -/
theorem ofByte_of_le {b : Byte} (hb : b.toNat ≤ 7) : ∃ c : Color, Color.ofByte b = some c ∧ c.toByte = b :=
  ⟨_, if_pos hb, toByte_ofCode_setWidth hb⟩

/-- A byte above 7 is no colour (R101). -/
theorem ofByte_of_lt {b : Byte} (hb : 7 < b.toNat) : Color.ofByte b = none :=
  if_neg (Nat.not_le.mpr hb)

end Sys2Proof

namespace Sys2Proof.Machine

/-- On an Idle engine a normal end writes the result and nothing else. -/
theorem finish_of_idle {s : State} (hs : Idle s) (v : Value) : finish v s = { s with result := some (.ok v) } := by
  simp [finish, hs.seq]

/-- On an Idle engine taking an error writes the result and nothing else. -/
theorem takeError_of_idle {s : State} (hs : Idle s) (e : Err) : takeError e s = { s with result := some (.err e) } := by
  simp [takeError, hs.seq, hs.bw]

/-- FROM_BYTE of a byte that is a colour returns it. -/
theorem exec_fromByte_some {s : State} (hs : Idle s) {b : Byte} {c : Color} (hb : Color.ofByte b = some c) :
    exec (.fromByte b) s = .next { s with result := some (.ok (.color c)) } := by
  have hflow : opFlow (.fromByte b) s = some (.color c, .ok s) := by simp [opFlow, hb]
  rw [exec_opFlow hs.seq hflow, ended, finish_of_idle hs]

/-- FROM_BYTE of a byte that is no colour fails with EncodingError, which carries the byte. -/
theorem exec_fromByte_none {s : State} (hs : Idle s) {b : Byte} (hb : Color.ofByte b = none) :
    exec (.fromByte b) s = .next { s with result := some (.err (.encoding b)) } := by
  have hflow : opFlow (.fromByte b) s = some (.none, .raise (.encoding b) s) := by simp [opFlow, hb]
  rw [exec_opFlow hs.seq hflow, ended, takeError_of_idle hs]

/-- TO_BYTE returns the colour's wire byte. -/
theorem exec_toByte {s : State} (hs : Idle s) (c : Color) :
    exec (.toByte c) s = .next { s with result := some (.ok (.byte c.toByte)) } := by
  rw [exec_opFlow hs.seq rfl, ended, finish_of_idle hs]

/-- Settles O12: a byte 0 to 7 is the wire byte of the colour it is read as, which TO_BYTE gives back; a byte above 7 is no
colour. -/
theorem fromByteReturnsTheVariantOrReportsTheByte : Obligations.FromByteReturnsTheVariantOrReportsTheByte := by
  intro s b hs
  refine ⟨fun hle => ?_, fun hlt => exec_fromByte_none hs (ofByte_of_lt hlt), rfl⟩
  obtain ⟨c, hc, hbyte⟩ := ofByte_of_le hle
  refine ⟨c, exec_fromByte_some hs hc, ?_⟩
  rw [exec_toByte hs, hbyte]

end Sys2Proof.Machine
end

section
/-! PROOF. WAIT_FOR_READY on its own (spec/41_busywaiter.md R110, R111): the instruction as the wait it runs, what a
successful wait leaves on an Idle engine, and the statement about a first sample that reads ready. -/

namespace Sys2Proof.Machine

/-- Where the state lists samples, the next one is the first listed (R25). -/
theorem sampleAt_zero_of_busy_cons {s : State} {x : Sample} {rest : List Sample} (hb : s.busy = x :: rest) :
    sampleAt s 0 = x := by
  simp [sampleAt, hb]

/-- On an open BUSY pin WAIT_FOR_READY is the busy wait, its end made the operation's result (R110). -/
theorem exec_waitForReady_busy {s : State} (hs : s.seq = []) (hp : s.pinState.busy = .openIn) (T : Nat) :
    exec (.waitForReady .busy T) s = .next (ended .none (waitReady T s)) :=
  exec_opFlow hs (if_pos ⟨rfl, hp⟩)

/-- On an Idle engine a wait that ends normally leaves its events, the samples it took and its result, and nothing else. -/
theorem finish_waited_of_idle {s : State} (hs : Idle s) (n : Nat) (l : Level) (v : Value) :
    finish v (waited n l s) =
      { s with
        trace := s.trace ++ waitEvents s.cfg.pollIntervalMs n l
        busy := s.busy.drop (n + 1)
        samples := s.samples + (n + 1)
        result := some (.ok v) } := by
  simp [finish, waited, hs.seq, hs.bw]

/-- Settles O14: a first sample that reads ready ends the wait, so that its events are that one read and no sleep. -/
theorem waitReturnsOnAReadyFirstSample : Obligations.WaitReturnsOnAReadyFirstSample := by
  intro s T late rest hs hp hb
  have hready : (sampleAt s 0).level = .high := by rw [sampleAt_zero_of_busy_cons hb]
  have hevents : waitEvents s.cfg.pollIntervalMs 0 .high = [.pinRead .busy .high] := rfl
  rw [exec_waitForReady_busy hs.seq hp, waitReady_first T hready, ended, finish_waited_of_idle hs, hevents, hb]
  rfl

end Sys2Proof.Machine
end

section
/-! PROOF. RESET_DISPLAY and SET_RESOLUTION (spec/43_protocol_sequences.md R150, R151, R153): how an operation that sends
frames only ends on an Idle engine, and the statements about the two sequences. -/

namespace Sys2Proof.Machine

/-- On an Idle engine a host operation that has sent frames and succeeds leaves their events, the levels of CS and DC and
its result, and nothing else. -/
theorem exec_of_opFlow_sent {i : Instr} {s : State} (hs : Idle s) {v : Value} {es : List Event} {dc : Level}
    (h : opFlow i s = some (v, .ok (sent es dc s))) :
    exec i s =
      .next { s with
        trace := s.trace ++ es
        pinLevel := { s.pinLevel with cs := .driven .high, dc := .driven dc }
        result := some (.ok v) } := by
  have hsent : Idle (sent es dc s) := ⟨hs.seq, hs.bw⟩
  rw [exec_opFlow hs.seq h, ended, finish_of_idle hsent]
  rfl

/-- On an Idle engine a host operation that raises before it does anything leaves its error as the result, and nothing
else. -/
theorem exec_of_opFlow_raise {i : Instr} {s : State} (hs : Idle s) {v : Value} {e : Err}
    (h : opFlow i s = some (v, .raise e s)) : exec i s = .next { s with result := some (.err e) } := by
  rw [exec_opFlow hs.seq h, ended, takeError_of_idle hs]

/-- The register sequence as its twenty frames (R151). -/
theorem registerEvents_eq_frames :
    registerEvents =
      cmdF [0x03] ++ datF [0x00] ++ cmdF [0x00] ++ datF [0xEF, 0x08] ++
      cmdF [0x01] ++ datF [0x37, 0x00, 0x23, 0x23] ++ cmdF [0x30] ++ datF [0x1C] ++
      cmdF [0x41] ++ datF [0x00] ++ cmdF [0x50] ++ datF [0x37] ++ cmdF [0x60] ++ datF [0x22] ++
      cmdF [0x65] ++ datF [0x00] ++ cmdF [0xE3] ++ datF [0xAA] ++ cmdF [0x03] ++ datF [0x00] := by
  simp only [registerEvents, regW, List.append_assoc]

/-- Settles O22: the operation is the register sequence, whose state gate is the first thing it does. -/
theorem resetDisplaySendsTheRegisterSequence : Obligations.ResetDisplaySendsTheRegisterSequence := by
  intro s hs
  have hflow : opFlow .resetDisplay s = some (.none, registerSequence s) := rfl
  constructor
  · intro hi
    rw [registerSequence_sent hi] at hflow
    rw [exec_of_opFlow_sent hs hflow, registerEvents_eq_frames]
  · intro hi
    rw [registerSequence_uninitialized hi] at hflow
    exact exec_of_opFlow_raise hs hflow

/-- Settles O23: the operation is one register write, whose command frame carries the state gate. -/
theorem setResolutionSendsTheResolutionWrite : Obligations.SetResolutionSendsTheResolutionWrite := by
  intro s hs
  have hflow : opFlow .setResolution s = some (.none, regWrite 0x61 [0x01, 0xF4, 0x01, 0xC0] s) := rfl
  refine ⟨fun hi => ?_, fun hi => ?_, rfl⟩
  · rw [regWrite_sent (List.cons_ne_nil _ _) hi] at hflow
    exact exec_of_opFlow_sent hs hflow
  · rw [regWrite_uninitialized hi] at hflow
    exact exec_of_opFlow_raise hs hflow

end Sys2Proof.Machine
end

section
/-! PROOF. Opcode 0x61 belongs to SET_RESOLUTION (spec/43_protocol_sequences.md R154): every byte sequence a host operation
sends is one of its `opPayloads`, and those of the other operations do not hold [0x61]. -/

namespace Sys2Proof.Machine

/-- A host operation appends events to TRACE, and sends none but its own byte sequences. -/
theorem exec_hostOp_sends {i : Instr} (hi : isHostOp i = true) {s t : State} (h : exec i s = .next t) :
    ∃ es, t.trace = s.trace ++ es ∧ ∀ b, Event.spiWrite b ∈ es → b ∈ opPayloads i s := by
  by_cases hset : ∃ x y c, i = .setPixel x y c
  · obtain ⟨x, y, c, rfl⟩ := hset
    have htrace : t.trace = s.trace := by
      rcases setPixel_next h with ⟨e, -, rfl⟩ | ⟨-, rfl⟩ <;> rfl
    exact ⟨[], by rw [htrace, List.append_nil], fun b hb => absurd hb List.not_mem_nil⟩
  · obtain ⟨-, v, f, hf, rfl⟩ := exec_hostOp_next hi h
    have hrun := opFlow_wireRun (fun x y c hc => hset ⟨x, y, c, hc⟩) hf
    obtain ⟨es, htrace, -, -, hin⟩ := hrun.events
    obtain ⟨-, -, -, -, -, -, -, hended, -⟩ := ended_of_wireRun hrun v
    exact ⟨es, hended.trans htrace, fun b hb => hin _ hb⟩

/-- The register sequence does not send the resolution opcode. -/
theorem resolution_notMem_regSeq : ([0x61] : List Byte) ∉ rowPayloads regSeqRows := by
  decide

/-- The paint cycle of a packed image does not send the resolution opcode: the image is longer than one byte. -/
theorem resolution_notMem_paint {pk : List Byte} (hpk : pk.length = 134400) : [0x61] ∉ paintPayloads pk := by
  intro hmem
  rcases List.mem_append.mp hmem with hregs | hown
  · exact resolution_notMem_regSeq hregs
  · obtain rfl : pk = [0x61] := by simpa [imageOpcode, powerOpcode, eq_comm] using hown
    exact absurd hpk (by decide)

/-- FLUSH that gives a next state was given a packed image (R156). -/
theorem flush_next_length {pk : List Byte} {s t : State} (h : exec (.flush pk) s = .next t) : pk.length = 134400 := by
  obtain ⟨-, v, f, hf, -⟩ := exec_hostOp_next (i := .flush pk) rfl h
  by_contra hlen
  rw [← isImage_iff] at hlen
  simp [opFlow, hlen] at hf

/-- Of the byte sequences a host operation sends on its own account, only SET_RESOLUTION's hold the resolution opcode. -/
theorem resolution_notMem_opPayloads {i : Instr} {s t : State} (hres : i ≠ .setResolution)
    (hcmd : ∀ b, i ≠ .writeCommand b) (hdat : ∀ b, i ≠ .writeData b) (h : exec i s = .next t) :
    [0x61] ∉ opPayloads i s := by
  cases i
  case setResolution => exact absurd rfl hres
  case writeCommand b => exact absurd rfl (hcmd b)
  case writeData b => exact absurd rfl (hdat b)
  case resetDisplay => exact resolution_notMem_regSeq
  case flush pk => exact resolution_notMem_paint (flush_next_length h)
  case render => exact resolution_notMem_paint (renderImage_length s.cfg s.fb)
  all_goals exact List.not_mem_nil

/-- Settles O32: what an operation sends is among its own byte sequences, and [0x61] is not. -/
theorem onlySetResolutionSendsTheResolution : Obligations.OnlySetResolutionSendsTheResolution := by
  intro i s t hi hres hcmd hdat h
  obtain ⟨es, htrace, hsends⟩ := exec_hostOp_sends hi h
  exact ⟨es, htrace, fun hmem => resolution_notMem_opPayloads hres hcmd hdat h (hsends _ hmem)⟩

end Sys2Proof.Machine
end

section
/-! PROOF. SET_PIXEL (spec/44_framebuffer.md section 1, R190, R191): the range checks as inequalities, the instruction on an
Idle engine, and the statement about the one cell it writes. -/

namespace Sys2Proof.Machine

/-- The range check of a coordinate as inequalities (R190). -/
theorem inRange_iff {v : Coord} {bound : Nat} : inRange v bound = true ↔ 0 ≤ v.toInt ∧ v.toInt < bound := by
  simp [inRange]

/-- A coordinate below or past the bound fails the range check (R190). -/
theorem inRange_eq_false_iff {v : Coord} {bound : Nat} : inRange v bound = false ↔ v.toInt < 0 ∨ bound ≤ v.toInt := by
  rw [← Bool.not_eq_true, inRange_iff]
  omega

/-- Two coordinates in range give no BoundsError (R190). -/
theorem boundsError_eq_none {x y : Coord} (hx : inRange x gridW = true) (hy : inRange y gridH = true) :
    boundsError x y = none := by
  simp [boundsError, hx, hy]

/-- `x` out of range is reported whatever `y` is (R191, D12). -/
theorem boundsError_of_x {x : Coord} (y : Coord) (hx : inRange x gridW = false) :
    boundsError x y = some (.bounds .x x.toInt) :=
  if_pos hx

/-- `y` out of range is reported where `x` is in range (R191, D12). -/
theorem boundsError_of_y {x y : Coord} (hx : inRange x gridW = true) (hy : inRange y gridH = false) :
    boundsError x y = some (.bounds .y y.toInt) := by
  simp [boundsError, hx, hy]

/-- SET_PIXEL of a cell of the grid, on an Idle engine, writes that cell and the result, and nothing else. -/
theorem exec_setPixel_write {s : State} (hs : Idle s) {x y : Coord} (c : Color) (hb : boundsError x y = none) :
    exec (.setPixel x y c) s =
      .next { s with fb := Memory.set s.fb (cellKey x.toNat y.toNat) c, result := some (.ok .none) } := by
  have hflow : opFlow (.setPixel x y c) s = some (.none, .ok (writeCell x y c s)) := by simp [opFlow, hb]
  have hwritten : Idle (writeCell x y c s) := ⟨hs.seq, hs.bw⟩
  rw [exec_opFlow hs.seq hflow, ended, finish_of_idle hwritten]
  rfl

/-- SET_PIXEL outside the grid, on an Idle engine, leaves the BoundsError as its result, and nothing else. -/
theorem exec_setPixel_raise {s : State} (hs : Idle s) {x y : Coord} (c : Color) {e : Err} (hb : boundsError x y = some e) :
    exec (.setPixel x y c) s = .next { s with result := some (.err e) } := by
  have hflow : opFlow (.setPixel x y c) s = some (.none, .raise e s) := by simp [opFlow, hb]
  exact exec_of_opFlow_raise hs hflow

/-- Settles O35: inside the grid the store is written at the cell's key, which no other cell shares; outside it the first
coordinate that fails its check is reported. -/
theorem setPixelWritesOneCell : Obligations.SetPixelWritesOneCell := by
  intro s x y c hs hwf
  refine ⟨fun hx0 hx hy0 hy => ?_, fun hx => ?_, fun hx0 hx hy => ?_, rfl⟩
  · obtain ⟨hxnat, -⟩ := coord_toNat hx0 hx
    obtain ⟨hynat, hylt⟩ := coord_toNat hy0 hy
    have hin : boundsError x y = none := boundsError_eq_none (inRange_iff.mpr ⟨hx0, hx⟩) (inRange_iff.mpr ⟨hy0, hy⟩)
    refine ⟨_, exec_setPixel_write hs c hin, ?_, fun x' y' _ hy' hne => ?_⟩
    · rw [← hxnat, ← hynat, cell_set hwf hylt hylt, if_pos ⟨rfl, rfl⟩]
    · rw [← hxnat, ← hynat] at hne
      rw [cell_set hwf hylt hy', if_neg (not_and_or.mpr hne)]
  · exact exec_setPixel_raise hs c (boundsError_of_x y (inRange_eq_false_iff.mpr hx))
  · exact exec_setPixel_raise hs c (boundsError_of_y (inRange_iff.mpr ⟨hx0, hx⟩) (inRange_eq_false_iff.mpr hy))

end Sys2Proof.Machine
end

section
/-! PROOF. The orientation transform (spec/44_framebuffer.md R196): its elements under each pair of flags, and the statement
about the four rows of the table. -/

namespace Sys2Proof.Machine

variable {α : Type} {w h : Nat} (f : Nat → Nat → α)

/-- Row 1 of the table, neither flag: the grid itself. -/
theorem orient_at_identity {i j : Nat} (hi : i < w) (hj : j < h) :
    (orient w h false false f).at? i j = some (f i j) :=
  Grid.build_at _ hi hj

/-- Row 2 of the table, `HFLIP` alone: a rotation by 90 degrees. -/
theorem orient_at_hflip {r k : Nat} (hr : r < h) (hk : k < w) :
    (orient w h true false f).at? r k = some (f k (h - 1 - r)) :=
  Grid.build_at _ hr hk

/-- Row 3 of the table, `VFLIP` alone: a rotation by 90 degrees in the opposite sense. -/
theorem orient_at_vflip {r k : Nat} (hr : r < h) (hk : k < w) :
    (orient w h false true f).at? r k = some (f (w - 1 - k) r) :=
  Grid.build_at _ hr hk

/-- Row 4 of the table, both flags: a rotation by 180 degrees. -/
theorem orient_at_bothFlips {i j : Nat} (hi : i < w) (hj : j < h) :
    (orient w h true true f).at? i j = some (f (w - 1 - i) (h - 1 - j)) :=
  Grid.build_at _ hi hj

/-- Settles O38: the shape and the number of elements for any flags, the elements row by row of the table. -/
theorem theTransformFollowsTheTable : Obligations.TheTransformFollowsTheTable := by
  intro c m
  refine ⟨transform_rect c m, transform_flat_length c m, fun hh hv i j hi hj => ?_, fun hh hv r k hr hk => ?_,
    fun hh hv r k hr hk => ?_, fun hh hv i j hi hj => ?_⟩ <;> rw [transform, hh, hv]
  · exact orient_at_identity _ hi hj
  · exact orient_at_hflip _ hr hk
  · exact orient_at_vflip _ hr hk
  · exact orient_at_bothFlips _ hi hj

end Sys2Proof.Machine
end

section
/-! PROOF. FLATTEN and ROTATE (spec/45_array2dops.md R220, R224): how an operation that only computes a value ends, and the
statements about the row-major sequence and the stub that always fails. -/

namespace Sys2Proof.Machine

/-- Where SEQ is Idle a normal end writes the result and nothing else; the busy waiter's values need not be absent. -/
theorem finish_of_seq_nil {s : State} (hs : s.seq = []) (v : Value) : finish v s = { s with result := some (.ok v) } := by
  simp [finish, hs]

/-- Where SEQ is Idle a host operation that returns a value and runs nothing leaves that value as its result, and nothing
else. -/
theorem exec_of_opFlow_ok {i : Instr} {s : State} (hs : s.seq = []) {v : Value} (h : opFlow i s = some (v, .ok s)) :
    exec i s = .next { s with result := some (.ok v) } := by
  rw [exec_opFlow hs h, ended, finish_of_seq_nil hs]

/-- FLATTEN returns the rows one after another (R220). -/
theorem exec_flatten {s : State} (hs : s.seq = []) (g : Grid Nat) :
    exec (.flatten g) s = .next { s with result := some (.ok (.elements g.flat)) } :=
  exec_of_opFlow_ok hs rfl

/-- ROTATE raises NotSupportedError before it looks at an operand (R224). -/
theorem exec_rotate {s : State} (hs : Idle s) (a : Nat) (g : Grid Nat) :
    exec (.rotate a g) s = .next { s with result := some (.err .notSupported) } :=
  exec_of_opFlow_raise hs rfl

/-- Settles O43: the sequence is the rows one after another, and in a rectangular array the rows before row `i` hold
`i * N1` elements. -/
theorem flattenIsRowMajor : Obligations.FlattenIsRowMajor := by
  intro s g hs hrect
  exact ⟨g.flat, exec_flatten hs g, Grid.flat_length hrect,
    fun i j hi hj => ⟨Grid.flat_get hrect i hj, Grid.at_isSome hrect hi hj⟩, rfl⟩

/-- Settles O46: the operation's flow is the raise alone, whatever the operands. -/
theorem rotateAlwaysFails : Obligations.RotateAlwaysFails :=
  fun _ a g hs => ⟨exec_rotate hs a g, rfl⟩

end Sys2Proof.Machine
end

section
/-! PROOF. Decoding (spec/30_encoding.md R76, R77, R80, R87): the round trip of encoder and decoder from the family of one
law an instruction, the words of the opcode table, and what a step makes of the bytes presented on the port. -/

namespace Sys2Proof

/-- Settles O10: the round trip of each instruction is the law of its constructor. -/
theorem decodeInvertsEncode : Obligations.DecodeInvertsEncode := by
  intro i
  cases i with
  | initializeDriver => exact Laws.RoundTrip.initializeDriver
  | writeCommand bytes => exact Laws.RoundTrip.writeCommand bytes
  | writeData bytes => exact Laws.RoundTrip.writeData bytes
  | resetDisplay => exact Laws.RoundTrip.resetDisplay
  | setResolution => exact Laws.RoundTrip.setResolution
  | flush pk => exact Laws.RoundTrip.flush pk
  | waitForReady r T => exact Laws.RoundTrip.waitForReady r T
  | setPixel x y c => exact Laws.RoundTrip.setPixel x y c
  | getPixels => exact Laws.RoundTrip.getPixels
  | render => exact Laws.RoundTrip.render
  | fromByte b => exact Laws.RoundTrip.fromByte b
  | toByte c => exact Laws.RoundTrip.toByte c
  | dispatch c h => exact Laws.RoundTrip.dispatch c h
  | flatten g => exact Laws.RoundTrip.flatten g
  | mirrorColumns g => exact Laws.RoundTrip.mirrorColumns g
  | mirrorRows g => exact Laws.RoundTrip.mirrorRows g
  | rotate a g => exact Laws.RoundTrip.rotate a g
  | cmdPanelSetting => exact Laws.RoundTrip.cmdPanelSetting
  | cmdPowerSetting => exact Laws.RoundTrip.cmdPowerSetting
  | cmdPowerOffSeq => exact Laws.RoundTrip.cmdPowerOffSeq
  | cmdPowerOn => exact Laws.RoundTrip.cmdPowerOn
  | cmdImageTransfer pk => exact Laws.RoundTrip.cmdImageTransfer pk
  | cmdPll => exact Laws.RoundTrip.cmdPll
  | cmdTse => exact Laws.RoundTrip.cmdTse
  | cmdVcomDataInterval => exact Laws.RoundTrip.cmdVcomDataInterval
  | cmdNonOverlap => exact Laws.RoundTrip.cmdNonOverlap
  | cmdResolution => exact Laws.RoundTrip.cmdResolution
  | cmdFlashDisable => exact Laws.RoundTrip.cmdFlashDisable
  | cmdSevenColour => exact Laws.RoundTrip.cmdSevenColour

/-- Settles O9: fixed words, run through the decoder. -/
theorem tableWordsDecode : Obligations.TableWordsDecode := by
  unfold Obligations.TableWordsDecode
  decide

/-- A selector above 0x10 names no operation, whatever bytes follow it (R81, U10). -/
theorem decodeOp_unknownSelector {sel : Byte} (h : 0x10 < sel.toNat) (ops : List Byte) :
    decodeOp (sel :: ops) = .error (.noSuchSelector sel) := by
  have hsel : decodeOperands sel.toNat ops = .error (.noSuchSelector sel) := by
    unfold decodeOperands
    split
    case h_18 => rw [BitVec.ofNat_toNat, BitVec.setWidth_eq]
    all_goals omega
  simp [decodeOp, decodeHop, hsel]

end Sys2Proof

namespace Sys2Proof.Machine

/-- A step of an Idle engine runs the operation its decoder reads from the bytes presented. -/
theorem step_of_decodes {s : State} {bs : List Byte} {rest : List (List Byte)} {i : Instr} (hc : s.cfg.legal = true)
    (hs : s.seq = []) (hp : s.port = bs :: rest) (hd : decodeOp bs = .ok i) :
    step s = exec i { s with port := rest } := by
  simp [step, hc, hs, stepPort, hp, hd]

/-- A step of an Idle engine refuses the bytes presented where its decoder rejects them. -/
theorem step_of_rejected {s : State} {bs : List Byte} {rest : List (List Byte)} {r : Reject} (hc : s.cfg.legal = true)
    (hs : s.seq = []) (hp : s.port = bs :: rest) (hd : decodeOp bs = .error r) :
    step s = .refused (.undecodable r) := by
  simp [step, hc, hs, stepPort, hp, hd]

/-- Settles O2: the decoder of the port is the host operations' one. -/
theorem stepRunsThePresentedOperation : Obligations.StepRunsThePresentedOperation :=
  fun _ _ _ _ hc hs hp hdec _ => step_of_decodes hc hs hp hdec

/-- Settles O5: the decoder rejects the selector, and the step refuses what the decoder rejects. -/
theorem unknownSelectorsAreRefused : Obligations.UnknownSelectorsAreRefused :=
  fun _ _ ops _ hc hs hp hsel => step_of_rejected hc hs hp (decodeOp_unknownSelector hsel ops)

end Sys2Proof.Machine
end

section
/-! PROOF. What every step keeps (spec/10_state.md R32; spec/20_memory.md R50): a step from an Idle state is a whole
instruction or nothing, and what each instruction keeps the step keeps. -/

namespace Sys2Proof.Machine

/-- A step of an Idle engine waits, or takes one operation from the port and runs it whole (R29, R271). -/
theorem step_next_of_idle {s t : State} (hs : s.seq = []) (h : step s = .next t) :
    t = s ∨ ∃ bs rest i, s.port = bs :: rest ∧ decodeOp bs = .ok i ∧ exec i { s with port := rest } = .next t := by
  obtain ⟨-, hwait | ⟨bs, rest, i, -, hp, hd, he⟩ | ⟨p, rest, i, u, hseq, -⟩ | ⟨p, rest, hseq, -⟩⟩ := step_next h
  · exact .inl hwait.2.2
  · exact .inr ⟨bs, rest, i, hp, hd, he⟩
  · exact absurd (hs.symm.trans hseq) (List.cons_ne_nil p rest).symm
  · exact absurd (hs.symm.trans hseq) (List.cons_ne_nil p rest).symm

/-- A boundary does not depend on what the host presents. -/
theorem Boundary.withPort {s : State} (h : Boundary s) (port : List (List Byte)) : Boundary { s with port := port } :=
  ⟨⟨h.idle.seq, h.idle.bw⟩, h.cells, h.openPins, h.closedPins, h.csHigh, h.rstHigh, h.undriven⟩

/-- Every step only appends to TRACE (R27). -/
theorem step_extends_trace {s t : State} (h : step s = .next t) : s.trace <+: t.trace := by
  obtain ⟨es, htrace, -⟩ := (step_moved h).1.events
  exact ⟨es, htrace.symm⟩

/-- Settles O55: nothing has been written, opened or sent. -/
theorem resetIsABoundary : Obligations.ResetIsABoundary := by
  refine ⟨⟨⟨rfl, rfl⟩, reset_cells_wf, ?_, fun _ => rfl, ?_, ?_, fun _ => rfl⟩, rfl, rfl, reset_cfg_legal⟩ <;>
    exact fun hinit => Bool.noConfusion hinit

/-- Settles O56: a step from a boundary is a whole instruction, which ends at a boundary. -/
theorem everyStepKeepsTheBoundary : Obligations.EveryStepKeepsTheBoundary := by
  intro s t hs h
  refine ⟨?_, step_extends_trace h⟩
  rcases step_next_of_idle hs.idle.seq h with rfl | ⟨bs, rest, i, -, -, he⟩
  · exact hs
  · exact exec_boundary (hs.withPort rest) he

/-- Settles O57: a step from a boundary is a whole instruction, which appends whole frames. -/
theorem everyStepKeepsTheFramesWhole : Obligations.EveryStepKeepsTheFramesWhole := by
  intro s t hs hframed h
  rcases step_next_of_idle hs.idle.seq h with rfl | ⟨bs, rest, i, -, -, he⟩
  · exact hframed
  · obtain ⟨es, htrace, hes⟩ := exec_wellFramed he
    rw [htrace]
    exact wellFramed_append hframed hes

/-- Pins that match TRACE still do after a move, which makes of them what its own events make of them. -/
theorem PinsMatchTrace.of_moved {s t : State} (hs : PinsMatchTrace s) (h : Moved s t) : PinsMatchTrace t := by
  obtain ⟨es, htrace, hpins⟩ := h.events
  rw [PinsMatchTrace, htrace, pinsAfter_append, hs, hpins]

/-- Settles O58: a step is a move, the port and the cell store apart, and those say nothing of the pins. -/
theorem everyStepKeepsThePinsInStepWithTheTrace : Obligations.EveryStepKeepsThePinsInStepWithTheTrace :=
  fun s t hs h => hs.of_moved (t := { t with fb := s.fb, port := s.port }) (step_moved h).1

/-- Settles O59: a step is a move, but for the cell store, whose form SET_PIXEL keeps. -/
theorem everyStepKeepsTheStoreAndExtendsTheTrace : Obligations.EveryStepKeepsTheStoreAndExtendsTheTrace := by
  intro s t hwf h
  obtain ⟨hmoved, hcells, -⟩ := step_moved h
  exact ⟨hcells hwf, hmoved.cfg, hmoved.init, step_extends_trace h⟩

/-- Settles O8: the port is read by an Idle engine only. -/
theorem stepsInsideAnOperationLeaveThePort : Obligations.StepsInsideAnOperationLeaveThePort :=
  fun _ _ hs h => (step_moved h).2.2 hs

/-- Settles O7: every host operation checks the port first. -/
theorem thePortIsClosedWhileAnOperationRuns : Obligations.ThePortIsClosedWhileAnOperationRuns :=
  fun _ _ hi hs => exec_portBusy hi hs

/-- Settles O1: the reset values, field by field. -/
theorem resetLeavesAnIdleUninitializedEngine : Obligations.ResetLeavesAnIdleUninitializedEngine := by
  intro c
  refine ⟨fun x y => rfl, rfl, rfl, fun r => ?_, fun r => ?_, rfl, rfl, rfl⟩
  · cases r <;> rfl
  · cases r <;> rfl

end Sys2Proof.Machine
end

section
/-! PROOF. Refusals (spec/10_state.md R17; spec/41_busywaiter.md R110; spec/43_protocol_sequences.md R156): which instructions
are refused and for what, and that no refusal but the step's own speaks of the configuration. -/

namespace Sys2Proof.Machine

/-- A packed image of another length is none (R156). -/
theorem isImage_eq_false {pk : List Byte} (h : pk.length ≠ 134400) : isImage pk = false :=
  Bool.eq_false_iff.mpr fun himage => h ((isImage_iff pk).mp himage)

/-- FLUSH of an image of another length is refused (R156). -/
theorem exec_flush_refused {s : State} (hs : s.seq = []) {pk : List Byte} (h : pk.length ≠ 134400) :
    exec (.flush pk) s = .refused (.imageLength pk.length) := by
  simp [exec, execFlush, onPort_idle hs, isImage_eq_false h]

/-- The image transfer of an image of another length is refused (log entry 17). -/
theorem exec_cmdImageTransfer_refused (s : State) {pk : List Byte} (h : pk.length ≠ 134400) :
    exec (.cmdImageTransfer pk) s = .refused (.imageLength pk.length) := by
  simp [exec, execCmdImageTransfer, isImage_eq_false h]

/-- A wait on another role, or on a pin not open as input, is refused (R110, R81). -/
theorem exec_waitForReady_refused {s : State} (hs : s.seq = []) {r : Role} (T : Nat)
    (h : r ≠ .busy ∨ s.pinState.busy ≠ .openIn) : exec (.waitForReady r T) s = .refused (.waitOnPin r) := by
  have hpin : ¬(r = .busy ∧ s.pinState.get r = .openIn) := by
    rintro ⟨rfl, hopen⟩
    exact h.elim (fun hr => hr rfl) fun hp => hp hopen
  simp only [exec, execWaitForReady, onPort_idle hs, if_neg hpin]

/-- The host operations without a flow: FLUSH of another length and a wait on another pin. -/
theorem opFlow_eq_none {i : Instr} (hi : isHostOp i = true) {s : State} (h : opFlow i s = none) :
    (∃ pk, i = .flush pk ∧ pk.length ≠ 134400) ∨
      ∃ r T, i = .waitForReady r T ∧ (r ≠ .busy ∨ s.pinState.busy ≠ .openIn) := by
  cases i with
  | flush pk =>
    refine .inl ⟨pk, rfl, fun hlen => ?_⟩
    simp [opFlow, (isImage_iff pk).mpr hlen] at h
  | waitForReady r T =>
    refine .inr ⟨r, T, rfl, ?_⟩
    by_contra hpin
    simp only [not_or, not_not] at hpin
    obtain ⟨rfl, hopen⟩ := hpin
    simp [opFlow, PinModes.get, hopen] at h
  | setPixel x y c => simp only [opFlow] at h; split at h <;> cases h
  | fromByte b => simp only [opFlow] at h; split at h <;> cases h
  | initializeDriver | writeCommand | writeData | resetDisplay | setResolution | getPixels | render | toByte | dispatch
  | flatten | mirrorColumns | mirrorRows | rotate => cases h
  | cmdPanelSetting | cmdPowerSetting | cmdPowerOffSeq | cmdPowerOn | cmdImageTransfer | cmdPll | cmdTse
  | cmdVcomDataInterval | cmdNonOverlap | cmdResolution | cmdFlashDisable | cmdSevenColour => cases hi

/-- The wire commands without a flow: the image transfer of another length. -/
theorem wireFlow_eq_none {i : Instr} (hi : isHostOp i = false) {s : State} (h : wireFlow i s = none) :
    ∃ pk, i = .cmdImageTransfer pk ∧ pk.length ≠ 134400 := by
  cases i with
  | cmdImageTransfer pk =>
    refine ⟨pk, rfl, fun hlen => ?_⟩
    simp [wireFlow, (isImage_iff pk).mpr hlen] at h
  | cmdPanelSetting | cmdPowerSetting | cmdPowerOffSeq | cmdPowerOn | cmdPll | cmdTse | cmdVcomDataInterval
  | cmdNonOverlap | cmdResolution | cmdFlashDisable | cmdSevenColour => cases h
  | initializeDriver | writeCommand | writeData | resetDisplay | setResolution | flush | waitForReady | setPixel
  | getPixels | render | fromByte | toByte | dispatch | flatten | mirrorColumns | mirrorRows | rotate => cases hi

/-- No instruction is refused for the configuration. -/
theorem exec_ne_badConfiguration (i : Instr) (s : State) : exec i s ≠ .refused .badConfiguration := by
  cases hi : isHostOp i with
  | true =>
    by_cases hs : s.seq = []
    · cases hf : opFlow i s with
      | some p => simp [exec_opFlow hs hf]
      | none =>
        rcases opFlow_eq_none hi hf with ⟨pk, rfl, hlen⟩ | ⟨r, T, rfl, hpin⟩
        · simp [exec_flush_refused hs hlen]
        · simp [exec_waitForReady_refused hs T hpin]
    · simp [exec_portBusy hi hs]
  | false =>
    cases hf : wireFlow i s with
    | some f => simp [exec_wireFlow hf]
    | none =>
      obtain ⟨pk, rfl, hlen⟩ := wireFlow_eq_none hi hf
      simp [exec_cmdImageTransfer_refused s hlen]

/-- Nor is a step of an engine whose configuration is legal. -/
theorem step_ne_badConfiguration {s : State} (hc : s.cfg.legal = true) : step s ≠ .refused .badConfiguration := by
  rw [step, if_pos hc]
  split
  · unfold stepPort
    split
    · simp
    · split
      · exact exec_ne_badConfiguration _ _
      · simp
  · split
    · next p rest _ i _ =>
      intro h
      unfold afterCommand at h
      split at h
      · split at h <;> cases h
      · cases h
      · next r hr =>
        obtain rfl : r = .badConfiguration := by simpa using h
        exact exec_ne_badConfiguration i s hr
    · simp

/-- The configurations the engine cannot have (R7, R17). -/
theorem legal_eq_false_iff (c : Cfg) :
    c.legal = false ↔
      c.pollIntervalMs = 0 ∨ c.pinCs = c.pinDc ∨ c.pinCs = c.pinRst ∨ c.pinCs = c.pinBusy ∨ c.pinDc = c.pinRst ∨
        c.pinDc = c.pinBusy ∨ c.pinRst = c.pinBusy := by
  simp only [Cfg.legal, Bool.and_eq_false_iff, decide_eq_false_iff_not, not_not, Nat.not_lt, Nat.le_zero, or_assoc,
    ne_eq]

/-- Settles O6: the step refuses an illegal configuration first, and nothing else refuses by that name. -/
theorem illegalConfigurationsTakeNoStep : Obligations.IllegalConfigurationsTakeNoStep := by
  intro s
  rw [← legal_eq_false_iff]
  constructor
  · intro hc
    simp [step, hc]
  · intro h
    by_contra hc
    exact step_ne_badConfiguration (by simpa using hc) h

/-- Settles O17: the check of role and pin stands before the wait. -/
theorem waitOnAnotherPinIsRefused : Obligations.WaitOnAnotherPinIsRefused :=
  fun _ _ T hs h => exec_waitForReady_refused hs T h

/-- Settles O31: the length is checked before anything runs. -/
theorem flushRefusesAnotherLength : Obligations.FlushRefusesAnotherLength :=
  fun _ _ hs h => exec_flush_refused hs h

end Sys2Proof.Machine
end

section
/-! PROOF. Operations that only compute a value (spec/40_displaycolor.md R100 to R103; spec/44_framebuffer.md R192), and the
errors' codes and messages (spec/60_exceptions.md R230, R232). -/

namespace Sys2Proof.Machine

/-- Settles O11: the operation's value is the colour's byte, and the list is that of the bytes. -/
theorem toByteReturnsTheListedByte : Obligations.ToByteReturnsTheListedByte := by
  intro s c b hs hlist
  have hbyte : c.toByte = b := by
    simp only [List.mem_cons, Prod.mk.injEq, List.not_mem_nil, or_false] at hlist
    rcases hlist with ⟨rfl, rfl⟩ | ⟨rfl, rfl⟩ | ⟨rfl, rfl⟩ | ⟨rfl, rfl⟩ | ⟨rfl, rfl⟩ | ⟨rfl, rfl⟩ | ⟨rfl, rfl⟩ |
      ⟨rfl, rfl⟩ <;> rfl
  rw [← hbyte]
  exact ⟨exec_of_opFlow_ok hs rfl, rfl⟩

/-- Settles O13: the index is the colour's code, and the result that of the handler of the code. -/
theorem dispatchRunsTheMatchingHandler : Obligations.DispatchRunsTheMatchingHandler := by
  intro s c h k v hs hlist
  have hrun : c.code.toNat = k ∧ h.result c = v := by
    simp only [List.mem_cons, Prod.mk.injEq, List.not_mem_nil, or_false] at hlist
    rcases hlist with ⟨rfl, rfl, rfl⟩ | ⟨rfl, rfl, rfl⟩ | ⟨rfl, rfl, rfl⟩ | ⟨rfl, rfl, rfl⟩ | ⟨rfl, rfl, rfl⟩ |
      ⟨rfl, rfl, rfl⟩ | ⟨rfl, rfl, rfl⟩ | ⟨rfl, rfl, rfl⟩ <;> exact ⟨rfl, rfl⟩
  rw [← hrun.1, ← hrun.2]
  exact exec_of_opFlow_ok hs rfl

/-- Settles O37: the value is the store itself. -/
theorem getPixelsReturnsTheGrid : Obligations.GetPixelsReturnsTheGrid :=
  fun s hs => ⟨s.fb, exec_of_opFlow_ok hs rfl, fun _ _ _ _ => rfl, rfl⟩

/-- Settles O47: fixed texts, and timeouts that are whole hundredths of a second. -/
theorem errorCodesAndMessages : Obligations.ErrorCodesAndMessages :=
  ⟨fun _ => rfl, rfl, rfl, fun _ _ => rfl, fun _ => rfl, rfl, rfl, rfl, by decide, by decide, by decide, by decide,
    by decide, by decide, by decide⟩

end Sys2Proof.Machine
end

section
/-! PROOF. SET_PIXEL twice (spec/20_memory.md R51): the canonical store is determined by what it reads, so that a second
write of the same cell leaves it. -/

namespace Sys2Proof.Machine

/-- Writing a key of the grid twice is writing it once. -/
theorem Memory.set_set {m : Memory} (h : Memory.wf m = true) {k : Nat} (hk : k < nCells) (c : Color) :
    Memory.set (Memory.set m k c) k c = Memory.set m k c := by
  have hset : Memory.wf (Memory.set m k c) = true := Memory.wf_set h hk
  refine Memory.wfFrom_ext (Memory.wf_set hset hk) hset fun k' => ?_
  rw [Memory.get_set hset, Memory.get_set h]
  split
  · rfl
  · rfl

/-- Settles O36: a write of a cell is idempotent on the store, and a bounds error leaves the state but for its result. -/
theorem setPixelIsIdempotent : Obligations.SetPixelIsIdempotent := by
  intro s t u x y c hs hwf ht hu
  have htidle : Idle t := exec_idle hs ht
  cases hb : boundsError x y with
  | some e =>
    rw [exec_setPixel_raise hs c hb] at ht
    rw [exec_setPixel_raise htidle c hb] at hu
    obtain rfl := Host.Outcome.next.inj ht
    exact (Host.Outcome.next.inj hu).symm
  | none =>
    obtain ⟨hx, hy⟩ := boundsError_none hb
    rw [exec_setPixel_write hs c hb] at ht
    rw [exec_setPixel_write htidle c hb] at hu
    obtain rfl := Host.Outcome.next.inj ht
    rw [Memory.set_set hwf (cellKey_lt hx hy)] at hu
    exact (Host.Outcome.next.inj hu).symm

end Sys2Proof.Machine
end

section
/-! PROOF. The packed image (spec/44_framebuffer.md R199, R201, R202): the flattened transform in closed form, the packed
bytes as pairs of its cells, and where each cell of the grid lands. -/

namespace Sys2Proof.Machine

/-- Cell `k` of the flattened transform, in the closed forms of the spec (R201). -/
def flatCell (c : Cfg) (m : Memory) (k : Nat) : Color :=
  match c.hflip, c.vflip with
  | false, false => cell m (k / 448) (k % 448)
  | true, false => cell m (k % 600) (447 - k / 600)
  | false, true => cell m (599 - k % 600) (k / 600)
  | true, true => cell m (599 - k / 448) (447 - k % 448)

/-- The flattened transform is those cells. -/
theorem transform_flat_get (c : Cfg) (m : Memory) {k : Nat} (hk : k < 268800) :
    (transform c m).flat[k]? = some (flatCell c m k) := by
  have hk' : k < gridW * gridH := by rwa [gridW_eq, gridH_eq]
  rw [transform, orient_flat c.hflip c.vflip (cell m) hk', flatCell]
  cases c.hflip <;> cases c.vflip <;> rfl

/-- Byte `k` of the packed image is the flattened cells `2 k` and `2 k + 1` (R199). -/
theorem renderImage_get (c : Cfg) (m : Memory) {k : Nat} (hk : k < 134400) :
    (renderImage c m)[k]? = some (pixByte (flatCell c m (2 * k)) (flatCell c m (2 * k + 1))) :=
  pack_get _ k (transform_flat_get c m (by omega)) (transform_flat_get c m (by omega))

/-- Settles O39: the closed forms are the flattened cells, and a packed byte is 16 times one code plus the next. -/
theorem thePackedImageIsTheFlattenedGrid : Obligations.ThePackedImageIsTheFlattenedGrid := by
  intro c m f hf
  have hcell : ∀ k, f k = flatCell c m k := hf
  refine ⟨renderImage_length c m, fun k hk => ?_⟩
  rw [renderImage_get c m hk, pixByte_eq, hcell, hcell]

/-- The index of cell (x, y) in the flattened transform (R202). -/
def flatIndex (c : Cfg) (x y : Nat) : Nat :=
  match c.hflip, c.vflip with
  | false, false => 448 * x + y
  | true, false => 600 * (447 - y) + x
  | false, true => 600 * y + (599 - x)
  | true, true => 448 * (599 - x) + (447 - y)

/-- The index is one of the flattened sequence. -/
theorem flatIndex_lt (c : Cfg) {x y : Nat} (hx : x < 600) (hy : y < 448) : flatIndex c x y < 268800 := by
  unfold flatIndex
  split <;> omega

/-- The cell of the grid stands at its index (R202). -/
theorem flatCell_flatIndex (c : Cfg) (m : Memory) {x y : Nat} (hx : x < 600) (hy : y < 448) :
    flatCell c m (flatIndex c x y) = cell m x y := by
  unfold flatCell flatIndex
  cases c.hflip <;> cases c.vflip <;> dsimp only <;> congr 1 <;> omega

/-- Settles O40: an even index is the first cell of its byte, an odd one the second. -/
theorem everyCellLandsWhereTheTableSays : Obligations.EveryCellLandsWhereTheTableSays := by
  intro c m x y k hx hy hk
  have hk : k = flatIndex c x y := hk
  have hlt : k < 268800 := hk ▸ flatIndex_lt c hx hy
  have hcell : flatCell c m k = cell m x y := hk ▸ flatCell_flatIndex c m hx hy
  refine ⟨_, renderImage_get c m (by omega), fun heven => ?_, fun hodd => ?_⟩
  · rw [pixByte_high, show 2 * (k / 2) = k by omega, hcell]
  · rw [pixByte_low, show 2 * (k / 2) + 1 = k by omega, hcell]

end Sys2Proof.Machine
end

section
/-! PROOF. The mirrors (spec/45_array2dops.md R221, R222; spec/44_framebuffer.md R197): MIRROR_COLUMNS and MIRROR_ROWS element
by element, and the orientation transforms as mirrors of the grid and of its transpose. -/

namespace Sys2Proof.Machine

/-- Settles O44: each operation returns the mirror of its operand. -/
theorem theMirrorsReverseTheirIndex : Obligations.TheMirrorsReverseTheirIndex := by
  intro s g hs hrect
  refine ⟨g.mirrorCols, g.mirrorRows, exec_of_opFlow_ok hs rfl, exec_of_opFlow_ok hs rfl,
    Grid.mirrorCols_rect hrect, rfl, List.length_map _, Grid.mirrorRows_rect hrect, rfl, List.length_reverse,
    fun i j hi hj => ⟨Grid.mirrorCols_at hrect hi hj, Grid.mirrorRows_at j hi⟩⟩

/-- Settles O45: each transform is a built array, and so is each mirror of one. -/
theorem theTransformsAreMirrors : Obligations.TheTransformsAreMirrors := by
  intro c m
  have hplain : transform { c with hflip := false, vflip := false } m = Grid.build 600 448 (cell m) := rfl
  rw [hplain, Grid.build_mirrorCols, Grid.build_mirrorRows, Grid.build_mirrorRows, Grid.build_mirrorCols,
    Grid.build_mirrorRows, Grid.build_mirrorCols]
  exact ⟨rfl, rfl, rfl, rfl⟩

end Sys2Proof.Machine
end

section
/-! PROOF. The wire commands (spec/43_protocol_sequences.md R160 to R171; spec/42_protocol_frames.md R133): their frames in
each mode, and a step at a position of SEQ that sends one (spec/10_state.md R24). -/

namespace Sys2Proof.Machine

/-- A wire command whose flow sends frames leaves their events and the levels of CS and DC, and nothing else. -/
theorem exec_of_wireFlow_sent {i : Instr} {s : State} {es : List Event} {dc : Level}
    (h : wireFlow i s = some (.ok (sent es dc s))) : exec i s = .next (sent es dc s) :=
  exec_wireFlow h

/-- Settles O24: each of the ten is one register write of its row. -/
theorem registerCommandsAreTwoFrames : Obligations.RegisterCommandsAreTwoFrames := by
  intro s i c p hi hlist
  have hrow : wireFlow i s = some (regWrite c p s) ∧ p ≠ [] := by
    simp only [List.mem_cons, Prod.mk.injEq, List.not_mem_nil, or_false] at hlist
    rcases hlist with ⟨rfl, rfl, rfl⟩ | ⟨rfl, rfl, rfl⟩ | ⟨rfl, rfl, rfl⟩ | ⟨rfl, rfl, rfl⟩ | ⟨rfl, rfl, rfl⟩ |
      ⟨rfl, rfl, rfl⟩ | ⟨rfl, rfl, rfl⟩ | ⟨rfl, rfl, rfl⟩ | ⟨rfl, rfl, rfl⟩ | ⟨rfl, rfl, rfl⟩ <;>
      exact ⟨rfl, List.cons_ne_nil _ _⟩
  obtain ⟨hflow, hp⟩ := hrow
  rw [regWrite_sent hp hi] at hflow
  exact exec_of_wireFlow_sent hflow

/-- The power command of an initialized engine runs one command frame (R163). -/
theorem wireFlow_cmdPowerOn {s : State} (hi : s.init = true) :
    wireFlow .cmdPowerOn s = some (.ok (sent (cmdF [0x04]) .low s)) :=
  congrArg some (frame_sent (List.cons_ne_nil _ _) hi)

/-- The image transfer of an initialized engine runs one register write (R164). -/
theorem wireFlow_cmdImageTransfer {s : State} (hi : s.init = true) {pk : List Byte} (hpk : isImage pk = true) :
    wireFlow (.cmdImageTransfer pk) s = some (.ok (sent (regW 0x10 pk) .high s)) := by
  rw [wireFlow, if_pos hpk, regWrite_sent (isImage_ne_nil hpk) hi]

/-- Settles O25: the command's flow is the one frame. -/
theorem powerOnIsOneCommandFrame : Obligations.PowerOnIsOneCommandFrame :=
  fun _ hi => exec_of_wireFlow_sent (wireFlow_cmdPowerOn hi)

/-- Settles O26: the command's flow is the register write of the image, where the length is right. -/
theorem imageTransferSendsTheWholeImage : Obligations.ImageTransferSendsTheWholeImage :=
  fun s pk hi => ⟨fun hlen => exec_of_wireFlow_sent (wireFlow_cmdImageTransfer hi ((isImage_iff pk).mpr hlen)),
    exec_cmdImageTransfer_refused s⟩

/-- The flow of a wire command of an uninitialized engine raises at its first frame (R133). -/
theorem wireFlow_uninitialized {i : Instr} {s : State} (hi : s.init = false) {f : Flow} (h : wireFlow i s = some f) :
    f = .raise .protocolState s := by
  cases i <;> simp only [wireFlow, reduceCtorEq] at h
  case cmdPowerOn => rw [← Option.some.inj h, frame_uninitialized (List.cons_ne_nil _ _) hi]
  case cmdImageTransfer pk =>
    split at h
    · rw [← Option.some.inj h, regWrite_uninitialized hi]
    · cases h
  all_goals rw [← Option.some.inj h, regWrite_uninitialized hi]

/-- Settles O27: the flow raises, and the error is taken. -/
theorem wireCommandsNeedAnInitializedEngine : Obligations.WireCommandsNeedAnInitializedEngine := by
  intro s i hinit hwf hwire
  cases hf : wireFlow i s with
  | none =>
    obtain ⟨pk, rfl, hlen⟩ := wireFlow_eq_none hwire hf
    exact absurd ((isImage_iff pk).mp hwf) hlen
  | some f =>
    rw [exec_wireFlow hf, wireFlow_uninitialized hinit hf]
    rfl

/-! ### Steps at the positions of SEQ -/

/-- A step at a position whose wire command sends frames runs them all, and SEQ moves past them (log entry 8). -/
theorem step_sends {s : State} {p : Pos} {rest : List Pos} {i : Instr} {es : List Event} {dc : Level}
    (hc : s.cfg.legal = true) (hs : s.seq = p :: rest) (hw : wireAt p = some i)
    (hf : wireFlow i s = some (.ok (sent es dc s))) :
    step s = .next { sent es dc s with seq := afterWire p :: rest } := by
  rw [step, if_pos hc]
  simp [hs, hw, exec_of_wireFlow_sent hf, afterCommand]

/-- A step at a position that sends no wire command is a move of SEQ (R24). -/
theorem step_moves {s : State} {p : Pos} {rest : List Pos} (hc : s.cfg.legal = true) (hs : s.seq = p :: rest)
    (hw : wireAt p = none) : step s = .next (tick s) := by
  rw [step, if_pos hc]
  simp [hs, hw]

/-- The wire command at a position of the register sequence writes the position's row (R151). -/
theorem wireAt_regSeq (k : Fin 10) :
    ∃ i, wireAt (.regSeq k 0) = some i ∧
      ∀ s, wireFlow i s = some (regWrite (regSeqRow k).1 (regSeqRow k).2 s) := by
  fin_cases k <;> exact ⟨_, rfl, fun _ => rfl⟩

/-- No row of the register sequence has an empty payload. -/
theorem regSeqRow_ne_nil (k : Fin 10) : (regSeqRow k).2 ≠ [] := by
  fin_cases k <;> exact List.cons_ne_nil _ _

/-- A step at a position of the register sequence of an initialized engine (R24, R151). -/
theorem step_regSeq {s : State} {k : Fin 10} {rest : List Pos} (hc : s.cfg.legal = true) (hi : s.init = true)
    (hs : s.seq = .regSeq k 0 :: rest) :
    step s = .next { sent (regW (regSeqRow k).1 (regSeqRow k).2) .high s with seq := .regSeq k 2 :: rest } := by
  obtain ⟨i, hw, hf⟩ := wireAt_regSeq k
  exact step_sends hc hs hw ((hf s).trans (congrArg some (regWrite_sent (regSeqRow_ne_nil k) hi)))

/-- Leaving a position resumes the outer ones. -/
theorem leave_seq (v : Value) (rest : List Pos) (s : State) : (leave v rest s).seq = rest := by
  cases rest <;> rfl

/-- Settles O3: the step sends the position's row, and the step after leaves for the next row, or the sequence. -/
theorem stepAtARegisterPositionSendsThatWrite : Obligations.StepAtARegisterPositionSendsThatWrite := by
  intro s k c p rest hc hi hs hrow
  obtain ⟨rfl, rfl⟩ : (regSeqRow k).1 = c ∧ (regSeqRow k).2 = p := by
    have hget : regSeqRows[k.val]? = some (c, p) := hrow
    simp [regSeqRow, List.getD_eq_getElem?_getD, hget]
  refine ⟨_, step_regSeq hc hi hs, step_moves hc rfl rfl, fun hk => ?_, fun hk => ?_⟩
  · exact (leave_seq _ _ _).trans (by rw [nextReg, dif_pos hk]; rfl)
  · exact (leave_seq _ _ _).trans (by rw [nextReg, dif_neg (by omega)]; rfl)

/-- Settles O4: each of the five positions holds its wire command. -/
theorem stepAtACommandPositionSendsThatCommand : Obligations.StepAtACommandPositionSendsThatCommand := by
  intro s pk p p' es dc rest hc hi hlen hs hlist
  have hpk : isImage pk = true := (isImage_iff pk).mpr hlen
  simp only [List.mem_cons, Prod.mk.injEq, List.not_mem_nil, or_false] at hlist
  rcases hlist with ⟨rfl, rfl, rfl, rfl⟩ | ⟨rfl, rfl, rfl, rfl⟩ | ⟨rfl, rfl, rfl, rfl⟩ | ⟨rfl, rfl, rfl, rfl⟩ |
    ⟨rfl, rfl, rfl, rfl⟩
  · exact step_sends hc hs rfl (congrArg some (regWrite_sent (List.cons_ne_nil _ _) hi))
  · exact step_sends hc hs rfl (wireFlow_cmdImageTransfer hi hpk)
  · exact step_sends hc hs rfl (wireFlow_cmdPowerOn hi)
  · exact step_sends hc hs rfl (wireFlow_cmdPowerOn hi)
  · exact step_sends hc hs rfl (wireFlow_cmdPowerOn hi)

end Sys2Proof.Machine
end

section
/-! PROOF. WAIT_FOR_READY for every course of BUSY (spec/41_busywaiter.md R110 to R114): the instruction given how many
samples its wait takes, its bound, and the sample counts of the reference timing. -/

namespace Sys2Proof.Machine

/-- The result of a wait whose last sample reads `l`. -/
def waitResult (T : Nat) (l : Level) : Result := if l = .high then .ok .none else .err (.timeout T)

/-- An operation that ends as a wait does. -/
theorem ended_waitEnd (T n : Nat) (l : Level) (s : State) :
    ended .none (waitEnd T n l s) = { waited n l s with seq := [], result := some (waitResult T l) } := by
  cases l <;> rfl

/-- WAIT_FOR_READY on an open BUSY pin of an Idle engine, where its wait takes `n + 1` samples. -/
theorem exec_waitForReady_takes {s : State} (hs : Idle s) (hp : s.pinState.busy = .openIn)
    (hpos : 0 < s.cfg.pollIntervalMs) {T n : Nat} {l : Level} (h : WaitTakes s T n l) :
    exec (.waitForReady .busy T) s =
      .next { s with
        trace := s.trace ++ waitEvents s.cfg.pollIntervalMs n l
        busy := s.busy.drop (n + 1)
        samples := s.samples + (n + 1)
        result := some (waitResult T l) } := by
  rw [exec_waitForReady_busy hs.seq hp, waitReady_eq hpos h, ended_waitEnd]
  simp [waited, hs.seq, hs.bw]

/-- Settles O16: every wait takes some number of samples, and the number is bounded. -/
theorem everyWaitIsBoundedAndAlternating : Obligations.EveryWaitIsBoundedAndAlternating := by
  intro s T hs hp hpos
  obtain ⟨n, l, -, h, -⟩ := waitTakes_exists s T hpos
  refine ⟨n, l, h.le_ceil hpos, ?_, exec_waitForReady_takes hs hp hpos h⟩
  rintro rfl hT
  exact h.pos_of_low hT

/-- Samples on time are a polling interval apart. -/
theorem elapsedAt_of_onTime {s : State} {n : Nat} (h : ∀ k, k < n → (sampleAt s k).lateMs = 0) :
    elapsedAt s n = n * s.cfg.pollIntervalMs := by
  induction n with
  | zero => simp [elapsedAt]
  | succ n ih =>
    have hlast : (sampleAt s n).lateMs = 0 := h n (Nat.lt_succ_self n)
    rw [elapsedAt, ih fun k hk => h k (Nat.lt_succ_of_lt hk), hlast, Nat.add_zero, Nat.succ_mul]

/-- The samples of a pin that reads low `n` times, on time, and then `x`. -/
theorem sampleAt_of_lows {s : State} {n : Nat} {x : Sample} {rest : List Sample}
    (hb : s.busy = List.replicate n { level := .low, lateMs := 0 } ++ x :: rest) :
    (∀ k, k < n → sampleAt s k = { level := .low, lateMs := 0 }) ∧ sampleAt s n = x := by
  constructor
  · intro k hk
    simp [sampleAt, hb, List.getElem?_append, hk]
  · simp [sampleAt, hb]

/-- A wait takes `n + 1` samples where its pin reads low `n` times, on time and before the deadline, and then a sample
that ends it. -/
theorem waitTakes_of_lows {s : State} {T n : Nat} {x : Sample} {rest : List Sample}
    (hb : s.busy = List.replicate n { level := .low, lateMs := 0 } ++ x :: rest)
    (hbefore : ∀ k, k < n → k * s.cfg.pollIntervalMs < T) (hat : x.level = .low → T ≤ n * s.cfg.pollIntervalMs) :
    WaitTakes s T n x.level := by
  obtain ⟨hlows, hx⟩ := sampleAt_of_lows hb
  have helapsed : ∀ k, k ≤ n → elapsedAt s k = k * s.cfg.pollIntervalMs := fun k hk =>
    elapsedAt_of_onTime fun j hj => by rw [hlows j (by omega)]
  exact
    { lowBefore := fun k hk => by rw [hlows k hk]
      beforeDeadline := fun k hk => by rw [helapsed k (by omega)]; exact hbefore k hk
      last := by rw [hx]
      atDeadline := fun hl => by rw [helapsed n (Nat.le_refl n)]; exact hat hl }

/-- The inputs left after such a wait. -/
theorem drop_lows {s : State} {n : Nat} {x : Sample} {rest : List Sample}
    (hb : s.busy = List.replicate n { level := .low, lateMs := 0 } ++ x :: rest) : s.busy.drop (n + 1) = rest := by
  simp [hb, List.drop_append]

/-- Settles O15: the deadline falls after sample `n + 1` of the first pin, and at sample `n + 1` of the second. -/
theorem waitTakesTheSamplesOfTheReferenceTiming : Obligations.WaitTakesTheSamplesOfTheReferenceTiming := by
  intro s T n rest hs hp hpos
  refine ⟨fun late hb hn => ?_, fun hn hb => ?_⟩
  · have hbefore : ∀ k, k < n → k * s.cfg.pollIntervalMs < T := fun k hk => by
      have hle : k * s.cfg.pollIntervalMs ≤ (n - 1) * s.cfg.pollIntervalMs := Nat.mul_le_mul_right _ (by omega)
      omega
    rw [exec_waitForReady_takes hs hp hpos (waitTakes_of_lows hb hbefore nofun), drop_lows hb]
    rfl
  · have hb' : s.busy = List.replicate n { level := .low, lateMs := 0 } ++ { level := .low, lateMs := 0 } :: rest := by
      rw [hb, List.replicate_succ', List.append_assoc]; rfl
    rw [← Nat.ceilDiv_eq_add_pred_div] at hn
    have hceil : ∀ k, n ≤ k ↔ T ≤ k * s.cfg.pollIntervalMs := fun k => by
      rw [hn, ceilDiv_le_iff_le_mul hpos, Nat.mul_comm]
    have hbefore : ∀ k, k < n → k * s.cfg.pollIntervalMs < T := fun k hk => by
      rw [← Nat.not_le, ← hceil]
      omega
    rw [exec_waitForReady_takes hs hp hpos (waitTakes_of_lows hb' hbefore fun _ => (hceil n).mp (Nat.le_refl n)),
      drop_lows hb']
    rfl

end Sys2Proof.Machine
end

section
/-! PROOF. INITIALIZE, WRITE_COMMAND and WRITE_DATA (spec/42_protocol_frames.md R125 to R133). -/

namespace Sys2Proof.Machine

/-- INITIALIZE of an Idle engine ends as its flow does. -/
theorem exec_initializeDriver {s : State} (hs : s.seq = []) :
    exec .initializeDriver s = .next (ended .none (initialise s)) :=
  exec_opFlow hs rfl

/-- Settles O18: the flow is a bring-up whose wait ends ready. -/
theorem initializeBringsThePinsUp : Obligations.InitializeBringsThePinsUp := by
  intro s n hs hinit hpos h
  rw [exec_initializeDriver hs.seq, initialise_ready hpos hinit h]
  simp [ended, finish, broughtUp, hs.seq, hs.bw, openModes, bringUpEvents]

/-- Settles O19: without the alternative nothing runs; with it the three writes and a wait, which takes some number of
samples. -/
theorem initializeAgainIsANoOperation : Obligations.InitializeAgainIsANoOperation := by
  intro s hs hinit hpos
  refine ⟨fun hredrive => ?_, fun hredrive => ?_⟩
  · rw [exec_initializeDriver hs.seq, initialise_again hinit hredrive, ended, finish_of_idle hs]
  · obtain ⟨n, l, -, h, -⟩ := waitTakes_exists s 40000 hpos
    have hflow : initialise s = waitEnd 40000 n l (drivePins s) := by
      rw [initialise_redriven hpos hinit hredrive h]
      cases l <;> rfl
    refine ⟨n, l, h, ?_⟩
    rw [exec_initializeDriver hs.seq, hflow, ended_waitEnd, drivePins_eq]
    simp [waited, waitResult, hs.seq, hs.bw]

/-- Settles O20: the failed bring-up closes what it opened, which a boundary with INIT = 0 had closed. -/
theorem aFailedInitializeClosesThePins : Obligations.AFailedInitializeClosesThePins := by
  intro s n hs hinit hpos h
  have hflow : initialise s = .raise (.timeout 40000) (failedUp n s) := initialise_uninitialized hpos hinit h
  rw [exec_initializeDriver hs.idle.seq, hflow]
  simp [ended, takeError, failedUp, hs.idle.seq, hs.idle.bw, hs.closedPins hinit, hs.undriven hinit, bringUpEvents,
    closeEvents]

/-- An operation that runs one frame, in its three cases: no bytes, an uninitialized engine, and a frame sent (R129 to
R133). -/
theorem exec_frame {i : Instr} {s : State} (hs : Idle s) {dc : Level} {bytes : List Byte}
    (hflow : opFlow i s = some (.none, frame dc bytes s)) :
    (bytes = [] → exec i s = .next { s with result := some (.err .protocolArgument) }) ∧
    (bytes ≠ [] → s.init = false → exec i s = .next { s with result := some (.err .protocolState) }) ∧
    (bytes ≠ [] → s.init = true →
      exec i s =
        .next { s with
          trace := s.trace ++ frameF dc bytes
          pinLevel := { s.pinLevel with cs := .driven .high, dc := .driven dc }
          result := some (.ok .none) }) := by
  refine ⟨fun hb => ?_, fun hb hinit => ?_, fun hb hinit => ?_⟩
  · subst hb
    exact exec_of_opFlow_raise hs hflow
  · rw [frame_uninitialized hb hinit] at hflow
    exact exec_of_opFlow_raise hs hflow
  · rw [frame_sent hb hinit] at hflow
    exact exec_of_opFlow_sent hs hflow

/-- Settles O21: the two operations run one frame each, and differ in its DC level. -/
theorem writeCommandAndDataSendOneFrame : Obligations.WriteCommandAndDataSendOneFrame := by
  intro s bytes hs
  obtain ⟨hempty, hstate, hsent⟩ := exec_frame (i := .writeCommand bytes) hs rfl
  obtain ⟨hempty', hstate', hsent'⟩ := exec_frame (i := .writeData bytes) hs rfl
  exact ⟨fun hb => ⟨hempty hb, hempty' hb⟩, fun hb hi => ⟨hstate hb hi, hstate' hb hi⟩,
    fun hb hi => ⟨hsent hb hi, hsent' hb hi⟩, rfl, rfl⟩

end Sys2Proof.Machine
end

section
/-! PROOF. FLUSH and RENDER whose waits end ready (spec/43_protocol_sequences.md R155, R159; spec/44_framebuffer.md R200):
what a paint cycle leaves, from INITIALIZE on, and that RENDER is FLUSH of the packed image. -/

namespace Sys2Proof.Machine

/-- The state after the paint cycle, as one update of the state INITIALIZE left. -/
theorem painted_eq (pk : List Byte) (n1 n2 n3 : Nat) (t : State) :
    painted pk n1 n2 n3 t =
      { t with
        trace := t.trace ++ paintEvents pk t.cfg.pollIntervalMs n1 n2 n3
        pinLevel := { t.pinLevel with cs := .driven .high, dc := .driven .low }
        busy := t.busy.drop (n1 + 1 + (n2 + 1) + (n3 + 1))
        samples := t.samples + (n1 + 1 + (n2 + 1) + (n3 + 1))
        bw := none } := by
  simp [painted, powered, waited, sent, paintEvents, List.append_assoc, Nat.add_assoc]

/-- A wait that begins `m` samples after a state whose inputs are those of `s` after `k` samples. -/
theorem WaitTakes.later {s t : State} {j k m T n : Nat} {l : Level} (h : WaitTakes (afterSamples j s) T n l)
    (hj : j = k + m) (hb : t.busy = s.busy.drop k) (hn : t.samples = s.samples + k) (hc : t.cfg = s.cfg) :
    WaitTakes (afterSamples m t) T n l :=
  h.congr (by simp [hb, hj]) (by simp [hn, hj, Nat.add_assoc]) hc

/-- FLUSH of a packed image ends as the paint cycle does. -/
theorem exec_flush {s : State} (hs : s.seq = []) {pk : List Byte} (hlen : pk.length = 134400) :
    exec (.flush pk) s = .next (ended .none (paintCycle pk s)) :=
  exec_opFlow hs (if_pos ((isImage_iff pk).mpr hlen))

/-- RENDER ends as the paint cycle of the packed image does, and returns that image (R200). -/
theorem exec_render {s : State} (hs : s.seq = []) :
    exec .render s =
      .next (ended (.packed (renderImage s.cfg s.fb)) (paintCycle (renderImage s.cfg s.fb) s)) :=
  exec_opFlow hs rfl

/-- A byte sequence of the packed image's length is not empty. -/
theorem ne_nil_of_imageLength {pk : List Byte} (hlen : pk.length = 134400) : pk ≠ [] :=
  isImage_ne_nil ((isImage_iff pk).mpr hlen)

/-- Settles O28: INITIALIZE leaves the state as it is, or after a redrive, and the paint cycle goes on from there. -/
theorem flushPaintsInOrder : Obligations.FlushPaintsInOrder := by
  intro s pk n1 n2 n3 hs hinit hpos hlen
  have hpk := ne_nil_of_imageLength hlen
  refine ⟨fun hredrive h1 h2 h3 => ?_, fun n0 hredrive h0 h1 h2 h3 => ?_⟩
  · rw [exec_flush hs.seq hlen,
      paintCycle_ready hpk (initialise_again hinit hredrive) hinit (.inl hpos) h1 h2 h3, painted_eq]
    simp [ended, finish, hs.seq, hs.bw, paintEvents, regW]
  · have hflow : initialise s = .ok (redriven n0 .high s) := initialise_redriven hpos hinit hredrive h0
    rw [exec_flush hs.seq hlen,
      paintCycle_ready hpk hflow hinit (.inl hpos) (h1.congr rfl rfl rfl) (h2.later rfl rfl rfl rfl)
        (h3.later (Nat.add_assoc ..) rfl rfl rfl), painted_eq]
    simp [ended, finish, redriven, waited, drivePins_eq, hs.seq, hs.bw, paintEvents, regW, List.append_assoc,
      Nat.add_assoc]

/-- The number of events of a busy wait (R110). -/
theorem waitEvents_length (pollMs n : Nat) (l : Level) : (waitEvents pollMs n l).length = 2 * n + 1 := by
  simp [waitEvents, Nat.mul_comm]

/-- The events of a successful FLUSH of an uninitialized engine: 111, and two for each sample that reads 0 (R159). -/
theorem bringUp_paintEvents_length (pk : List Byte) (pollMs n0 n1 n2 n3 : Nat) :
    (bringUpEvents ++ waitEvents pollMs n0 .high ++ paintEvents pk pollMs n1 n2 n3).length =
      111 + 2 * (n0 + n1 + n2 + n3) := by
  have hregs : registerEvents.length = 80 := rfl
  simp only [List.length_append, paintEvents, waitEvents_length, hregs, bringUpEvents, regW, cmdF, datF, frameF,
    List.length_cons, List.length_nil]
  omega

/-- An operation that is a paint cycle of an uninitialized engine, where its four waits end ready. -/
theorem ended_paintCycle_broughtUp {s : State} (hs : Idle s) (hinit : s.init = false) {pk : List Byte} {v : Value}
    {n0 n1 n2 n3 : Nat} (hpk : pk ≠ []) (hpos : 0 < s.cfg.pollIntervalMs ∨ n0 + n1 + n2 + n3 = 0)
    (h0 : WaitTakes s 40000 n0 .high) (h1 : WaitTakes (afterSamples (n0 + 1) s) 210 n1 .high)
    (h2 : WaitTakes (afterSamples (n0 + 1 + (n1 + 1)) s) 32000 n2 .high)
    (h3 : WaitTakes (afterSamples (n0 + 1 + (n1 + 1) + (n2 + 1)) s) 200 n3 .high) :
    ended v (paintCycle pk s) =
      { s with
        init := true
        pinState := openModes
        pinLevel := { cs := .driven .high, dc := .driven .low, rst := .driven .high }
        trace := s.trace ++
          (bringUpEvents ++ waitEvents s.cfg.pollIntervalMs n0 .high ++ paintEvents pk s.cfg.pollIntervalMs n1 n2 n3)
        busy := s.busy.drop (n0 + 1 + (n1 + 1) + (n2 + 1) + (n3 + 1))
        samples := s.samples + (n0 + 1 + (n1 + 1) + (n2 + 1) + (n3 + 1))
        result := some (.ok v) } := by
  have hflow : initialise s = .ok (broughtUp n0 s) := initialise_ready (by omega) hinit h0
  have hpos' : 0 < (broughtUp n0 s).cfg.pollIntervalMs ∨ n1 + n2 + n3 = 0 := hpos.imp id (by omega)
  rw [paintCycle_ready hpk hflow rfl hpos' (h1.congr rfl rfl rfl) (h2.later rfl rfl rfl rfl)
    (h3.later (Nat.add_assoc ..) rfl rfl rfl), painted_eq]
  simp [ended, finish, broughtUp, hs.seq, hs.bw, List.append_assoc, Nat.add_assoc]

/-- Settles O29: the bring-up leaves an initialized engine, and the paint cycle goes on from there. -/
theorem flushFromResetInitializesFirst : Obligations.FlushFromResetInitializesFirst := by
  intro s pk n0 n1 n2 n3 hs hinit hpos hlen h0 h1 h2 h3
  refine ⟨_, rfl, ?_, ?_⟩
  · rw [← bringUp_paintEvents_length pk s.cfg.pollIntervalMs n0 n1 n2 n3]
    simp only [paintEvents, regW, List.append_assoc]
  · rw [exec_flush hs.seq hlen,
      ended_paintCycle_broughtUp hs hinit (ne_nil_of_imageLength hlen) hpos h0 h1 h2 h3]
    simp only [paintEvents, regW, List.append_assoc, openModes]

/-- Samples that all read ready make each wait take one of them. -/
theorem waitTakes_of_ready {s : State} {k : Nat} {x : Sample} (T : Nat) (hx : s.busy[k]? = some x)
    (hready : x.level = .high) : WaitTakes (afterSamples k s) T 0 .high :=
  waitTakes_first T (by simpa [sampleAt_afterSamples, sampleAt, hx] using hready)

/-- Settles O41: the paint cycle of the packed image, each of its waits ready at the first sample. -/
theorem renderSendsAndReturnsTheImage : Obligations.RenderSendsAndReturnsTheImage := by
  intro s d0 d1 d2 d3 rest hs
  have hpk : renderImage s.cfg s.fb ≠ [] := ne_nil_of_imageLength (renderImage_length s.cfg s.fb)
  refine ⟨fun hinit hb => ?_, fun hinit hredrive hb => ?_⟩
  · rw [exec_render hs.seq, ended_paintCycle_broughtUp (n0 := 0) (n1 := 0) (n2 := 0) (n3 := 0) hs hinit hpk (.inr rfl)
      (waitTakes_of_ready (k := 0) _ (by rw [hb]; rfl) rfl) (waitTakes_of_ready _ (by rw [hb]; rfl) rfl)
      (waitTakes_of_ready _ (by rw [hb]; rfl) rfl) (waitTakes_of_ready _ (by rw [hb]; rfl) rfl)]
    simp [hb, openModes, waitEvents]
  · rw [exec_render hs.seq, paintCycle_ready (n1 := 0) (n2 := 0) (n3 := 0) hpk (initialise_again hinit hredrive) hinit
      (.inr rfl) (waitTakes_of_ready (k := 0) _ (by rw [hb]; rfl) rfl) (waitTakes_of_ready _ (by rw [hb]; rfl) rfl)
      (waitTakes_of_ready _ (by rw [hb]; rfl) rfl), painted_eq]
    simp [ended, finish, hs.seq, hs.bw, hb]

/-- Settles O42: both run the same paint cycle, and the value is written at its end. -/
theorem renderIsFlushOfTheImage : Obligations.RenderIsFlushOfTheImage := by
  intro s hs
  refine ⟨_, _, exec_flush hs (renderImage_length s.cfg s.fb), exec_render hs, ?_⟩
  cases paintCycle (renderImage s.cfg s.fb) s with
  | ok t => exact ⟨fun _ => rfl, fun e he => by simp [ended] at he⟩
  | raise e t => exact ⟨fun hok => by simp [ended] at hok, fun _ _ => rfl⟩

end Sys2Proof.Machine
end

section
/-! PROOF. The errors of each host operation and what they leave (spec/60_exceptions.md R231, R239, R241): how each flow
raises, said once, and the statements about the errors, about TimeoutError and about the operation's end. -/

namespace Sys2Proof.Machine

/-! ### How the flows raise -/

/-- A frame raises one of two errors, before it does anything (R129, R133). -/
theorem frame_raise {dc : Level} {bytes : List Byte} {s u : State} {e : Err} (h : frame dc bytes s = .raise e u) :
    (e = .protocolArgument ∨ e = .protocolState) ∧ u = s := by
  unfold frame at h
  split at h
  · obtain ⟨rfl, rfl⟩ := Flow.raise.inj h
    exact ⟨.inl rfl, rfl⟩
  · split at h
    · obtain ⟨rfl, rfl⟩ := Flow.raise.inj h
      exact ⟨.inr rfl, rfl⟩
    · cases h

/-- A register write with a payload raises ProtocolStateError only, before it does anything (R133). -/
theorem regWrite_raise {c : Byte} {p : List Byte} (hp : p ≠ []) {s u : State} {e : Err}
    (h : regWrite c p s = .raise e u) : e = .protocolState ∧ u = s := by
  cases hi : s.init with
  | false =>
    rw [regWrite_uninitialized hi] at h
    obtain ⟨rfl, rfl⟩ := Flow.raise.inj h
    exact ⟨rfl, rfl⟩
  | true =>
    rw [regWrite_sent hp hi] at h
    cases h

/-- The register sequence raises ProtocolStateError only, before it does anything (R150). -/
theorem registerSequence_raise {s u : State} {e : Err} (h : registerSequence s = .raise e u) :
    e = .protocolState ∧ u = s := by
  cases hi : s.init with
  | false =>
    rw [registerSequence_uninitialized hi] at h
    obtain ⟨rfl, rfl⟩ := Flow.raise.inj h
    exact ⟨rfl, rfl⟩
  | true =>
    rw [registerSequence_sent hi] at h
    cases h

/-- The paint cycle raises one of its four timeouts (R157). -/
theorem paintCycle_raise_timeout {pk : List Byte} (hpk : pk ≠ []) {s u : State} {e : Err}
    (h : paintCycle pk s = .raise e u) :
    e = .timeout 40000 ∨ e = .timeout 210 ∨ e = .timeout 32000 ∨ e = .timeout 200 := by
  rcases paintCycle_raise hpk h with hinit | ⟨he, -⟩
  · exact .inl (initialise_raise hinit)
  · exact .inr he

/-- The range checks report a coordinate as it stands (R190). -/
theorem boundsError_some {x y : Coord} {e : Err} (h : boundsError x y = some e) :
    e = .bounds .x x.toInt ∨ e = .bounds .y y.toInt := by
  unfold boundsError at h
  split at h
  · exact .inl (Option.some.inj h).symm
  · split at h
    · exact .inr (Option.some.inj h).symm
    · cases h

/-- The errors each host operation can return (R231). -/
def OwnError : Instr → Err → Prop
  | .initializeDriver, e => e = .timeout 40000
  | .writeCommand _, e => e = .protocolArgument ∨ e = .protocolState
  | .writeData _, e => e = .protocolArgument ∨ e = .protocolState
  | .resetDisplay, e => e = .protocolState
  | .setResolution, e => e = .protocolState
  | .flush _, e => e = .timeout 40000 ∨ e = .timeout 210 ∨ e = .timeout 32000 ∨ e = .timeout 200
  | .waitForReady _ T, e => e = .timeout T
  | .setPixel x y _, e => e = .bounds .x x.toInt ∨ e = .bounds .y y.toInt
  | .render, e => e = .timeout 40000 ∨ e = .timeout 210 ∨ e = .timeout 32000 ∨ e = .timeout 200
  | .fromByte b, e => e = .encoding b
  | .rotate _ _, e => e = .notSupported
  | _, _ => False

/-- A flow that raises raises an error of its operation, and has changed nothing unless it timed out (R231, R239). -/
theorem opFlow_raise {i : Instr} {s u : State} {v : Value} {e : Err} (h : opFlow i s = some (v, .raise e u)) :
    OwnError i e ∧ ((∃ T, e = .timeout T) ∨ u = s) := by
  cases i with
  | initializeDriver =>
    have he := initialise_raise (Prod.mk.inj (Option.some.inj h)).2
    exact ⟨he, .inl ⟨_, he⟩⟩
  | writeCommand bytes =>
    obtain ⟨he, hu⟩ := frame_raise (Prod.mk.inj (Option.some.inj h)).2
    exact ⟨he, .inr hu⟩
  | writeData bytes =>
    obtain ⟨he, hu⟩ := frame_raise (Prod.mk.inj (Option.some.inj h)).2
    exact ⟨he, .inr hu⟩
  | resetDisplay =>
    obtain ⟨he, hu⟩ := registerSequence_raise (Prod.mk.inj (Option.some.inj h)).2
    exact ⟨he, .inr hu⟩
  | setResolution =>
    obtain ⟨he, hu⟩ := regWrite_raise (List.cons_ne_nil _ _) (Prod.mk.inj (Option.some.inj h)).2
    exact ⟨he, .inr hu⟩
  | flush pk =>
    simp only [opFlow] at h
    split at h
    · next hpk =>
      have he := paintCycle_raise_timeout (isImage_ne_nil hpk) (Prod.mk.inj (Option.some.inj h)).2
      exact ⟨he, .inl (by rcases he with rfl | rfl | rfl | rfl <;> exact ⟨_, rfl⟩)⟩
    · cases h
  | waitForReady r T =>
    simp only [opFlow] at h
    split at h
    · have he := waitReady_raise (Prod.mk.inj (Option.some.inj h)).2
      exact ⟨he, .inl ⟨T, he⟩⟩
    · cases h
  | setPixel x y c =>
    simp only [opFlow] at h
    split at h
    · next e' hb =>
      obtain ⟨rfl, rfl⟩ := Flow.raise.inj (Prod.mk.inj (Option.some.inj h)).2
      exact ⟨boundsError_some hb, .inr rfl⟩
    · cases h
  | render =>
    have hpk := ne_nil_of_imageLength (renderImage_length s.cfg s.fb)
    have he := paintCycle_raise_timeout hpk (Prod.mk.inj (Option.some.inj h)).2
    exact ⟨he, .inl (by rcases he with rfl | rfl | rfl | rfl <;> exact ⟨_, rfl⟩)⟩
  | fromByte b =>
    simp only [opFlow] at h
    split at h
    · cases h
    · obtain ⟨rfl, rfl⟩ := Flow.raise.inj (Prod.mk.inj (Option.some.inj h)).2
      exact ⟨rfl, .inr rfl⟩
  | rotate a g =>
    obtain ⟨rfl, rfl⟩ := Flow.raise.inj (Prod.mk.inj (Option.some.inj h)).2
    exact ⟨rfl, .inr rfl⟩
  | getPixels | toByte | dispatch | flatten | mirrorColumns | mirrorRows => cases h
  | cmdPanelSetting | cmdPowerSetting | cmdPowerOffSeq | cmdPowerOn | cmdImageTransfer | cmdPll | cmdTse
  | cmdVcomDataInterval | cmdNonOverlap | cmdResolution | cmdFlashDisable | cmdSevenColour => cases h

/-- A host operation whose result is an error has run a flow that raised it. -/
theorem exec_hostOp_error {i : Instr} (hi : isHostOp i = true) {s t : State} {e : Err} (h : exec i s = .next t)
    (he : t.result = some (.err e)) : ∃ v u, opFlow i s = some (v, .raise e u) ∧ t = takeError e u := by
  obtain ⟨-, v, f, hf, rfl⟩ := exec_hostOp_next hi h
  cases f with
  | ok u => simp [ended] at he
  | raise e' u =>
    obtain rfl : e' = e := by simpa [ended] using he
    exact ⟨v, u, hf, rfl⟩

/-- Settles O48: the error is one its flow raises. -/
theorem eachOperationReturnsItsOwnErrors : Obligations.EachOperationReturnsItsOwnErrors := by
  intro i s t e hi h he
  obtain ⟨v, u, hf, -⟩ := exec_hostOp_error hi h he
  have hown := (opFlow_raise hf).1
  cases i <;> exact hown

/-- Settles O49: a flow that raises no timeout has changed nothing, and taking the error writes the result. -/
theorem errorsOtherThanTimeoutChangeNothing : Obligations.ErrorsOtherThanTimeoutChangeNothing := by
  intro i s t e hi hs h he hnot
  obtain ⟨v, u, hf, rfl⟩ := exec_hostOp_error hi h he
  rcases (opFlow_raise hf).2 with ⟨T, hT⟩ | rfl
  · exact absurd hT (hnot T)
  · exact takeError_of_idle hs e

/-! ### What a timeout leaves -/

/-- The clauses of INIT and the pins after a TimeoutError, per operation (R241). -/
def TimeoutLeaves (i : Instr) (s : State) (T : Nat) (u : State) : Prop :=
  (i = .initializeDriver ∧ T = 40000 ∧ u.init = s.init ∧ (u.init = true → u.pinLevel.dc = .driven .low)) ∨
  (i = .waitForReady .busy T ∧ u.init = s.init ∧ u.pinState = s.pinState ∧ u.pinLevel = s.pinLevel) ∨
  (((∃ pk, i = .flush pk) ∨ i = .render) ∧
    ((T = 40000 ∧ u.init = s.init ∧ (u.init = true → u.pinLevel.dc = .driven .low)) ∨
     ((T = 210 ∨ T = 32000 ∨ T = 200) ∧ u.init = true ∧ u.pinLevel.dc = .driven .low)))

/-- A failed INITIALIZE leaves INIT as it was, and DC at 0 where INIT is 1 (R127, R126). -/
theorem initialise_timeout {s u : State} {T : Nat} (h : initialise s = .raise (.timeout T) u) :
    T = 40000 ∧ u.init = s.init ∧ (u.init = true → u.pinLevel.dc = .driven .low) :=
  ⟨Err.timeout.inj (initialise_raise h), initialise_raise_init h, initialise_raise_dc h⟩

/-- A failed paint cycle: in INITIALIZE, or in a wait of its own (R157). -/
theorem paintCycle_timeout {pk : List Byte} (hpk : pk ≠ []) {s u : State} {T : Nat}
    (h : paintCycle pk s = .raise (.timeout T) u) :
    (T = 40000 ∧ u.init = s.init ∧ (u.init = true → u.pinLevel.dc = .driven .low)) ∨
      ((T = 210 ∨ T = 32000 ∨ T = 200) ∧ u.init = true ∧ u.pinLevel.dc = .driven .low) := by
  rcases paintCycle_raise hpk h with hinit | ⟨hT, hu⟩
  · exact .inl (initialise_timeout hinit)
  · exact .inr ⟨by simpa only [Err.timeout.injEq] using hT, hu⟩

/-- The flow of every operation that times out. -/
theorem opFlow_timeout {i : Instr} {s u : State} {v : Value} {T : Nat}
    (h : opFlow i s = some (v, .raise (.timeout T) u)) : TimeoutLeaves i s T u := by
  have hown := (opFlow_raise h).1
  cases i <;> simp only [OwnError, reduceCtorEq, or_self] at hown
  case initializeDriver => exact .inl ⟨rfl, initialise_timeout (Prod.mk.inj (Option.some.inj h)).2⟩
  case flush pk =>
    simp only [opFlow] at h
    split at h
    · next hpk =>
      exact .inr (.inr ⟨.inl ⟨pk, rfl⟩, paintCycle_timeout (isImage_ne_nil hpk) (Prod.mk.inj (Option.some.inj h)).2⟩)
    · cases h
  case waitForReady r T' =>
    simp only [opFlow] at h
    split at h
    · next hpin =>
      obtain ⟨rfl, -⟩ := hpin
      obtain rfl : T = T' := Err.timeout.inj hown
      have hflow : waitReady T s = .raise (.timeout T) u := (Prod.mk.inj (Option.some.inj h)).2
      have hinit := waitReady_init T s
      have hstate := waitReady_pinState T s
      have hlevel := waitReady_pinLevel T s
      rw [hflow] at hinit hstate hlevel
      exact .inr (.inl ⟨rfl, hinit, hstate, hlevel⟩)
    · cases h
  case render =>
    exact .inr (.inr ⟨.inr rfl, paintCycle_timeout (ne_nil_of_imageLength (renderImage_length s.cfg s.fb))
      (Prod.mk.inj (Option.some.inj h)).2⟩)

/-- Settles O50: the operation ends at a boundary, has written no cell, and has left INIT and the pins as its flow says. -/
theorem aTimeoutKeepsTheGridAndTheBoundary : Obligations.ATimeoutKeepsTheGridAndTheBoundary := by
  intro i s t T hi hs h he
  have ht : Boundary t := exec_boundary hs h
  obtain ⟨v, u, hf, rfl⟩ := exec_hostOp_error hi h he
  have hnot : ∀ x y c, i ≠ .setPixel x y c := by
    rintro x y c rfl
    simpa [OwnError] using (opFlow_raise hf).1
  have hmoved := exec_moved hnot h
  have hleaves : TimeoutLeaves i s T u := opFlow_timeout hf
  exact ⟨hmoved.fb, hmoved.cfg, ht.idle.seq, ht.idle.bw, fun h0 => ⟨ht.closedPins h0, ht.undriven h0⟩,
    fun h1 => ⟨ht.openPins h1, ht.csHigh h1, ht.rstHigh h1⟩, hleaves⟩

/-! ### How every operation ends -/

/-- An ended operation has left SEQ Idle. -/
theorem ended_seq (v : Value) (f : Flow) : (ended v f).seq = [] := by
  cases f <;> rfl

/-- An ended operation has a result. -/
theorem ended_result_isSome (v : Value) (f : Flow) : (ended v f).result.isSome = true := by
  cases f <;> rfl

/-- Settles O51: an operation that ran is an ended flow. -/
theorem everyOperationEndsIdleWithAResult : Obligations.EveryOperationEndsIdleWithAResult := by
  intro i s t hi h
  have hmoved := (exec_moved_all h).1
  obtain ⟨-, v, f, -, rfl⟩ := exec_hostOp_next hi h
  exact ⟨ended_seq v f, ended_result_isSome v f, hmoved.port, hmoved.cfg⟩

end Sys2Proof.Machine
end

section
/-! PROOF. Who writes INIT, FB and the pins (spec/10_state.md R12, R14; spec/60_exceptions.md R244; spec/70_reset_and_hazards.md
R272): the instructions that leave each alone. -/

namespace Sys2Proof.Machine

/-- The events of every instruction are those a wire run may hold. -/
theorem exec_events {i : Instr} {s t : State} (h : exec i s = .next t) :
    ∃ bs es, t.trace = s.trace ++ es ∧ ∀ e ∈ es, EventIn bs e := by
  cases hi : isHostOp i with
  | true =>
    by_cases hset : ∃ x y c, i = .setPixel x y c
    · obtain ⟨x, y, c, rfl⟩ := hset
      have htrace : t.trace = s.trace := by
        rcases setPixel_next h with ⟨e, -, rfl⟩ | ⟨-, rfl⟩ <;> rfl
      exact ⟨[], [], by rw [htrace, List.append_nil], fun e he => absurd he List.not_mem_nil⟩
    · obtain ⟨-, v, f, hf, rfl⟩ := exec_hostOp_next hi h
      have hrun := opFlow_wireRun (fun x y c hc => hset ⟨x, y, c, hc⟩) hf
      obtain ⟨es, htrace, -, -, hin⟩ := hrun.events
      obtain ⟨-, -, -, -, -, -, -, hended, -⟩ := ended_of_wireRun hrun v
      exact ⟨_, es, hended.trans htrace, hin⟩
  | false =>
    obtain ⟨f, hf, rfl⟩ := exec_wire_next hi h
    obtain ⟨bs, hrun⟩ := wireFlow_wireRun hf
    obtain ⟨es, htrace, -, -, hin⟩ := hrun.events
    exact ⟨bs, es, by rw [← htrace]; cases f <;> rfl, hin⟩

/-- Settles O33: no wire run holds that event. -/
theorem nothingDrivesTheResetPinLow : Obligations.NothingDrivesTheResetPinLow := by
  intro i s t h
  obtain ⟨bs, es, htrace, hin⟩ := exec_events h
  exact ⟨es, htrace, fun hmem => hin _ hmem⟩

/-- A frame does not write INIT. -/
theorem frame_init (dc : Level) (bytes : List Byte) (s : State) : (frame dc bytes s).state.init = s.init := by
  unfold frame
  split
  · rfl
  · split <;> rfl

/-- Of an uninitialized engine, only INITIALIZE, FLUSH and RENDER have a flow that sets INIT (R14). -/
theorem opFlow_init_false {i : Instr} {s : State} (hinit : s.init = false) {v : Value} {f : Flow}
    (h : opFlow i s = some (v, f)) (hup : i ≠ .initializeDriver) (hflush : ∀ pk, i ≠ .flush pk)
    (hrender : i ≠ .render) : f.state.init = false := by
  cases i <;> simp only [opFlow, reduceCtorEq] at h
  case initializeDriver => exact absurd rfl hup
  case flush pk => exact absurd rfl (hflush pk)
  case render => exact absurd rfl hrender
  case writeCommand | writeData =>
    rw [← (Prod.mk.inj (Option.some.inj h)).2, frame_init, hinit]
  case resetDisplay =>
    rw [← (Prod.mk.inj (Option.some.inj h)).2, registerSequence_uninitialized hinit]
    exact hinit
  case setResolution =>
    rw [← (Prod.mk.inj (Option.some.inj h)).2, regWrite_uninitialized hinit]
    exact hinit
  case waitForReady =>
    split at h
    · rw [← (Prod.mk.inj (Option.some.inj h)).2, waitReady_init, hinit]
    · cases h
  case setPixel | fromByte =>
    split at h <;> rw [← (Prod.mk.inj (Option.some.inj h)).2] <;> exact hinit
  all_goals rw [← (Prod.mk.inj (Option.some.inj h)).2]; exact hinit

/-- Settles O52: a host operation's flow says what it leaves of INIT, and a wire command with INIT = 0 raises. -/
theorem onlyInitializeSetsInit : Obligations.OnlyInitializeSetsInit := by
  intro i s t h
  refine ⟨(exec_moved_all h).1.init, fun hinit ht => ?_⟩
  by_contra hnone
  simp only [not_or, not_exists] at hnone
  obtain ⟨hup, hflush, hrender⟩ := hnone
  have hfalse : t.init = false := by
    cases hi : isHostOp i with
    | true =>
      obtain ⟨-, v, f, hf, rfl⟩ := exec_hostOp_next hi h
      rw [← opFlow_init_false hinit hf hup hflush hrender]
      cases f <;> rfl
    | false =>
      obtain ⟨f, hf, rfl⟩ := exec_wire_next hi h
      rw [wireFlow_uninitialized hinit hf]
      exact hinit
  exact Bool.noConfusion (hfalse.symm.trans ht)

/-- A wire command is no SET_PIXEL. -/
theorem ne_setPixel_of_wire {i : Instr} (hi : isHostOp i = false) (x y : Coord) (c : Color) : i ≠ .setPixel x y c := by
  rintro rfl
  cases hi

/-- Settles O53: every other instruction and every move keeps the store, and a step is one of the two. -/
theorem onlySetPixelWritesTheGrid : Obligations.OnlySetPixelWritesTheGrid := by
  refine ⟨fun i s t h hnot => (exec_moved hnot h).fb, fun s => (moved_tick s).fb, fun s t h => ?_⟩
  obtain ⟨-, hstep⟩ := step_next h
  rcases hstep with ⟨-, -, rfl⟩ | ⟨bs, rest, i, hs, hp, hd, he⟩ | ⟨p, rest, i, u, -, hw, hu, ht⟩ | ⟨p, rest, -, -, rfl⟩
  · exact .inl rfl
  · by_cases hset : ∃ x y c, i = .setPixel x y c
    · obtain ⟨x, y, c, rfl⟩ := hset
      exact .inr ⟨hs, bs, rest, x, y, c, hp, hd⟩
    · exact .inl (exec_moved (fun x y c hc => hset ⟨x, y, c, hc⟩) he).fb
  · have hfb : u.fb = s.fb := (exec_moved (ne_setPixel_of_wire (wireAt_wire hw)) hu).fb
    rcases ht with ⟨-, rfl⟩ | ⟨-, rfl⟩ <;> exact .inl hfb
  · exact .inl (moved_tick s).fb

/-! ### The operations off the wire -/

/-- A state in the other mode. -/
def State.withInit (b : Bool) (s : State) : State := { s with init := b }

/-- A flow that ends in the other mode. -/
def Flow.withInit (b : Bool) : Flow → Flow
  | .ok s => .ok (s.withInit b)
  | .raise e s => .raise e (s.withInit b)

/-- An operation off the wire runs the same flow in either mode (R244). -/
theorem opFlow_withInit {i : Instr} {s : State} (hoff : startPositions i s = none) {v : Value} {f : Flow}
    (h : opFlow i s = some (v, f)) (b : Bool) : opFlow i (s.withInit b) = some (v, f.withInit b) := by
  cases i <;> simp only [startPositions, reduceCtorEq] at hoff <;> simp only [opFlow, reduceCtorEq] at h ⊢
  case setPixel | fromByte =>
    split at h <;> obtain ⟨rfl, rfl⟩ := Prod.mk.inj (Option.some.inj h) <;> rfl
  all_goals obtain ⟨rfl, rfl⟩ := Prod.mk.inj (Option.some.inj h); rfl

/-- An operation off the wire leaves TRACE, the pins and INIT (R244). -/
theorem opFlow_off_wire {i : Instr} {s : State} (hoff : startPositions i s = none) {v : Value} {f : Flow}
    (h : opFlow i s = some (v, f)) :
    f.state.trace = s.trace ∧ f.state.pinState = s.pinState ∧ f.state.pinLevel = s.pinLevel ∧
      f.state.init = s.init := by
  cases i <;> simp only [startPositions, reduceCtorEq] at hoff <;> simp only [opFlow, reduceCtorEq] at h
  case setPixel | fromByte =>
    split at h <;> obtain ⟨rfl, rfl⟩ := Prod.mk.inj (Option.some.inj h) <;> exact ⟨rfl, rfl, rfl, rfl⟩
  all_goals obtain ⟨rfl, rfl⟩ := Prod.mk.inj (Option.some.inj h); exact ⟨rfl, rfl, rfl, rfl⟩

/-- Settles O54: the operation's flow is the same in either mode. -/
theorem pureOperationsIgnoreTheMode : Obligations.PureOperationsIgnoreTheMode := by
  intro i s t hoff hi h
  obtain ⟨hs, v, f, hf, rfl⟩ := exec_hostOp_next hi h
  obtain ⟨htrace, hstate, hlevel, hinit⟩ := opFlow_off_wire hoff hf
  have hu : ∀ b, exec i (s.withInit b) = .next (ended v (f.withInit b)) := fun b =>
    exec_opFlow (s := s.withInit b) hs (opFlow_withInit hoff hf b)
  cases f with
  | ok u => exact ⟨htrace, hstate, hlevel, hinit, fun b => ⟨_, hu b, rfl, rfl⟩⟩
  | raise e u => exact ⟨htrace, hstate, hlevel, hinit, fun b => ⟨_, hu b, rfl, rfl⟩⟩

end Sys2Proof.Machine
end

section
/-! PROOF. FLUSH however its waits go (spec/43_protocol_sequences.md R157; spec/41_busywaiter.md R113): how many samples it
takes at most, how many 0x04 commands it has sent when it ends, and exactly which events. -/

namespace Sys2Proof.Machine

/-! ### Samples -/

/-- A stretch of an operation that keeps the configuration and takes at most `b` samples. -/
structure Sampled (b : Nat) (s t : State) : Prop where
  cfg : t.cfg = s.cfg
  samples : t.samples ≤ s.samples + b

/-- Only the configuration and the sample counter matter. -/
theorem Sampled.congr {b : Nat} {s s' t t' : State} (h : Sampled b s t) (hc : s'.cfg = s.cfg)
    (hn : s'.samples = s.samples) (hc' : t'.cfg = t.cfg) (hn' : t'.samples = t.samples) : Sampled b s' t' :=
  ⟨by rw [hc', hc]; exact h.cfg, by rw [hn', hn]; exact h.samples⟩

/-- A call and the rest of the rule: their bounds add. -/
theorem Sampled.andThen {b b' : Nat} {s : State} {f : Flow} {k : State → Flow} (hf : Sampled b s f.state)
    (hk : ∀ t, t.cfg = s.cfg → Sampled b' t (k t).state) : Sampled (b + b') s (f.andThen k).state := by
  cases f with
  | ok t =>
    have ht : Sampled b s t := hf
    have hrest := hk t ht.cfg
    exact ⟨hrest.cfg.trans ht.cfg, hrest.samples.trans (by have := ht.samples; omega)⟩
  | raise e t => exact ⟨hf.cfg, hf.samples.trans (by omega)⟩

theorem sampled_frame (dc : Level) (bytes : List Byte) (s : State) : Sampled 0 s (frame dc bytes s).state := by
  unfold frame
  split
  · exact ⟨rfl, Nat.le_refl _⟩
  · split <;> exact ⟨rfl, Nat.le_refl _⟩

theorem sampled_regWrite (c : Byte) (p : List Byte) (s : State) : Sampled 0 s (regWrite c p s).state :=
  (sampled_frame .low [c] s).andThen fun t _ => sampled_frame .high p t

theorem sampled_registerSequence (s : State) : Sampled 0 s (registerSequence s).state := by
  cases hi : s.init with
  | true => rw [registerSequence_sent hi]; exact ⟨rfl, Nat.le_refl _⟩
  | false => rw [registerSequence_uninitialized hi]; exact ⟨rfl, Nat.le_refl _⟩

/-- The most samples a wait takes: the rounded-up quotient of its timeout and the polling interval, plus one (R113). -/
def maxSamples (T pollMs : Nat) : Nat := (T + pollMs - 1) / pollMs + 1

theorem sampled_waitReady (T : Nat) {P : Nat} (hpos : 0 < P) {s : State} (hP : s.cfg.pollIntervalMs = P) :
    Sampled (maxSamples T P) s (waitReady T s).state := by
  subst hP
  obtain ⟨n, l, -, hw, heq⟩ := waitTakes_exists s T hpos
  have hn : n + 1 ≤ maxSamples T s.cfg.pollIntervalMs := Nat.succ_le_succ (hw.le_ceil hpos)
  rw [heq]
  cases l <;> exact ⟨rfl, Nat.add_le_add_left hn _⟩

theorem sampled_powerStep (T : Nat) {P : Nat} (hpos : 0 < P) {s : State} (hP : s.cfg.pollIntervalMs = P) :
    Sampled (maxSamples T P) s (powerStep T s).state := by
  have h := (sampled_frame .low [powerOpcode] s).andThen (k := waitReady T) (b' := maxSamples T P) fun t ht =>
    sampled_waitReady T hpos (by rw [ht, hP])
  rwa [Nat.zero_add] at h

theorem sampled_initialise {P : Nat} (hpos : 0 < P) {s : State} (hP : s.cfg.pollIntervalMs = P) :
    Sampled (maxSamples tInitMs P) s (initialise s).state := by
  unfold initialise
  split
  · split
    · exact (sampled_waitReady tInitMs hpos (s := drivePins s) hP).congr rfl rfl rfl rfl
    · exact ⟨rfl, Nat.le_add_right _ _⟩
  · have hcfg : (drivePins (openPins s)).cfg = s.cfg := by rw [drivePins_openPins]
    have hsamples : (drivePins (openPins s)).samples = s.samples := by rw [drivePins_openPins]
    have h := sampled_waitReady tInitMs hpos (s := drivePins (openPins s)) (by rw [hcfg, hP])
    unfold bringUp
    split
    · next t ht => rw [ht] at h; exact h.congr hcfg.symm hsamples.symm rfl rfl
    · next e t ht => rw [ht] at h; exact h.congr hcfg.symm hsamples.symm rfl rfl

/-- The paint cycle takes at most as many samples as its four waits can. -/
theorem sampled_paintCycle (pk : List Byte) {s : State} (hpos : 0 < s.cfg.pollIntervalMs) :
    Sampled (maxSamples 40000 s.cfg.pollIntervalMs + maxSamples 210 s.cfg.pollIntervalMs +
      maxSamples 32000 s.cfg.pollIntervalMs + maxSamples 200 s.cfg.pollIntervalMs) s (paintCycle pk s).state := by
  have hpower : ∀ T t, t.cfg = s.cfg → Sampled (maxSamples T s.cfg.pollIntervalMs) t (powerStep T t).state :=
    fun T t ht => sampled_powerStep T hpos (by rw [ht])
  exact (((((sampled_initialise hpos rfl).andThen fun t _ => sampled_registerSequence t).andThen
    fun t _ => sampled_regWrite _ _ t).andThen (hpower tPon1Ms)).andThen (hpower tRefreshMs)).andThen (hpower tPon2Ms)

/-- Settles O34: the bound on the samples is the sum of those of the parts of the cycle. -/
theorem flushTakesBoundedlyManySamples : Obligations.FlushTakesBoundedlyManySamples := by
  intro s pk hs hpos hlen
  refine ⟨_, exec_flush hs.seq hlen, ?_⟩
  have hbound := (sampled_paintCycle pk hpos).samples
  simp only [maxSamples] at hbound
  cases hf : paintCycle pk s with
  | ok t => rw [hf] at hbound; simpa [ended, Flow.state, Nat.add_assoc] using hbound
  | raise e t => rw [hf] at hbound; simpa [ended, Flow.state, Nat.add_assoc] using hbound

/-! ### The 0x04 commands sent -/

/-- A stretch of an operation that appends events with `k` SPI writes of the power opcode among them. -/
def PowersSent (k : Nat) (s t : State) : Prop :=
  ∃ es, t.trace = s.trace ++ es ∧ es.count (.spiWrite [0x04]) = k

theorem PowersSent.trans {j k : Nat} {s t u : State} (h : PowersSent j s t) (h' : PowersSent k t u) :
    PowersSent (j + k) s u := by
  obtain ⟨es, he, hj⟩ := h
  obtain ⟨es', he', hk⟩ := h'
  exact ⟨es ++ es', by rw [he', he, List.append_assoc], by rw [List.count_append, hj, hk]⟩

theorem powersSent_initialise (s : State) : PowersSent 0 s (initialise s).state := by
  obtain ⟨es, he, hno⟩ := initialise_sends_nothing s
  exact ⟨es, he, List.count_eq_zero.mpr (hno _)⟩

/-- Neither the register sequence nor the transfer of a packed image sends the power opcode. -/
theorem powersSent_image {pk : List Byte} (hlen : pk.length = 134400) (s : State) :
    PowersSent 0 s (sent (registerEvents ++ regW 0x10 pk) .high s) := by
  refine ⟨registerEvents ++ regW 0x10 pk, rfl, ?_⟩
  have hregs : registerEvents.count (.spiWrite [0x04]) = 0 := by decide
  have hpk : Event.spiWrite [0x04] ≠ .spiWrite pk := by
    rintro ⟨⟩
    exact absurd hlen (by decide)
  have himage : (regW 0x10 pk).count (.spiWrite [0x04]) = 0 := by
    rw [List.count_eq_zero]
    simpa [regW, cmdF, datF, frameF] using hpk
  rw [List.count_append, hregs, himage]

theorem powersSent_powerStep {T : Nat} {s : State} (hi : s.init = true) : PowersSent 1 s (powerStep T s).state := by
  obtain ⟨es, he, hone, -⟩ := powerStep_events (T := T) hi
  exact ⟨es, he, hone⟩

/-- How a FLUSH ends, by its result: the 0x04 commands among its events, and INIT. -/
def FlushEnds (s t : State) (es : List Event) : Prop :=
  (t.result = some (.ok .none) ∧ es.count (.spiWrite [0x04]) = 3 ∧ t.init = true) ∨
  (t.result = some (.err (.timeout 40000)) ∧ (∀ b, Event.spiWrite b ∉ es) ∧ t.init = s.init) ∨
  (t.result = some (.err (.timeout 210)) ∧ es.count (.spiWrite [0x04]) = 1 ∧ t.init = true) ∨
  (t.result = some (.err (.timeout 32000)) ∧ es.count (.spiWrite [0x04]) = 2 ∧ t.init = true) ∨
  (t.result = some (.err (.timeout 200)) ∧ es.count (.spiWrite [0x04]) = 3 ∧ t.init = true)

/-- A power step that raises or returns, of an initialized engine. -/
theorem powerStep_ends {T : Nat} {s : State} (hi : s.init = true) :
    (∃ t, powerStep T s = .ok t ∧ PowersSent 1 s t ∧ t.init = true) ∨
      ∃ t, powerStep T s = .raise (.timeout T) t ∧ PowersSent 1 s t ∧ t.init = true := by
  have hsent := powersSent_powerStep (T := T) hi
  cases hf : powerStep T s with
  | ok t => rw [hf] at hsent; exact .inl ⟨t, rfl, hsent, powerStep_ok_init hi hf⟩
  | raise e t =>
    rw [hf] at hsent
    obtain ⟨rfl, hinit, -⟩ := powerStep_raise_state hi hf
    exact .inr ⟨t, rfl, hsent, hinit⟩

/-- Every FLUSH, whatever the polling interval is, ends in one of the five ways. -/
theorem flush_ends {pk : List Byte} (hlen : pk.length = 134400) (s : State) :
    ∃ es, (ended .none (paintCycle pk s)).trace = s.trace ++ es ∧ FlushEnds s (ended .none (paintCycle pk s)) es := by
  have hpk := ne_nil_of_imageLength hlen
  cases hinit : initialise s with
  | raise e u =>
    obtain ⟨es, he, hno⟩ := initialise_sends_nothing s
    rw [hinit] at he
    obtain rfl := initialise_raise hinit
    rw [paintCycle_failed hinit]
    have hkept : u.init = s.init := initialise_raise_init hinit
    exact ⟨es, he, .inr (.inl ⟨rfl, hno, hkept⟩)⟩
  | ok u =>
    have hu := initialise_ok_init hinit
    have h0 := powersSent_initialise s
    rw [hinit] at h0
    have h1 := h0.trans (powersSent_image hlen u)
    rw [paintCycle_initialised hpk hinit hu]
    rcases powerStep_ends (T := tPon1Ms) (s := sent (registerEvents ++ regW 0x10 pk) .high u) hu with
      ⟨v, hv, hp1, hv1⟩ | ⟨v, hv, hp1, hv1⟩
    · rcases powerStep_ends (T := tRefreshMs) hv1 with ⟨w, hw, hp2, hw1⟩ | ⟨w, hw, hp2, hw1⟩
      · rcases powerStep_ends (T := tPon2Ms) hw1 with ⟨x, hx, hp3, hx1⟩ | ⟨x, hx, hp3, hx1⟩
        · obtain ⟨es, he, hk⟩ := ((h1.trans hp1).trans hp2).trans hp3
          simp only [hv, hw, hx, Flow.andThen]
          exact ⟨es, he, .inl ⟨rfl, hk, hx1⟩⟩
        · obtain ⟨es, he, hk⟩ := ((h1.trans hp1).trans hp2).trans hp3
          simp only [hv, hw, hx, Flow.andThen]
          exact ⟨es, he, .inr (.inr (.inr (.inr ⟨rfl, hk, hx1⟩)))⟩
      · obtain ⟨es, he, hk⟩ := (h1.trans hp1).trans hp2
        simp only [hv, hw, Flow.andThen]
        exact ⟨es, he, .inr (.inr (.inr (.inl ⟨rfl, hk, hw1⟩)))⟩
    · obtain ⟨es, he, hk⟩ := h1.trans hp1
      simp only [hv, Flow.andThen]
      exact ⟨es, he, .inr (.inr (.inl ⟨rfl, hk, hv1⟩))⟩

/-! ### The events up to the failing wait -/

/-- The events of a power step. -/
def powerEvents (pollMs n : Nat) (l : Level) : List Event := cmdF [0x04] ++ waitEvents pollMs n l

/-- A state inside a paint cycle that `s` began, after INITIALIZE: `k` samples have been taken and `es` have happened. -/
structure PaintingAfter (k : Nat) (es : List Event) (s t : State) : Prop where
  init : t.init = true
  cfg : t.cfg = s.cfg
  busy : t.busy = s.busy.drop k
  samples : t.samples = s.samples + k
  trace : t.trace = s.trace ++ es

/-- A wait that begins there is one that begins `k` samples on. -/
theorem PaintingAfter.waitTakes {k : Nat} {es : List Event} {s t : State} (h : PaintingAfter k es s t) {T n : Nat}
    {l : Level} (hw : WaitTakes t T n l) : WaitTakes (afterSamples k s) T n l :=
  hw.congr h.busy.symm h.samples.symm h.cfg.symm

/-- A power step whose wait takes `n + 1` samples. -/
theorem PaintingAfter.powered {k : Nat} {es : List Event} {s t : State} (h : PaintingAfter k es s t) (n : Nat)
    (l : Level) :
    PaintingAfter (k + (n + 1)) (es ++ powerEvents s.cfg.pollIntervalMs n l) s (Machine.powered n l t) where
  init := h.init
  cfg := h.cfg
  busy := by simp [Machine.powered, h.busy]
  samples := by simp [Machine.powered, h.samples, Nat.add_assoc]
  trace := by simp [Machine.powered, powerEvents, h.trace, h.cfg]

/-- After INITIALIZE, the register sequence and the image transfer. -/
theorem paintingAfter_image {n : Nat} {s : State} (pk : List Byte) (hi : (initialised n .high s).init = true) :
    PaintingAfter (initialiseSamples s n)
      (initialiseEvents s n .high ++ (registerEvents ++ (cmdF [0x10] ++ datF pk))) s
      (sent (registerEvents ++ regW 0x10 pk) .high (initialised n .high s)) := by
  obtain ⟨hbusy, hsamples, hcfg⟩ := initialised_inputs n .high s
  exact ⟨hi, hcfg, hbusy, hsamples, by rw [sent_trace, initialised_trace, List.append_assoc]; rfl⟩

/-- A power step takes some number of samples, and succeeds or fails by the last. -/
theorem powerStep_takes (T : Nat) {s : State} (hpos : 0 < s.cfg.pollIntervalMs) (hi : s.init = true) :
    ∃ n, (WaitTakes s T n .high ∧ powerStep T s = .ok (powered n .high s)) ∨
      (WaitTakes s T n .low ∧ powerStep T s = .raise (.timeout T) (powered n .low s)) := by
  obtain ⟨n, l, -, hw, -⟩ := waitTakes_exists s T hpos
  refine ⟨n, ?_⟩
  have hflow := powerStep_eq hpos hi hw
  cases l with
  | high => exact .inl ⟨hw, hflow⟩
  | low => exact .inr ⟨hw, hflow⟩

/-- With a positive polling interval, exactly which events a FLUSH has, by the wait that failed, if one did (R157). -/
def FlushStops (s : State) (pk : List Byte) (r : Option Result) (es : List Event) : Prop :=
  ∃ n0 n1 n2 n3 : Nat,
    (r = some (.err (.timeout 40000)) ∧
      initialiseWaits s = true ∧ WaitTakes s 40000 n0 .low ∧
      es = initialiseEvents s n0 .low) ∨
    ((initialiseWaits s = true → WaitTakes s 40000 n0 .high) ∧
      ((r = some (.err (.timeout 210)) ∧
          WaitTakes (afterSamples (initialiseSamples s n0) s) 210 n1 .low ∧
          es = initialiseEvents s n0 .high ++ (registerEvents ++ (cmdF [0x10] ++ datF pk)) ++
            powerEvents s.cfg.pollIntervalMs n1 .low) ∨
       (WaitTakes (afterSamples (initialiseSamples s n0) s) 210 n1 .high ∧
         ((r = some (.err (.timeout 32000)) ∧
             WaitTakes (afterSamples (initialiseSamples s n0 + (n1 + 1)) s) 32000 n2 .low ∧
             es = initialiseEvents s n0 .high ++ (registerEvents ++ (cmdF [0x10] ++ datF pk)) ++
               powerEvents s.cfg.pollIntervalMs n1 .high ++ powerEvents s.cfg.pollIntervalMs n2 .low) ∨
          (WaitTakes (afterSamples (initialiseSamples s n0 + (n1 + 1)) s) 32000 n2 .high ∧
            ∃ l, WaitTakes (afterSamples (initialiseSamples s n0 + (n1 + 1) + (n2 + 1)) s) 200 n3 l ∧
              r = some (if l = .high then .ok .none else .err (.timeout 200)) ∧
              es = initialiseEvents s n0 .high ++ (registerEvents ++ (cmdF [0x10] ++ datF pk)) ++
                powerEvents s.cfg.pollIntervalMs n1 .high ++ powerEvents s.cfg.pollIntervalMs n2 .high ++
                powerEvents s.cfg.pollIntervalMs n3 l)))))

/-- Every FLUSH with a positive polling interval stops where its first failing wait does. -/
theorem flush_stops {pk : List Byte} (hpk : pk ≠ []) {s : State} (hpos : 0 < s.cfg.pollIntervalMs) :
    ∃ es, (ended .none (paintCycle pk s)).trace = s.trace ++ es ∧
      FlushStops s pk (ended .none (paintCycle pk s)).result es := by
  obtain ⟨n0, l0, hwaits, hnowait, hinit⟩ := initialise_takes hpos
  cases l0 with
  | low =>
    have hw : initialiseWaits s = true := by
      by_contra hnot
      exact Level.noConfusion (hnowait (by simpa using hnot))
    rw [paintCycle_failed hinit]
    exact ⟨_, initialised_trace n0 .low s, n0, 0, 0, 0, .inl ⟨rfl, hw, hwaits hw, rfl⟩⟩
  | high =>
    have hhigh : initialiseWaits s = true → WaitTakes s 40000 n0 .high := hwaits
    have hu := initialise_ok_init hinit
    have h0 := paintingAfter_image pk hu
    rw [paintCycle_initialised hpk hinit hu]
    obtain ⟨n1, ⟨hw1, hf1⟩ | ⟨hw1, hf1⟩⟩ := powerStep_takes tPon1Ms (h0.cfg ▸ hpos) h0.init
    · have h1 := h0.powered n1 .high
      obtain ⟨n2, ⟨hw2, hf2⟩ | ⟨hw2, hf2⟩⟩ := powerStep_takes tRefreshMs (h1.cfg ▸ hpos) h1.init
      · have h2 := h1.powered n2 .high
        obtain ⟨n3, ⟨hw3, hf3⟩ | ⟨hw3, hf3⟩⟩ := powerStep_takes tPon2Ms (h2.cfg ▸ hpos) h2.init
        · simp only [hf1, hf2, hf3, Flow.andThen]
          exact ⟨_, (h2.powered n3 .high).trace, n0, n1, n2, n3, .inr ⟨hhigh, .inr ⟨h0.waitTakes hw1,
            .inr ⟨h1.waitTakes hw2, .high, h2.waitTakes hw3, rfl, rfl⟩⟩⟩⟩
        · simp only [hf1, hf2, hf3, Flow.andThen]
          exact ⟨_, (h2.powered n3 .low).trace, n0, n1, n2, n3, .inr ⟨hhigh, .inr ⟨h0.waitTakes hw1,
            .inr ⟨h1.waitTakes hw2, .low, h2.waitTakes hw3, rfl, rfl⟩⟩⟩⟩
      · simp only [hf1, hf2, Flow.andThen]
        exact ⟨_, (h1.powered n2 .low).trace, n0, n1, n2, 0, .inr ⟨hhigh, .inr ⟨h0.waitTakes hw1,
          .inl ⟨rfl, h1.waitTakes hw2, rfl⟩⟩⟩⟩
    · simp only [hf1, Flow.andThen]
      exact ⟨_, (h0.powered n1 .low).trace, n0, n1, 0, 0, .inr ⟨hhigh, .inl ⟨rfl, h0.waitTakes hw1, rfl⟩⟩⟩

/-- Settles O30: the five ends hold for any interval; with a positive one the same events are those up to the failing
wait. -/
theorem aFailedFlushStopsAtItsWait : Obligations.AFailedFlushStopsAtItsWait := by
  intro s t pk hs hlen h
  rw [exec_flush hs.seq hlen] at h
  obtain rfl := Host.Outcome.next.inj h
  obtain ⟨es, htrace, hends⟩ := flush_ends hlen s
  refine ⟨es, htrace, hends, fun hpos => ?_⟩
  obtain ⟨es', htrace', hstops⟩ := flush_stops (ne_nil_of_imageLength hlen) hpos
  obtain rfl : es = es' := List.append_cancel_left (htrace.symm.trans htrace')
  exact hstops

end Sys2Proof.Machine
end

section
/-! PROOF. The two readings of SEQ agree (spec/10_state.md R24, D23): moves of the sequencer and steps of the machine are both
a `Way`, and any `Way` brings an operation's first position to the state its flow ends in. -/

namespace Sys2Proof.Machine

/-! ### Moves are a way -/

/-- Some number of moves of the sequencer. -/
def TicksTo (s t : State) : Prop := ∃ n, ticks n s = t

theorem ticks_add (m n : Nat) (s : State) : ticks (m + n) s = ticks n (ticks m s) := by
  induction m generalizing s with
  | zero => rw [Nat.zero_add]; rfl
  | succ m ih => rw [Nat.succ_add]; exact ih (tick s)

theorem TicksTo.trans {s t u : State} (h : TicksTo s t) (h' : TicksTo t u) : TicksTo s u := by
  obtain ⟨m, rfl⟩ := h
  obtain ⟨n, rfl⟩ := h'
  exact ⟨m + n, ticks_add m n s⟩

theorem ticksTo_tick (s : State) : TicksTo s (tick s) := ⟨1, rfl⟩

/-- One move from a position. -/
theorem ticksTo_tickAt {p : Pos} {rest : List Pos} {s t : State} (h : tickAt p rest (goto (p :: rest) s) = t) :
    TicksTo (goto (p :: rest) s) t :=
  h ▸ ticksTo_tick _

/-- The four moves of a frame (R130). -/
theorem ticksTo_frame {dc : Level} {bytes : List Byte} (hb : bytes ≠ []) (rest : List Pos) {s : State}
    (hi : s.init = true) :
    TicksTo (goto (.frame .assertCs dc bytes :: rest) s) (leave .none rest (sent (frameF dc bytes) dc s)) := by
  refine ⟨4, ?_⟩
  have hfirst : tick (goto (.frame .assertCs dc bytes :: rest) s) =
      goto (.frame .setDc dc bytes :: rest) (pinWrite .cs .low s) := by
    simp [tick, tickAt, tickFrame, hb, hi]
    rfl
  rw [ticks, hfirst, ← frameEvents_eq]
  cases rest <;> rfl

/-- The frame of an uninitialized engine raises at its first move (R133). -/
theorem ticksTo_frame_uninitialized {dc : Level} {bytes : List Byte} (hb : bytes ≠ []) {rest : List Pos}
    (hr : rest.any Pos.isInit = false) {s : State} (hi : s.init = false) :
    TicksTo (goto (.frame .assertCs dc bytes :: rest) s) (takeError .protocolState s) := by
  refine ticksTo_tickAt ?_
  simp only [tickAt, tickFrame, if_neg hb, goto_init, hi, if_true]
  exact raise_noInit hr _ _ _

/-- A position that calls a command frame and then, from `p1`, a data frame sends a register write (R73). -/
theorem ticksTo_regWrite {p0 p1 p2 : Pos} {rest : List Pos} {c : Byte} {pl : List Byte} (hpl : pl ≠ [])
    (h0 : ∀ s, tickAt p0 rest s = goto (.frame .assertCs .low [c] :: p1 :: rest) s)
    (h1 : ∀ s, tickAt p1 rest s = goto (.frame .assertCs .high pl :: p2 :: rest) s) {s : State} (hi : s.init = true) :
    TicksTo (goto (p0 :: rest) s) (goto (p2 :: rest) (sent (regW c pl) .high s)) := by
  have hcommand := (ticksTo_tickAt (s := s) (h0 _)).trans
    (ticksTo_frame (List.cons_ne_nil c []) (p1 :: rest) (s := s) hi)
  have hdata := (ticksTo_tickAt (s := sent (frameF .low [c]) .low s) (h1 _)).trans
    (ticksTo_frame hpl (p2 :: rest) (s := sent (frameF .low [c]) .low s) hi)
  rw [sent_sent] at hdata
  exact hcommand.trans hdata

/-- Moves of the sequencer are a way of running it. -/
theorem way_ticks : Way TicksTo where
  refl s := ⟨0, rfl⟩
  trans := TicksTo.trans
  tick _ _ s _ _ := ticksTo_tick s
  reg k rest s hi := ticksTo_regWrite (regSeqRow_ne_nil k) (fun _ => rfl) (fun _ => rfl) hi
  res rest s hi := ticksTo_regWrite (List.cons_ne_nil _ _) (fun _ => rfl) (fun _ => rfl) hi
  image rest s pk hi hpk := ticksTo_regWrite (isImage_ne_nil hpk) (fun _ => rfl) (fun _ => rfl) hi
  power p rest s pk hi hregs himage := by
    refine TicksTo.trans (t := goto (.frame .assertCs .low [powerOpcode] :: .paint p 1 pk :: rest) s)
      (ticksTo_tickAt ?_) (ticksTo_frame (List.cons_ne_nil _ _) (.paint p 1 pk :: rest) hi)
    cases p with
    | registers => exact absurd rfl hregs
    | image => exact absurd rfl himage
    | power1 | power2 | power3 => rfl
  reg0 s hi := (ticksTo_tickAt (s := s) rfl).trans
    (ticksTo_frame_uninitialized (rest := [.regSeq 0 1]) (List.cons_ne_nil _ _) rfl hi)
  res0 s hi := (ticksTo_tickAt (s := s) rfl).trans
    (ticksTo_frame_uninitialized (rest := [.res 1]) (List.cons_ne_nil _ _) rfl hi)

/-! ### Steps are a way -/

/-- Some number of steps of the machine, from an engine whose configuration is legal: a run takes them first. -/
def StepsTo (s t : State) : Prop :=
  s.cfg.legal = true → t.cfg.legal = true ∧ ∃ m, ∀ n, Sys2Proof.core.run (m + n) s = Sys2Proof.core.run n t

theorem StepsTo.trans {s t u : State} (h : StepsTo s t) (h' : StepsTo t u) : StepsTo s u := by
  intro hc
  obtain ⟨hct, m, hm⟩ := h hc
  obtain ⟨hcu, m', hm'⟩ := h' hct
  exact ⟨hcu, m + m', fun n => by rw [Nat.add_assoc, hm, hm']⟩

/-- A run takes one step and goes on. -/
theorem run_succ_of_step {s t : State} (h : step s = .next t) (n : Nat) :
    Sys2Proof.core.run (n + 1) s = Sys2Proof.core.run n t := by
  have hstep : Sys2Proof.core.step s = .next t := h
  simp [Host.Core.run, hstep]

/-- One step. -/
theorem stepsTo_step {s t : State} (h : s.cfg.legal = true → step s = .next t) : StepsTo s t := by
  intro hc
  have hcfg : t.cfg = s.cfg := (step_moved (h hc)).1.cfg
  exact ⟨hcfg ▸ hc, 1, fun n => by rw [Nat.add_comm, run_succ_of_step (h hc)]⟩

/-- A step at a position whose wire command raises is the error taken. -/
theorem step_raises {s : State} {p : Pos} {rest : List Pos} {i : Instr} {e : Err} (hc : s.cfg.legal = true)
    (hs : s.seq = p :: rest) (hw : wireAt p = some i) (hf : wireFlow i s = some (.raise e s)) :
    step s = .next (takeError e s) := by
  rw [step, if_pos hc]
  simp [hs, hw, exec_wireFlow hf, carriedOn, afterCommand]

/-- Steps of the machine are a way of running it. -/
theorem way_steps : Way StepsTo where
  refl s hc := ⟨hc, 0, fun n => by rw [Nat.zero_add]⟩
  trans := StepsTo.trans
  tick p rest s hs hw := stepsTo_step fun hc => step_moves hc hs hw
  reg k rest s hi := stepsTo_step fun hc => step_regSeq hc hi rfl
  res rest s hi := stepsTo_step fun hc =>
    step_sends hc rfl rfl (congrArg some (regWrite_sent (List.cons_ne_nil _ _) hi))
  image rest s pk hi hpk := stepsTo_step fun hc =>
    step_sends hc rfl rfl (wireFlow_cmdImageTransfer (s := goto (.paint .image 0 pk :: rest) s) hi hpk)
  power p rest s pk hi hregs himage := stepsTo_step fun hc => by
    cases p with
    | registers => exact absurd rfl hregs
    | image => exact absurd rfl himage
    | power1 | power2 | power3 => exact step_sends hc rfl rfl (wireFlow_cmdPowerOn hi)
  reg0 s hi := stepsTo_step fun hc => step_raises (s := goto [.regSeq 0 0] s) hc rfl rfl
    (congrArg some (regWrite_uninitialized hi))
  res0 s hi := stepsTo_step fun hc => step_raises (s := goto [.res 0] s) hc rfl rfl
    (congrArg some (regWrite_uninitialized hi))

/-! ### Every way runs every operation -/

section
variable {R : State → State → Prop}

/-- Where a flow run at a position leaves the machine: at the outer positions, or Idle with the error taken. -/
def settle (rest : List Pos) : Flow → State
  | .ok t => leave .none rest t
  | .raise e t => takeError e t

theorem settle_nil (f : Flow) : settle [] f = ended .none f := by
  cases f <;> rfl

/-- A call and the rest of the rule: where the call returns, the rest runs from a state `mid` of its own. -/
theorem way_andThen (W : Way R) {rest : List Pos} {s : State} {f : Flow} {k : State → Flow} (mid : State → State)
    (hf : (∀ t, f = .ok t → R s (mid t)) ∧ ∀ e t, f = .raise e t → R s (takeError e t))
    (hk : ∀ t, f = .ok t → R (mid t) (settle rest (k t))) : R s (settle rest (f.andThen k)) := by
  cases f with
  | ok t => exact W.trans (hf.1 t rfl) (hk t rfl)
  | raise e t => exact hf.2 e t rfl

/-- A power step and the move after it (R155). -/
theorem way_powerStep (W : Way R) {p q : PaintStep} (hq : nextPaint p = some q) (hregs : p ≠ .registers)
    (himage : p ≠ .image) {rest : List Pos} (hr : rest.any Pos.isInit = false) (pk : List Byte) {s : State}
    (hi : s.init = true) (hb : s.bw = none) (hpos : 0 < s.cfg.pollIntervalMs) :
    (∀ t, powerStep (paintTimeout p) s = .ok t →
      R (goto (.paint p 0 pk :: rest) s) (goto (.paint q 0 pk :: rest) t)) ∧
    (∀ e t, powerStep (paintTimeout p) s = .raise e t → R (goto (.paint p 0 pk :: rest) s) (takeError e t)) := by
  obtain ⟨hok, hraise⟩ := way_power W p hregs himage rest hr pk hi hb hpos
  refine ⟨fun t ht => W.trans (hok t ht) (way_tick W (by cases p <;> rfl) ?_), hraise⟩
  cases p with
  | registers => exact absurd rfl hregs
  | image => exact absurd rfl himage
  | power1 | power2 => cases hq; rfl
  | power3 => cases hq

/-- A power step that returns keeps INIT and the configuration, and no wait is in progress. -/
theorem powerStep_ok_keeps {T : Nat} {s t : State} (hi : s.init = true) (hb : s.bw = none) (h : powerStep T s = .ok t) :
    t.init = true ∧ t.bw = none ∧ t.cfg = s.cfg := by
  have hrun := wireRun_powerStep T s
  rw [h] at hrun
  exact ⟨hrun.init hi, hrun.bw hb, hrun.cfg⟩

/-- The three power steps of the paint cycle, the last of them left (R155). -/
theorem way_powers (W : Way R) {rest : List Pos} (hr : rest.any Pos.isInit = false) (pk : List Byte) {s : State}
    (hi : s.init = true) (hb : s.bw = none) (hpos : 0 < s.cfg.pollIntervalMs) :
    R (goto (.paint .power1 0 pk :: rest) s)
      (settle rest (((powerStep tPon1Ms s).andThen (powerStep tRefreshMs)).andThen (powerStep tPon2Ms))) := by
  have hassoc : ((powerStep tPon1Ms s).andThen (powerStep tRefreshMs)).andThen (powerStep tPon2Ms) =
      (powerStep tPon1Ms s).andThen fun t => (powerStep tRefreshMs t).andThen (powerStep tPon2Ms) := by
    cases powerStep tPon1Ms s <;> rfl
  rw [hassoc]
  refine way_andThen W (goto (.paint .power2 0 pk :: rest))
    (way_powerStep W (p := .power1) rfl nofun nofun hr pk hi hb hpos) fun t ht => ?_
  obtain ⟨hit, hbt, hct⟩ := powerStep_ok_keeps hi hb ht
  refine way_andThen W (goto (.paint .power3 0 pk :: rest))
    (way_powerStep W (p := .power2) rfl nofun nofun hr pk hit hbt (hct ▸ hpos)) fun u hu => ?_
  obtain ⟨hiu, hbu, hcu⟩ := powerStep_ok_keeps hit hbt hu
  obtain ⟨hok, hraise⟩ := way_power W .power3 nofun nofun rest hr pk hiu hbu (hcu ▸ hct ▸ hpos)
  cases hlast : powerStep tPon2Ms u with
  | ok x => exact W.trans (hok x hlast) (way_tick W rfl (leave_goto _ _ _ _))
  | raise e x => exact hraise e x hlast

/-- The paint cycle after INITIALIZE: the register sequence, the image transfer, the power steps (R155). -/
theorem way_paint (W : Way R) {rest : List Pos} (hr : rest.any Pos.isInit = false) {pk : List Byte}
    (hpk : isImage pk = true) {s : State} (hi : s.init = true) (hb : s.bw = none) (hpos : 0 < s.cfg.pollIntervalMs) :
    R (goto (.paint .registers 0 pk :: rest) s)
      (settle rest (((powerStep tPon1Ms (sent (registerEvents ++ regW 0x10 pk) .high s)).andThen
        (powerStep tRefreshMs)).andThen (powerStep tPon2Ms))) := by
  have hcall : R (goto (.paint .registers 0 pk :: rest) s) (goto (.regSeq 0 0 :: .paint .registers 1 pk :: rest) s) :=
    way_tick W rfl rfl
  have hregs : R (goto (.regSeq 0 0 :: .paint .registers 1 pk :: rest) s)
      (goto (.paint .registers 1 pk :: rest) (sent registerEvents .high s)) := way_registers W _ hi
  have hnext : R (goto (.paint .registers 1 pk :: rest) (sent registerEvents .high s))
      (goto (.paint .image 0 pk :: rest) (sent registerEvents .high s)) := way_tick W rfl rfl
  have himage := W.image rest (sent registerEvents .high s) pk hi hpk
  rw [sent_sent] at himage
  have hpower : R (goto (.paint .image 2 pk :: rest) (sent (registerEvents ++ regW 0x10 pk) .high s))
      (goto (.paint .power1 0 pk :: rest) (sent (registerEvents ++ regW 0x10 pk) .high s)) := way_tick W rfl rfl
  exact W.trans hcall (W.trans hregs (W.trans hnext (W.trans himage (W.trans hpower
    (way_powers W hr pk (s := sent (registerEvents ++ regW 0x10 pk) .high s) hi hb hpos)))))

/-- INITIALIZE with no position to run returns at once (R126). -/
theorem initialise_of_initPositions_nil {s : State} (h : initPositions s = []) : initialise s = .ok s := by
  unfold initPositions at h
  split at h
  · next hi =>
    split at h
    · cases h
    · next hr => exact initialise_again hi (by simpa using hr)
  · cases h

/-- A whole paint cycle, INITIALIZE first (R155). -/
theorem way_paintCycle (W : Way R) {rest : List Pos} (hr : rest.any Pos.isInit = false) {pk : List Byte}
    (hpk : isImage pk = true) {s : State} (hb : s.bw = none) (hpos : 0 < s.cfg.pollIntervalMs) :
    R (goto (initPositions s ++ (.paint .registers 0 pk :: rest)) s) (settle rest (paintCycle pk s)) := by
  have hinit : (∀ t, initialise s = .ok t → R (goto (initPositions s ++ (.paint .registers 0 pk :: rest)) s)
        (goto (.paint .registers 0 pk :: rest) t)) ∧
      ∀ e t, initialise s = .raise e t →
        R (goto (initPositions s ++ (.paint .registers 0 pk :: rest)) s) (takeError e t) := by
    by_cases hq : initPositions s = []
    · have hflow := initialise_of_initPositions_nil hq
      refine ⟨fun t ht => ?_, fun e t ht => ?_⟩ <;> rw [hflow] at ht
      · obtain rfl := Flow.ok.inj ht
        rw [hq]
        exact W.refl _
      · cases ht
    · have houter : (Pos.paint .registers 0 pk :: rest).any Pos.isInit = false := hr
      obtain ⟨hok, hraise⟩ := way_init W _ houter hb hpos hq
      exact ⟨hok, hraise⟩
  cases hf : initialise s with
  | raise e t =>
    rw [paintCycle_failed hf]
    exact hinit.2 e t hf
  | ok t =>
    have hit := initialise_ok_init hf
    have hrun := wireRun_initialise s
    rw [hf] at hrun
    have hct : t.cfg = s.cfg := hrun.cfg
    rw [paintCycle_initialised (isImage_ne_nil hpk) hf hit]
    exact W.trans (hinit.1 t hf) (way_paint W hr hpk hit (hrun.bw hb) (hct ▸ hpos))

/-- An operation that is one frame (R130). -/
theorem way_frame_op (W : Way R) (dc : Level) (bytes : List Byte) (s : State) :
    R (goto [.frame .assertCs dc bytes] s) (ended .none (frame dc bytes s)) := by
  by_cases hb : bytes = []
  · subst hb
    exact way_tick W rfl rfl
  · cases hi : s.init with
    | true =>
      rw [frame_sent hb hi]
      exact way_frame W hb [] hi
    | false =>
      rw [frame_uninitialized hb hi]
      refine way_tick W rfl ?_
      simp only [tickAt, tickFrame, if_neg hb, goto_init, hi, if_true]
      rfl

/-- INITIALIZE as an operation of its own (R125, R126). -/
theorem way_initialise_op (W : Way R) {s : State} (hb : s.bw = none) (hpos : 0 < s.cfg.pollIntervalMs) :
    R (start (initPositions s) s) (ended .none (initialise s)) := by
  by_cases hq : initPositions s = []
  · rw [hq, initialise_of_initPositions_nil hq]
    exact W.refl _
  · obtain ⟨hok, hraise⟩ := way_init W [] rfl hb hpos hq
    have hstart : start (initPositions s) s = goto (initPositions s ++ []) s := by
      rw [List.append_nil]
      obtain ⟨p, rest, hp⟩ := List.exists_cons_of_ne_nil hq
      rw [hp]
      rfl
    rw [hstart]
    cases hf : initialise s with
    | ok t => exact hok t hf
    | raise e t => exact hraise e t hf

/-- FLUSH: its positions are not empty, so that the operation starts at the first of them (R155). -/
theorem way_flush_op (W : Way R) {pk : List Byte} (hpk : isImage pk = true) {s : State} (hb : s.bw = none)
    (hpos : 0 < s.cfg.pollIntervalMs) :
    R (start (initPositions s ++ [.paint .registers 0 pk]) s) (ended .none (paintCycle pk s)) := by
  have hstart : start (initPositions s ++ [.paint .registers 0 pk]) s =
      goto (initPositions s ++ [.paint .registers 0 pk]) s := by
    cases initPositions s <;> rfl
  rw [hstart, ← settle_nil]
  exact way_paintCycle W rfl hpk hb hpos

/-- RENDER: transform, pack, the paint cycle, and the value at its end (R200). -/
theorem way_render_op (W : Way R) {s : State} (hb : s.bw = none) (hpos : 0 < s.cfg.pollIntervalMs) :
    R (goto [.renderTransform] s)
      (ended (.packed (renderImage s.cfg s.fb)) (paintCycle (renderImage s.cfg s.fb) s)) := by
  have himage : isImage (renderImage s.cfg s.fb) = true := (isImage_iff _).mpr (renderImage_length s.cfg s.fb)
  have htransform : R (goto [.renderTransform] s) (goto [.renderPack (transform s.cfg s.fb)] s) := way_tick W rfl rfl
  have hpack : R (goto [.renderPack (transform s.cfg s.fb)] s) (goto [.renderFlush 0 (renderImage s.cfg s.fb)] s) :=
    way_tick W rfl rfl
  have hcall : R (goto [.renderFlush 0 (renderImage s.cfg s.fb)] s)
      (goto (initPositions s ++ (.paint .registers 0 (renderImage s.cfg s.fb) ::
        [.renderFlush 1 (renderImage s.cfg s.fb)])) s) := way_tick W rfl rfl
  have hcycle := way_paintCycle W (rest := [.renderFlush 1 (renderImage s.cfg s.fb)]) rfl himage hb hpos
  have hpaint := W.trans htransform (W.trans hpack (W.trans hcall hcycle))
  cases hf : paintCycle (renderImage s.cfg s.fb) s with
  | ok t =>
    rw [hf] at hpaint
    exact W.trans hpaint (way_tick W rfl rfl)
  | raise e t =>
    rw [hf] at hpaint
    exact hpaint

/-- WAIT_FOR_READY (R110). -/
theorem way_wait_op (W : Way R) (T : Nat) {s : State} (hb : s.bw = none) (hpos : 0 < s.cfg.pollIntervalMs) :
    R (goto [.wait T] s) (ended .none (waitReady T s)) := by
  obtain ⟨n, l, -, hw, heq⟩ := waitTakes_exists s T hpos
  have hrun := way_wait W [] hb hpos hw
  rw [heq]
  cases l with
  | high => exact hrun
  | low => exact hrun

/-- RESET_DISPLAY (R150). -/
theorem way_resetDisplay_op (W : Way R) (s : State) :
    R (goto [.regSeq 0 0] s) (ended .none (registerSequence s)) := by
  cases hi : s.init with
  | true =>
    rw [registerSequence_sent hi]
    exact way_registers W [] hi
  | false =>
    rw [registerSequence_uninitialized hi]
    exact W.reg0 s hi

/-- SET_RESOLUTION (R153). -/
theorem way_setResolution_op (W : Way R) (s : State) :
    R (goto [.res 0] s) (ended .none (regWrite 0x61 [0x01, 0xF4, 0x01, 0xC0] s)) := by
  cases hi : s.init with
  | true =>
    rw [regWrite_sent (List.cons_ne_nil _ _) hi]
    exact W.trans (W.res [] s hi) (way_tick W rfl rfl)
  | false =>
    rw [regWrite_uninitialized hi]
    exact W.res0 s hi

/-- Every way runs every operation on the wire from its first position to the end of its flow. -/
theorem way_operation (W : Way R) {i : Instr} {s : State} {q : List Pos} {v : Value} {f : Flow} (hb : s.bw = none)
    (hpos : 0 < s.cfg.pollIntervalMs) (hq : startPositions i s = some q) (hf : opFlow i s = some (v, f)) :
    R (start q s) (ended v f) := by
  cases i <;> simp only [startPositions, reduceCtorEq] at hq <;> obtain rfl := Option.some.inj hq
  case initializeDriver =>
    obtain ⟨rfl, rfl⟩ := Prod.mk.inj (Option.some.inj hf)
    exact way_initialise_op W hb hpos
  case writeCommand bytes =>
    obtain ⟨rfl, rfl⟩ := Prod.mk.inj (Option.some.inj hf)
    exact way_frame_op W .low bytes s
  case writeData bytes =>
    obtain ⟨rfl, rfl⟩ := Prod.mk.inj (Option.some.inj hf)
    exact way_frame_op W .high bytes s
  case resetDisplay =>
    obtain ⟨rfl, rfl⟩ := Prod.mk.inj (Option.some.inj hf)
    exact way_resetDisplay_op W s
  case setResolution =>
    obtain ⟨rfl, rfl⟩ := Prod.mk.inj (Option.some.inj hf)
    exact way_setResolution_op W s
  case flush pk =>
    simp only [opFlow] at hf
    split at hf
    · next hpk =>
      obtain ⟨rfl, rfl⟩ := Prod.mk.inj (Option.some.inj hf)
      exact way_flush_op W hpk hb hpos
    · cases hf
  case waitForReady r T =>
    simp only [opFlow] at hf
    split at hf
    · obtain ⟨rfl, rfl⟩ := Prod.mk.inj (Option.some.inj hf)
      exact way_wait_op W T hb hpos
    · cases hf
  case render =>
    obtain ⟨rfl, rfl⟩ := Prod.mk.inj (Option.some.inj hf)
    exact way_render_op W hb hpos

end

/-- A legal configuration has a positive polling interval (R7). -/
theorem pollInterval_pos_of_legal {c : Cfg} (h : c.legal = true) : 0 < c.pollIntervalMs := by
  by_contra hzero
  have hillegal : c.legal = false := (legal_eq_false_iff c).mpr (.inl (by omega))
  exact Bool.noConfusion (hillegal.symm.trans h)

/-- The operations with positions on SEQ are host operations. -/
theorem isHostOp_of_startPositions {i : Instr} {s : State} {q : List Pos} (h : startPositions i s = some q) :
    isHostOp i = true := by
  cases i <;> simp only [startPositions, reduceCtorEq] at h <;> rfl

/-- Starting an operation keeps the configuration. -/
theorem start_cfg (q : List Pos) (s : State) : (start q s).cfg = s.cfg := by
  cases q <;> rfl

/-- Settles O60: moves and steps are both ways, and a way ends where the flow does. -/
theorem theSequencerRunsEveryOperation : Obligations.TheSequencerRunsEveryOperation := by
  intro i s t q hs hc hq h
  obtain ⟨-, v, f, hf, rfl⟩ := exec_hostOp_next (isHostOp_of_startPositions hq) h
  have hpos := pollInterval_pos_of_legal hc
  obtain ⟨-, m, hm⟩ := way_operation way_steps hs.bw hpos hq hf (by rwa [start_cfg])
  exact ⟨way_operation way_ticks hs.bw hpos hq hf, m, hm 0⟩

end Sys2Proof.Machine
end
